-- ==== Sys2Proof/Word.lean ====
section
/-!
DEFINITION. Word.lean: the word and byte types (00_scope.md R6 `W_DATA` = 32, R9).
-/

namespace Sys2Proof

/-- A 32-bit bus word, u32 of 00_scope.md R9; `+`, `-`, `*` on it are add32, sub32, mul32. -/
abbrev Word := BitVec 32

/-- A byte of IBUF or OBUF, u8 of 00_scope.md R9. -/
abbrev Byte := BitVec 8

end Sys2Proof
end

