-- ==== Sys2Proof/Machine/Bus.lean ====
section
/-!
DEFINITION. Machine/Bus.lean: what stands on the host's bus: one access, its response, and the inputs that the
world outside the block can give it (20_memory.md R26 to R39, 70_reset_and_hazards.md R105, R106,
30_encoding.md R51, R52).
-/

namespace Sys2Proof.Machine

/-- One host bus access at a byte offset of the register window (20_memory.md R26: `off` = addr[7:0]).
`width` is the access's width in bits; 20_memory.md R28 allows 32 and answers any other with a bus error. -/
inductive Access where
  /-- `RD`: a read. -/
  | read (off : BitVec 8) (width : Nat)
  /-- `WR`: a write of `v`. -/
  | write (off : BitVec 8) (width : Nat) (v : Word)
  deriving DecidableEq, Repr

/-- What the bus answers to one access (20_memory.md R29, R32, R33). -/
inductive Response where
  /-- The word a read returns. -/
  | readData (v : Word)
  /-- A write with no bus error: stored, dropped or ignored alike. -/
  | writeOk
  /-- The bus error response of 20_memory.md R29, 60_exceptions.md R100. -/
  | busError
  deriving DecidableEq, Repr, Inhabited

/-- What the world outside the block does next: a bus access, one of the two host-script statements that need an
answer before they go on (30_encoding.md R52), or the platform's reset (70_reset_and_hazards.md R105). -/
inductive Input where
  /-- One bus access. -/
  | access (a : Access)
  /-- `WAIT`: `loop: RD STATUS; if bit 0 = 1 goto loop`. -/
  | waitIdle
  /-- One word of `COPY`: `RD src`, then `WR dst` of the value read. -/
  | copyWord (src dst : BitVec 8)
  /-- Reset is asserted, perhaps while a host access is on the bus (70_reset_and_hazards.md R106). -/
  | reset (overlapping : Option Access)
  deriving DecidableEq, Repr

end Sys2Proof.Machine
end

