-- ==== Sys2Proof/Config.lean ====
section
/-!
DEFINITION. Config.lean: what a block's builder fixes (00_scope.md R7). A value that the spec leaves open with no
default is an opaque constant with no body: nothing can be proved of it but what holds of every value
(93_implementation_defined.md I1, I6, I13). The parameters for which the spec gives a default are the fields of
`Params`; each default stands beside the unit that uses it, and Machine/Params.lean gives the commands and the step
for every choice of them.
-/

namespace Sys2Proof

/-- The regions of 44_freqhop.md R89. -/
inductive Region where
  | europe
  | northAmerica
  | australia
  | asia
  deriving DecidableEq, Repr

/-- A region's plan: (base_freq_hz, channel_spacing_hz, channel_count), 44_freqhop.md R89. -/
structure Plan where
  base : Nat
  spacing : Nat
  count : Nat
  deriving DecidableEq, Repr

/-- The four words of a 16-byte payload (20_memory.md R35). -/
structure Block where
  w0 : Word
  w1 : Word
  w2 : Word
  w3 : Word
  deriving DecidableEq, Repr

/-- A word pairing (41_whitener.md R70): the words (a0, a1) are one pair and (b0, b1) the other. -/
structure Pairing where
  a0 : Fin 4
  a1 : Fin 4
  b0 : Fin 4
  b1 : Fin 4
  deriving DecidableEq, Repr

/-- A value of WHITEN_ROUND (41_whitener.md R70), by what it does to the whole payload: the round function, with the
sum first, and the word pairing together, and the inverse round. Every pairing of words fits, and so does a mixer over
one 128-bit block. -/
structure WhitenRound where
  /-- One forward round. -/
  fwd : Word → Block → Block
  /-- The inverse round of 41_whitener.md R72 with the same sum. -/
  inv : Word → Block → Block

/-- The parameters of 00_scope.md R7 that have a default. FEC_G and LATENCY have none: those are free values below. -/
structure Params where
  /-- WHITEN_ROUND, 41_whitener.md R70. -/
  whitenRound : WhitenRound
  /-- HOP_HASH, 44_freqhop.md R90. -/
  hopHash : Word → Word
  /-- HOP_SLOT1_PLUS1, 44_freqhop.md R91. -/
  hopSlot1Plus1 : Bool
  /-- PLAN, 44_freqhop.md R89. -/
  plan : Region → Plan

namespace Config

/-- LATENCY - 1 of the command accepted when `n` free values had been drawn (70_reset_and_hazards.md R112): LATENCY
is "a positive integer" and "may differ from command to command". Free value, log 3. -/
opaque latencyPred : Nat → Nat

/-- A function of the 160 data bits to 48 parity bits of which nothing is known (42_fec.md R77: "an opaque total
function"). `Sys2Proof.Machine.fecParity` puts the constraints of 42_fec.md R78 on it. Free value, log 6. -/
opaque fecParityRaw : BitVec 160 → BitVec 48

/-- What the bus answers to a host access that overlaps the assertion of reset, when `n` free values had been drawn
(70_reset_and_hazards.md R106: "what it returns is the platform's concern"). Free value, log 7. -/
opaque resetResponse : Nat → Machine.Response

end Config

end Sys2Proof
end

