-- ==== Sys2Proof/Syntax.lean ====
section
/-!
DEFINITION. Syntax.lean: the seventeen commands of NMQ-CMD v1 (30_encoding.md R44), one constructor per row of
spec/opcode_table.json. The operands are the free fields of the command word (30_encoding.md R43, R45); the other
operands come from ARG and IBUF when the command completes.
-/

namespace Sys2Proof

/-- A command. `len` is LEN as a number and `slot` is SLOT as a number (30_encoding.md R43: fields are
zero-extended); `WellFormed` holds them to their fields' ranges. -/
inductive Instr where
  /-- 0x10, 40_quantizer.md R58. -/
  | qenc14
  /-- 0x11, 40_quantizer.md R59. -/
  | qdec14
  /-- 0x12, 40_quantizer.md R60. -/
  | qenc10
  /-- 0x13, 40_quantizer.md R61. -/
  | qdec10
  /-- 0x14, 40_quantizer.md R62. -/
  | qenc6
  /-- 0x15, 40_quantizer.md R63. -/
  | qdec6
  /-- 0x16, 40_quantizer.md R64. -/
  | qencs8
  /-- 0x17, 40_quantizer.md R65. -/
  | qdecs8
  /-- 0x18, 40_quantizer.md R66. -/
  | qencs9
  /-- 0x19, 40_quantizer.md R67. -/
  | qdecs9
  /-- 0x20, 41_whitener.md R73. -/
  | whiten
  /-- 0x21, 41_whitener.md R74. -/
  | dewhiten
  /-- 0x30, 42_fec.md R79. -/
  | fecenc
  /-- 0x31, 42_fec.md R80. -/
  | fecchk
  /-- 0x40, 43_manchester.md R86. -/
  | manenc (len : Nat)
  /-- 0x41, 43_manchester.md R87. -/
  | mandec (len : Nat)
  /-- 0x50, 44_freqhop.md R93. -/
  | fhsel (region : Region) (slot : Nat)
  deriving DecidableEq, Repr

end Sys2Proof
end

