-- ==== Sys2Proof/WellFormed.lean ====
section
/-!
DEFINITION. WellFormed.lean: which commands have a command word: LEN is 0..255 and SLOT is 0..1
(30_encoding.md R43, R51). A LEN that a Manchester command rejects is still well formed (30_encoding.md R45).
-/

namespace Sys2Proof

/-- The command's operands fit their fields (30_encoding.md R42, R51). -/
def Instr.wf : Instr → Bool
  | .qenc14 | .qdec14 | .qenc10 | .qdec10 | .qenc6 | .qdec6 => true
  | .qencs8 | .qdecs8 | .qencs9 | .qdecs9 => true
  | .whiten | .dewhiten | .fecenc | .fecchk => true
  | .manenc len => decide (len < 256)
  | .mandec len => decide (len < 256)
  | .fhsel _ slot => decide (slot < 2)

/-- `Instr.wf` as a proposition. -/
abbrev WellFormed (i : Instr) : Prop := i.wf = true

end Sys2Proof
end

