-- ==== Sys2Proof/Decode.lean ====
section
/-!
DEFINITION. Decode.lean: the command word's fields (30_encoding.md R42), the opcode map (R44), legality (R45, R46),
the decoder, and after it the encoder (R51). The decoder is total: every 32-bit word is one of the seventeen legal
commands or is rejected by name.
-/

namespace Sys2Proof

/-- `c[hi:lo]` as a number, `w` = hi - lo + 1 bits from bit `lo` (00_scope.md R8). -/
def bits (c : Word) (lo w : Nat) : Nat := (c.toNat >>> lo) % 2 ^ w

/-- The mnemonics of the opcode map (30_encoding.md R44). -/
inductive Opcode where
  | QENC14 | QDEC14 | QENC10 | QDEC10 | QENC6 | QDEC6 | QENCS8 | QDECS8 | QENCS9 | QDECS9
  | WHITEN | DEWHITEN | FECENC | FECCHK | MANENC | MANDEC | FHSEL
  deriving DecidableEq, Repr

/-- The OPCODE value of a mnemonic (30_encoding.md R44). -/
def Opcode.value : Opcode → Nat
  | .QENC14 => 0x10
  | .QDEC14 => 0x11
  | .QENC10 => 0x12
  | .QDEC10 => 0x13
  | .QENC6 => 0x14
  | .QDEC6 => 0x15
  | .QENCS8 => 0x16
  | .QDECS8 => 0x17
  | .QENCS9 => 0x18
  | .QDECS9 => 0x19
  | .WHITEN => 0x20
  | .DEWHITEN => 0x21
  | .FECENC => 0x30
  | .FECCHK => 0x31
  | .MANENC => 0x40
  | .MANDEC => 0x41
  | .FHSEL => 0x50

/-- All the mnemonics, in the order of 30_encoding.md R44. -/
def Opcode.all : List Opcode :=
  [.QENC14, .QDEC14, .QENC10, .QDEC10, .QENC6, .QDEC6, .QENCS8, .QDECS8, .QENCS9, .QDECS9,
   .WHITEN, .DEWHITEN, .FECENC, .FECCHK, .MANENC, .MANDEC, .FHSEL]

/-- The mnemonic of an OPCODE field, if 30_encoding.md R44 has one; every other value is illegal (R46). -/
def Opcode.ofField (op : Nat) : Option Opcode := Opcode.all.find? (fun o => o.value == op)

/-- The mask of a mnemonic's row (30_encoding.md R45): the bits that are fixed. -/
def Opcode.mask : Opcode → Word
  | .MANENC | .MANDEC => 0xFFFF00FF#32
  | .FHSEL => 0xFFF8FFFF#32
  | .QENC14 | .QDEC14 | .QENC10 | .QDEC10 | .QENC6 | .QDEC6 => 0xFFFFFFFF#32
  | .QENCS8 | .QDECS8 | .QENCS9 | .QDECS9 => 0xFFFFFFFF#32
  | .WHITEN | .DEWHITEN | .FECENC | .FECCHK => 0xFFFFFFFF#32

/-- The match value of a mnemonic's row (30_encoding.md R45): 0x000000op. -/
def Opcode.pattern (o : Opcode) : Word := BitVec.ofNat 32 o.value

/-- The region of a REGION field (44_freqhop.md R89). -/
def Region.ofCode : Nat → Region
  | 0 => .europe
  | 1 => .northAmerica
  | 2 => .australia
  | _ => .asia

/-- The REGION code of a region (44_freqhop.md R89). -/
def Region.code : Region → Nat
  | .europe => 0
  | .northAmerica => 1
  | .australia => 2
  | .asia => 3

/-- The command that a legal word of this row stands for: its free fields become operands (30_encoding.md R43). -/
def Opcode.instr (o : Opcode) (len region slot : Nat) : Instr :=
  match o with
  | .QENC14 => .qenc14
  | .QDEC14 => .qdec14
  | .QENC10 => .qenc10
  | .QDEC10 => .qdec10
  | .QENC6 => .qenc6
  | .QDEC6 => .qdec6
  | .QENCS8 => .qencs8
  | .QDECS8 => .qdecs8
  | .QENCS9 => .qencs9
  | .QDECS9 => .qdecs9
  | .WHITEN => .whiten
  | .DEWHITEN => .dewhiten
  | .FECENC => .fecenc
  | .FECCHK => .fecchk
  | .MANENC => .manenc len
  | .MANDEC => .mandec len
  | .FHSEL => .fhsel (Region.ofCode region) slot

/-- Why a command word is not legal (30_encoding.md R46, 60_exceptions.md R95). -/
inductive Reject where
  /-- OPCODE is not in 30_encoding.md R44. -/
  | unknownOpcode (op : Nat)
  /-- A field that the command does not use is not 0 (30_encoding.md R45). -/
  | unusedFieldNotZero (o : Opcode)
  deriving DecidableEq, Repr

/-- The decoder (30_encoding.md R45): `(c & mask) = match` for the row of `c[7:0]`. -/
def decode (c : Word) : Except Reject Instr :=
  match Opcode.ofField (bits c 0 8) with
  | none => .error (.unknownOpcode (bits c 0 8))
  | some o =>
    if c &&& o.mask = o.pattern then .ok (o.instr (bits c 8 8) (bits c 16 2) (bits c 18 1))
    else .error (.unusedFieldNotZero o)

/-- `legal(c)` of 30_encoding.md R45. -/
def legal (c : Word) : Bool :=
  match decode c with
  | .ok _ => true
  | .error _ => false

/-- The mnemonic of a command (30_encoding.md R44). -/
def Instr.opcode : Instr → Opcode
  | .qenc14 => .QENC14
  | .qdec14 => .QDEC14
  | .qenc10 => .QENC10
  | .qdec10 => .QDEC10
  | .qenc6 => .QENC6
  | .qdec6 => .QDEC6
  | .qencs8 => .QENCS8
  | .qdecs8 => .QDECS8
  | .qencs9 => .QENCS9
  | .qdecs9 => .QDECS9
  | .whiten => .WHITEN
  | .dewhiten => .DEWHITEN
  | .fecenc => .FECENC
  | .fecchk => .FECCHK
  | .manenc _ => .MANENC
  | .mandec _ => .MANDEC
  | .fhsel _ _ => .FHSEL

/-- LEN of a command: 0 where the command does not use it (30_encoding.md R45). -/
def Instr.lenField : Instr → Nat
  | .manenc len => len
  | .mandec len => len
  | .qenc14 | .qdec14 | .qenc10 | .qdec10 | .qenc6 | .qdec6 => 0
  | .qencs8 | .qdecs8 | .qencs9 | .qdecs9 => 0
  | .whiten | .dewhiten | .fecenc | .fecchk => 0
  | .fhsel _ _ => 0

/-- REGION of a command: 0 where the command does not use it. -/
def Instr.regionField : Instr → Nat
  | .fhsel region _ => region.code
  | .qenc14 | .qdec14 | .qenc10 | .qdec10 | .qenc6 | .qdec6 => 0
  | .qencs8 | .qdecs8 | .qencs9 | .qdecs9 => 0
  | .whiten | .dewhiten | .fecenc | .fecchk => 0
  | .manenc _ | .mandec _ => 0

/-- SLOT of a command: 0 where the command does not use it. -/
def Instr.slotField : Instr → Nat
  | .fhsel _ slot => slot
  | .qenc14 | .qdec14 | .qenc10 | .qdec10 | .qenc6 | .qdec6 => 0
  | .qencs8 | .qdecs8 | .qencs9 | .qdecs9 => 0
  | .whiten | .dewhiten | .fecenc | .fecchk => 0
  | .manenc _ | .mandec _ => 0

/-- The encoder (30_encoding.md R51): `OPCODE | len<<8 | region<<16 | slot<<18`. -/
def encode (i : Instr) : Word :=
  BitVec.ofNat 32 i.opcode.value ||| (BitVec.ofNat 32 i.lenField <<< 8)
    ||| (BitVec.ofNat 32 i.regionField <<< 16) ||| (BitVec.ofNat 32 i.slotField <<< 18)

/-- The command the decoder reads from `w`, numbered as spec/opcode_table.json numbers its bits. A command is one
32-bit word (30_encoding.md R42), so a longer one is none. -/
def decodeTableWord (nbits w : Nat) : Option Instr :=
  if nbits ≤ 32 ∧ w < 2 ^ nbits then
    match decode (BitVec.ofNat 32 w) with
    | .ok i => some i
    | .error _ => none
  else none

end Sys2Proof
end

