-- ==== Sys2Proof/Machine/State.lean ====
section
/-!
DEFINITION. Machine/State.lean: the state record of 10_state.md R13, as plain data, with what the host is still
going to do and what the bus has answered; its reset value (70_reset_and_hazards.md R105); and the reasons a step
could stop.
-/

namespace Sys2Proof.Machine

/-- The bytes of IBUF or OBUF as (index, byte) pairs. An index that is not listed reads 0x00, which is what reset
leaves in every byte (70_reset_and_hazards.md R105), so reset lists nothing. -/
abbrev Memory := List Host.Cell

/-- The indices of `m` rise strictly from `lo`, stay below 64, and no listed byte is 0x00. -/
def Memory.wfFrom (lo : Nat) : Memory → Bool
  | [] => true
  | (a, v) :: rest => decide (lo ≤ a) && decide (a < 64) && decide (v ≠ 0#8) && Memory.wfFrom (a + 1) rest

/-- The canonical form of a buffer of 64 bytes: equal buffers are equal lists. -/
def Memory.wf (m : Memory) : Bool := Memory.wfFrom 0 m

/-- The error codes of 60_exceptions.md R95. The values 5..15 are never produced, so there is nothing here for them. -/
inductive ECode where
  /-- E_NONE: the command completed successfully. -/
  | none
  /-- E_ILLEGAL_CMD: the CMD word is not legal. -/
  | illegalCmd
  /-- E_BAD_LENGTH: MANENC or MANDEC with a LEN it rejects. -/
  | badLength
  /-- E_LINE_VIOLATION: MANDEC found a "00" or "11" pair. -/
  | lineViolation
  /-- E_FEC_MISMATCH: FECCHK's recomputed parity differs. -/
  | fecMismatch
  deriving DecidableEq, Repr

/-- The fields of STATUS (10_state.md R15). Bits 3 and 31:9 are read as 0 and ignore writes, so they are no state. -/
structure Status where
  /-- Bit 0, BUSY: a command is in flight (10_state.md R22). -/
  busy : Bool
  /-- Bit 1, DONE. -/
  done : Bool
  /-- Bit 2, ERR. -/
  err : Bool
  /-- Bits 7:4, ECODE. -/
  ecode : ECode
  /-- Bit 8, OVR: sticky (60_exceptions.md R101). -/
  ovr : Bool
  deriving DecidableEq, Repr

/-- The state. The first eight fields are the record of 10_state.md R13; the last four are the model's own. -/
structure State where
  /-- CMD, 10_state.md R14: the last accepted command word. -/
  cmd : Word
  /-- STATUS, 10_state.md R15. -/
  status : Status
  /-- ARG, 10_state.md R16. -/
  arg : Word
  /-- RES, 10_state.md R17. -/
  res : Word
  /-- FREQ, 10_state.md R18. -/
  freq : Word
  /-- OLEN, 10_state.md R19. -/
  olen : Word
  /-- IBUF[0..63], 10_state.md R20. -/
  ibuf : Memory
  /-- OBUF[0..63], 10_state.md R21. -/
  obuf : Memory
  /-- What the world outside the block is still going to do, first thing first (log 1). -/
  inputs : List Input
  /-- What the bus has answered, newest first (log 2). -/
  responses : List Response
  /-- How many host accesses still come before the completion of the command in flight (log 3). -/
  wait : Nat
  /-- How many free values have been drawn (log 4). -/
  draws : Nat
  deriving DecidableEq, Repr

/-- The ways a step stops with a fault. There is none: 60_exceptions.md R98 gives the block no trap, a failing
command completes with an error code, and a bus error is a response to the host that changes no state
(60_exceptions.md R100). Nobody raises one (log 5). -/
inductive Fault where
  deriving DecidableEq, Repr

/-- The ways a step is refused. -/
inductive Refusal where
  /-- Raised by `exec`'s arm of an instruction that has no meaning yet; safe. No arm raises it now. -/
  | notModelled (mnemonic : String)
  deriving DecidableEq, Repr

/-- The state after reset (70_reset_and_hazards.md R105): every item of 10_state.md R13 is 0. The model's own four
fields start empty and 0 (log 1 to log 4). -/
def State.reset : State where
  cmd := 0#32
  status := { busy := false, done := false, err := false, ecode := .none, ovr := false }
  arg := 0#32
  res := 0#32
  freq := 0#32
  olen := 0#32
  ibuf := []
  obuf := []
  inputs := []
  responses := []
  wait := 0
  draws := 0

end Sys2Proof.Machine
end

