-- ==== Sys2Proof/Machine/Flags.lean ====
section
/-!
DEFINITION. Machine/Flags.lean: the STATUS register: its word (10_state.md R15), the error codes' numbers
(60_exceptions.md R95), and each of the ways it changes (30_encoding.md R47, R48, 20_memory.md R33).
-/

namespace Sys2Proof.Machine

/-- The number of an error code (60_exceptions.md R95). -/
def ECode.code : ECode → Nat
  | .none => 0
  | .illegalCmd => 1
  | .badLength => 2
  | .lineViolation => 3
  | .fecMismatch => 4

/-- The word a read of STATUS returns (10_state.md R15): BUSY 0, DONE 1, ERR 2, ECODE 7:4, OVR 8, the rest 0. -/
def Status.word (st : Status) : Word :=
  BitVec.ofNat 32 (st.busy.toNat + 2 * st.done.toNat + 4 * st.err.toNat + 16 * st.ecode.code + 256 * st.ovr.toNat)

/-- What acceptance does to STATUS (30_encoding.md R48); OVR stays (60_exceptions.md R101). -/
def Status.accepted (st : Status) : Status := { busy := true, done := false, err := false, ecode := .none, ovr := st.ovr }

/-- What a successful completion does to STATUS (30_encoding.md R47, `finish`). -/
def Status.finished (st : Status) : Status := { busy := false, done := true, err := false, ecode := .none, ovr := st.ovr }

/-- What a failing completion does to STATUS (30_encoding.md R47, `fail`). -/
def Status.failed (st : Status) (e : ECode) : Status := { busy := false, done := true, err := true, ecode := e, ovr := st.ovr }

/-- A host write was dropped because BUSY = 1: OVR is set (60_exceptions.md R101). -/
def Status.overrun (st : Status) : Status := { st with ovr := true }

/-- What a host write of `v` to STATUS does (10_state.md R15): bit 8 = 1 clears OVR, all else is ignored. -/
def Status.hostWrite (st : Status) (v : Word) : Status := if v.getLsbD 8 then { st with ovr := false } else st

end Sys2Proof.Machine
end

