-- ==== Sys2Proof/Machine/Memory.lean ====
section
/-!
DEFINITION. Machine/Memory.lean: reading and writing one byte of a buffer, and a whole buffer made from a list of
bytes, in the canonical form of `Memory.wf`.
-/

namespace Sys2Proof.Machine

/-- `IBUF[i]` or `OBUF[i]`; a byte that is not listed is 0x00. -/
def Memory.read : Memory → Nat → Byte
  | [], _ => 0#8
  | (a, v) :: rest, i => if a = i then v else Memory.read rest i

/-- The pair of an index and a byte, put before `rest`, unless the byte is what an unlisted index reads as. -/
def Memory.put (i : Nat) (b : Byte) (rest : Memory) : Memory := if b = 0#8 then rest else (i, b) :: rest

/-- Byte `i` becomes `b`. -/
def Memory.write : Memory → Nat → Byte → Memory
  | [], i, b => Memory.put i b []
  | (a, v) :: rest, i, b =>
    if i < a then Memory.put i b ((a, v) :: rest)
    else if i = a then Memory.put i b rest
    else (a, v) :: Memory.write rest i b

/-- Bytes `i`, `i + 1`, … become those of the list, in turn. -/
def Memory.writeList (m : Memory) (i : Nat) : List Byte → Memory
  | [] => m
  | b :: rest => Memory.writeList (m.write i b) (i + 1) rest

/-- A buffer that holds `bs` from index `i` on, and 0x00 elsewhere. -/
def Memory.ofBytesFrom (i : Nat) : List Byte → Memory
  | [] => []
  | b :: rest => Memory.put i b (Memory.ofBytesFrom (i + 1) rest)

/-- All 64 bytes written at once: the list from index 0, then 0x00 (30_encoding.md R47). -/
def Memory.ofBytes (bs : List Byte) : Memory := Memory.ofBytesFrom 0 (bs.take 64)

/-- Bytes `i` to `i + n - 1`. -/
def Memory.slice (m : Memory) (i n : Nat) : List Byte := (List.range n).map (fun k => m.read (i + k))

end Sys2Proof.Machine
end

