-- ==== Sys2Proof/Machine/Ops.lean ====
section
/-!
DEFINITION. Machine/Ops.lean: the operations the commands share: word views of bytes (00_scope.md R10), the two
ends of a command, `finish` and `fail` (30_encoding.md R47), and the acceptance of a command (R48). `fail` is this
hardware's whole exception entry and the block has no return from one (60_exceptions.md R98, R99).
-/

namespace Sys2Proof.Machine

/-- `le32(B, i)` of 00_scope.md R10: `B[i] | B[i+1]<<8 | B[i+2]<<16 | B[i+3]<<24`. -/
def le32 (b : Nat → Byte) (i : Nat) : Word :=
  (b i).setWidth 32 ||| ((b (i + 1)).setWidth 32 <<< 8) ||| ((b (i + 2)).setWidth 32 <<< 16)
    ||| ((b (i + 3)).setWidth 32 <<< 24)

/-- `put_le32(w)` of 00_scope.md R10. -/
def putLe32 (w : Word) : List Byte :=
  [w.extractLsb' 0 8, w.extractLsb' 8 8, w.extractLsb' 16 8, w.extractLsb' 24 8]

/-- `finish(res, freq, bytes)` of 30_encoding.md R47: the successful end of a command. -/
def finish (res freq : Word) (bytes : List Byte) (s : State) : State :=
  { s with
    res := res
    freq := freq
    olen := BitVec.ofNat 32 bytes.length
    obuf := Memory.ofBytes bytes
    status := s.status.finished }

/-- `fail(e)` of 30_encoding.md R47, 60_exceptions.md R98: the failing end of a command. -/
def fail (e : ECode) (s : State) : State :=
  { s with
    res := 0#32
    freq := 0#32
    olen := 0#32
    obuf := Memory.ofBytes []
    status := s.status.failed e }

/-- The host's write of `v` to CMD is accepted (30_encoding.md R48, 10_state.md R14). LATENCY - 1 is drawn here: so
many host accesses come before this command's completion (70_reset_and_hazards.md R112, log 3). -/
def accept (v : Word) (s : State) : State :=
  { s with
    cmd := v
    status := s.status.accepted
    wait := Config.latencyPred s.draws
    draws := s.draws + 1 }

end Sys2Proof.Machine
end

