-- ==== Sys2Proof/Machine/Operands.lean ====
section
/-!
DEFINITION. Machine/Operands.lean: every operand of 30_encoding.md R43 that comes from ARG or IBUF. OPCODE, LEN,
REGION and SLOT are read by the decoder.
-/

namespace Sys2Proof.Machine

/-- `v = ARG` as u32: the unsigned encoders, and FHSEL's timestamp. -/
def argU32 (s : State) : Nat := s.arg.toNat

/-- `v = ARG` as i32: the signed encoders. -/
def argI32 (s : State) : Int := s.arg.toInt

/-- `c = ARG[N-1:0]`: the decoders; the bits above are ignored. -/
def argCode (n : Nat) (s : State) : Nat := s.arg.toNat % 2 ^ n

/-- `IBUF[i]`. -/
def ibufByte (s : State) (i : Nat) : Byte := s.ibuf.read i

/-- `w[j] = le32(IBUF, 4j)` (20_memory.md R35). -/
def ibufWord (s : State) (j : Nat) : Word := le32 (ibufByte s) (4 * j)

/-- `IBUF[i..i+n-1]`. -/
def ibufBytes (s : State) (i n : Nat) : List Byte := s.ibuf.slice i n

end Sys2Proof.Machine
end

