-- ==== Sys2Proof/Machine/Fec.lean ====
section
/-!
DEFINITION. Machine/Fec.lean: the FEC's bit indexing (42_fec.md R76), its parity function under the constraints
that the spec puts on it (R77, R78), the linear default form (R77), and its two commands (R79, R80).
-/

namespace Sys2Proof.Machine

/-- The number whose bits are those of the bytes, byte 0 lowest (42_fec.md R76: bit `j mod 8` of byte `j div 8`). -/
def bytesToNat : List Byte → Nat
  | [] => 0
  | b :: rest => b.toNat + 256 * bytesToNat rest

/-- The 160 data bits `D[0..159]` of a 20-byte block. -/
def dataBits (bytes : List Byte) : BitVec 160 := BitVec.ofNat 160 (bytesToNat bytes)

/-- The six bytes of the 48 parity bits `P[0..47]`. -/
def parityBytes (p : BitVec 48) : List Byte := (List.range 6).map (fun k => p.extractLsb' (8 * k) 8)

/-- The golden block of 42_fec.md R78, as its bytes in IBUF. -/
def goldenBlock : List Byte :=
  [0xDD#8, 0xCC#8, 0xBB#8, 0xAA#8, 0x22#8, 0x11#8, 0xFF#8, 0xEE#8, 0x66#8, 0x55#8,
   0x44#8, 0x33#8, 0xAA#8, 0x99#8, 0x88#8, 0x77#8, 0x5D#8, 0x3C#8, 0x2B#8, 0x1A#8]

/-- The golden block's parity bytes (42_fec.md R78). -/
def goldenParity : List Byte := [0xF8#8, 0x07#8, 0x8C#8, 0x66#8, 0xA2#8, 0x15#8]

/-- The golden parity as 48 bits. -/
def goldenParityBits : BitVec 48 := BitVec.ofNat 48 (bytesToNat goldenParity)

/-- `D` with bit `j` flipped. -/
def flipBit (d : BitVec 160) (j : Nat) : BitVec 160 := d ^^^ BitVec.ofNat 160 (2 ^ j)

/-- Constraints 1 and 2 of 42_fec.md R78: the golden vector, and that flipping any one bit of the golden block
changes the parity. Constraint 3 (determinism) holds of every function. -/
def fecAdmissible (p : BitVec 160 → BitVec 48) : Bool :=
  decide (p (dataBits goldenBlock) = goldenParityBits) &&
    (List.range 160).all (fun j => decide (p (flipBit (dataBits goldenBlock) j) ≠ goldenParityBits))

/-- A function that meets 42_fec.md R78, to show that there is one. No value of it is ever the block's unless
`Config.fecParityRaw` breaks R78 (93_implementation_defined.md I1 refuses such a parameter). -/
def fecWitness (d : BitVec 160) : BitVec 48 := if d = dataBits goldenBlock then goldenParityBits else 0#48

/-- `FEC_PARITY` of 42_fec.md R77, a total function of which only R78 is known (log 6): the free value of Config
where that meets R78. What can be proved of `fecParity` holds of every function that meets R78. -/
def fecParity (d : BitVec 160) : BitVec 48 :=
  if fecAdmissible Config.fecParityRaw then Config.fecParityRaw d else fecWitness d

/-- The XOR over the columns of `FEC_G` that the data bits select, column `j` for bit `j` from `j` on. -/
def linearParityFrom (d : BitVec 160) (j : Nat) : List (BitVec 48) → BitVec 48
  | [] => 0#48
  | col :: rest => (if d.getLsbD j then col else 0#48) ^^^ linearParityFrom d (j + 1) rest

/-- The GF(2)-linear default form of 42_fec.md R77, for `FEC_G` given by its columns: column `j` holds `FEC_G[i][j]`
in bit `i`. The commands do not rest on it (log 6). -/
def linearParity (columns : List (BitVec 48)) (d : BitVec 160) : BitVec 48 := linearParityFrom d 0 columns

/-- The parity bytes that the block computes over IBUF[0..19]. -/
def computedParity (s : State) : List Byte := parityBytes (fecParity (dataBits (ibufBytes s 0 20)))

/-- FECENC, 42_fec.md R79. -/
def execFecenc (s : State) : Host.Outcome State Fault Refusal :=
  .next (finish 0#32 0#32 (computedParity s) s)

/-- FECCHK, 42_fec.md R80. -/
def execFecchk (s : State) : Host.Outcome State Fault Refusal :=
  .next (if computedParity s = ibufBytes s 20 6 then finish 1#32 0#32 [] s else fail .fecMismatch s)

end Sys2Proof.Machine
end

