-- ==== Sys2Proof/Machine/FreqHop.lean ====
section
/-!
DEFINITION. Machine/FreqHop.lean: the region plan (44_freqhop.md R89), the hop hash (R90), the channel selection
(R91), the carrier frequency (R92) and the command FHSEL (R93), for any PLAN, HOP_HASH and HOP_SLOT1_PLUS1
(00_scope.md R7) and then with their defaults.
-/

namespace Sys2Proof.Machine

/-- `PLAN`, the default table of 44_freqhop.md R89 (log 11). -/
def plan : Region → Plan
  | .europe => ⟨868200000, 200000, 2⟩
  | .northAmerica => ⟨902200000, 400000, 65⟩
  | .australia => ⟨917000000, 400000, 24⟩
  | .asia => ⟨0, 0, 0⟩

/-- `HOP_HASH`, the default of 44_freqhop.md R90. PRESUMED (log 9): the spec gives it from general knowledge. -/
def hopHash (x : Word) : Word :=
  let x := (x <<< 15) + ~~~x
  let x := x ^^^ (x >>> 12)
  let x := x + (x <<< 2)
  let x := x ^^^ (x >>> 4)
  let x := x * 2057#32
  x ^^^ (x >>> 16)

/-- `HOP_SLOT1_PLUS1`, default `true` (44_freqhop.md R91, log 10). -/
def hopSlot1Plus1 : Bool := true

/-- `wrap(c)` of 44_freqhop.md R91: results at or above the count wrap by subtracting 2. -/
def hopWrap (n c : Nat) : Nat := if c ≥ n then c - 2 else c

/-- The slot-0 channel of 44_freqhop.md R91 for N ≥ 3. -/
def chanSlot0 (hash : Word → Word) (n : Nat) (t : Word) : Nat :=
  hopWrap n ((hash (t <<< 1)).toNat % n + 1)

/-- The slot-1 candidate of 44_freqhop.md R91 for N ≥ 3, before the collision check. -/
def chanSlot1Start (hash : Word → Word) (plus1 : Bool) (n : Nat) (t : Word) : Nat :=
  let h := (hash ((t <<< 1) + 1#32)).toNat % n
  if plus1 then hopWrap n (h + 1) else h

/-- `CHAN(N, slot, t)` of 44_freqhop.md R91. -/
def chan (hash : Word → Word) (plus1 : Bool) (n slot : Nat) (t : Word) : Nat :=
  if n = 1 then 0
  else if n = 2 then slot ^^^ 1
  else if slot = 0 then chanSlot0 hash n t
  else
    let c := chanSlot1Start hash plus1 n t
    if c = chanSlot0 hash n t then hopWrap n (c + 1) else c

/-- The carrier frequency of a channel in Hz (44_freqhop.md R92). -/
def carrier (p : Plan) (ch : Nat) : Nat := p.base + p.spacing * ch

/-- FHSEL under a PLAN, a HOP_HASH and a HOP_SLOT1_PLUS1. -/
def fhselWith (planOf : Region → Plan) (hash : Word → Word) (plus1 : Bool) (region : Region) (slot : Nat)
    (s : State) : Host.Outcome State Fault Refusal :=
  .next (
    let p := planOf region
    if p.count = 0 then finish 0#32 0#32 [] s
    else
      let ch := chan hash plus1 p.count slot s.arg
      finish (BitVec.ofNat 32 ch) (BitVec.ofNat 32 (carrier p ch)) [] s)

/-- FHSEL, 44_freqhop.md R93, under the defaults. -/
def execFhsel (region : Region) (slot : Nat) (s : State) : Host.Outcome State Fault Refusal :=
  fhselWith plan hopHash hopSlot1Plus1 region slot s

end Sys2Proof.Machine
end

