-- ==== Sys2Proof/Machine/Manchester.lean ====
section
/-!
DEFINITION. Machine/Manchester.lean: the line coder (43_manchester.md R82 to R85) and its two commands (R86, R87).
-/

namespace Sys2Proof.Machine

/-- MAN_ENC_MAX, the largest MANENC input (00_scope.md R6). -/
def manEncMax : Nat := 32

/-- MAN_DEC_MAX, the largest MANDEC input (00_scope.md R6). -/
def manDecMax : Nat := 64

/-- `MAN_T` of 43_manchester.md R83. -/
def manTable : List Byte :=
  [0xAA#8, 0xA9#8, 0xA6#8, 0xA5#8, 0x9A#8, 0x99#8, 0x96#8, 0x95#8,
   0x6A#8, 0x69#8, 0x66#8, 0x65#8, 0x5A#8, 0x59#8, 0x56#8, 0x55#8]

/-- `MAN_T[n]`, for a nibble `n`. -/
def manT (n : Nat) : Byte := manTable.getD n 0#8

/-- `MAN_ENC_BYTE(b)` of 43_manchester.md R84: the high nibble first. -/
def manEncByte (b : Byte) : List Byte := [manT (b.toNat / 16), manT (b.toNat % 16)]

/-- The bytes' codes, one after another. -/
def manEncode : List Byte → List Byte
  | [] => []
  | b :: rest => manEncByte b ++ manEncode rest

/-- The symbol pair `c[2p+1 : 2p]`. -/
def symbolPair (c : Byte) (p : Nat) : Nat := (c.toNat >>> (2 * p)) % 4

/-- The data bit of a symbol pair (43_manchester.md R82): "01" is 1, "10" is 0, the others are violations. -/
def pairBit (q : Nat) : Option Nat :=
  match q with
  | 1 => some 1
  | 2 => some 0
  | _ => none

/-- `MAN_DEC_NIB(c)` of 43_manchester.md R85; `none` is INVALID. -/
def manDecNib (c : Byte) : Option Nat :=
  match pairBit (symbolPair c 3), pairBit (symbolPair c 2), pairBit (symbolPair c 1), pairBit (symbolPair c 0) with
  | some b3, some b2, some b1, some b0 => some (8 * b3 + 4 * b2 + 2 * b1 + b0)
  | _, _, _, _ => none

/-- The data bytes of coded bytes two by two, `none` at the first violation (43_manchester.md R87). A last coded
byte without its partner is none: MANDEC has rejected an odd LEN before it decodes. -/
def manDecode : List Byte → Option (List Byte)
  | [] => some []
  | [_] => none
  | ch :: cl :: rest =>
    match manDecNib ch, manDecNib cl with
    | some h, some l =>
      match manDecode rest with
      | some out => some (BitVec.ofNat 8 (16 * h + l) :: out)
      | none => none
    | _, _ => none

/-- MANENC, 43_manchester.md R86. -/
def execManenc (len : Nat) (s : State) : Host.Outcome State Fault Refusal :=
  .next (if len > manEncMax then fail .badLength s
    else finish 0#32 0#32 (manEncode (ibufBytes s 0 len)) s)

/-- MANDEC, 43_manchester.md R87: the odd length is tested first, then the size, then the data (60_exceptions.md R97). -/
def execMandec (len : Nat) (s : State) : Host.Outcome State Fault Refusal :=
  .next (if len % 2 = 1 then fail .badLength s
    else if len > manDecMax then fail .badLength s
    else
      match manDecode (ibufBytes s 0 len) with
      | some out => finish 0#32 0#32 out s
      | none => fail .lineViolation s)

end Sys2Proof.Machine
end

