-- ==== Sys2Proof/Machine/Quantizer.lean ====
section
/-!
DEFINITION. Machine/Quantizer.lean: the band tables and shared functions of the quantiser (40_quantizer.md R53 to
R57) and its ten commands (R58 to R67). No command can fail on a legal word.
-/

namespace Sys2Proof.Machine

/-- One band of a variant: `T_k`, `L_k` and `O_k` of 40_quantizer.md R53. -/
structure Band where
  /-- T_k, the exclusive upper bound. -/
  top : Nat
  /-- L_k, the inclusive lower bound. -/
  low : Nat
  /-- O_k, the decode offset. -/
  base : Nat
  deriving DecidableEq, Repr

/-- A variant of 40_quantizer.md R53: M, m and its four bands. -/
structure Variant where
  /-- M, the magnitude width. -/
  magBits : Nat
  /-- m, the mantissa width. -/
  mantBits : Nat
  band0 : Band
  band1 : Band
  band2 : Band
  band3 : Band
  deriving DecidableEq, Repr

/-- Variant U14. -/
def u14 : Variant where
  magBits := 14
  mantBits := 12
  band0 := ⟨0x1000, 0, 0⟩
  band1 := ⟨0x3000, 0x1000, 0x1001⟩
  band2 := ⟨0x7000, 0x3000, 0x3002⟩
  band3 := ⟨0xF000, 0x7000, 0x7004⟩

/-- Variant U10. -/
def u10 : Variant where
  magBits := 10
  mantBits := 8
  band0 := ⟨0x100, 0, 0⟩
  band1 := ⟨0x300, 0x100, 0x101⟩
  band2 := ⟨0x700, 0x300, 0x302⟩
  band3 := ⟨0xF00, 0x700, 0x704⟩

/-- Variant U6. -/
def u6 : Variant where
  magBits := 6
  mantBits := 4
  band0 := ⟨0x10, 0, 0⟩
  band1 := ⟨0x30, 0x10, 0x11⟩
  band2 := ⟨0x70, 0x30, 0x32⟩
  band3 := ⟨0xF0, 0x70, 0x74⟩

/-- Variant S8: seven magnitude bits under the sign in bit 7. -/
def s8 : Variant where
  magBits := 7
  mantBits := 5
  band0 := ⟨0x20, 0, 0⟩
  band1 := ⟨0x60, 0x20, 0x21⟩
  band2 := ⟨0xE0, 0x60, 0x62⟩
  band3 := ⟨0x1E0, 0xE0, 0xE4⟩

/-- Variant S9: eight magnitude bits under the sign in bit 8. -/
def s9 : Variant where
  magBits := 8
  mantBits := 6
  band0 := ⟨0x40, 0, 0⟩
  band1 := ⟨0xC0, 0x40, 0x41⟩
  band2 := ⟨0x1C0, 0xC0, 0xC2⟩
  band3 := ⟨0x3C0, 0x1C0, 0x1C4⟩

/-- The code of `v` in band `k`: `(k << m) | ((v - L_k) >> k)`. -/
def bandCode (V : Variant) (k : Nat) (b : Band) (v : Nat) : Nat := (k <<< V.mantBits) ||| ((v - b.low) >>> k)

/-- `UQ_ENC(V, v)` of 40_quantizer.md R54. -/
def uqEnc (V : Variant) (v : Nat) : Nat :=
  if v < V.band0.top then bandCode V 0 V.band0 v
  else if v < V.band1.top then bandCode V 1 V.band1 v
  else if v < V.band2.top then bandCode V 2 V.band2 v
  else if v < V.band3.top then bandCode V 3 V.band3 v
  else 2 ^ V.magBits - 1

/-- The band of index `k`, for `k` = 0..3. -/
def Variant.band (V : Variant) (k : Nat) : Band :=
  match k with
  | 0 => V.band0
  | 1 => V.band1
  | 2 => V.band2
  | _ => V.band3

/-- `UQ_DEC(V, c)` of 40_quantizer.md R55, for an M-bit code `c`. -/
def uqDec (V : Variant) (c : Nat) : Nat :=
  let k := (c >>> V.mantBits) % 4
  let r := c % 2 ^ V.mantBits
  (V.band k).base + (r <<< k)

/-- `SQ_ENC(V, v)` of 40_quantizer.md R56. -/
def sqEnc (V : Variant) (v : Int) : Nat :=
  ((if v < 0 then 1 else 0) <<< V.magBits) ||| uqEnc V v.natAbs

/-- `SQ_DEC(V, c)` of 40_quantizer.md R57, for an N-bit code `c`, N = M + 1. -/
def sqDec (V : Variant) (c : Nat) : Int :=
  let a : Int := uqDec V (c % 2 ^ V.magBits)
  if (c >>> V.magBits) % 2 = 1 then -a else a

/-- An unsigned encoder: RES is the code, zero-extended. -/
def quantEncode (V : Variant) (s : State) : State := finish (BitVec.ofNat 32 (uqEnc V (argU32 s))) 0#32 [] s

/-- An unsigned decoder: RES is the decoded value. -/
def quantDecode (V : Variant) (s : State) : State :=
  finish (BitVec.ofNat 32 (uqDec V (argCode V.magBits s))) 0#32 [] s

/-- A signed encoder: RES is the N-bit code, zero-extended. -/
def quantEncodeSigned (V : Variant) (s : State) : State :=
  finish (BitVec.ofNat 32 (sqEnc V (argI32 s))) 0#32 [] s

/-- A signed decoder: RES is the decoded value as an i32. -/
def quantDecodeSigned (V : Variant) (s : State) : State :=
  finish (BitVec.ofInt 32 (sqDec V (argCode (V.magBits + 1) s))) 0#32 [] s

/-- QENC14, 40_quantizer.md R58. -/
def execQenc14 (s : State) : Host.Outcome State Fault Refusal := .next (quantEncode u14 s)

/-- QDEC14, 40_quantizer.md R59. -/
def execQdec14 (s : State) : Host.Outcome State Fault Refusal := .next (quantDecode u14 s)

/-- QENC10, 40_quantizer.md R60. -/
def execQenc10 (s : State) : Host.Outcome State Fault Refusal := .next (quantEncode u10 s)

/-- QDEC10, 40_quantizer.md R61. -/
def execQdec10 (s : State) : Host.Outcome State Fault Refusal := .next (quantDecode u10 s)

/-- QENC6, 40_quantizer.md R62. -/
def execQenc6 (s : State) : Host.Outcome State Fault Refusal := .next (quantEncode u6 s)

/-- QDEC6, 40_quantizer.md R63. -/
def execQdec6 (s : State) : Host.Outcome State Fault Refusal := .next (quantDecode u6 s)

/-- QENCS8, 40_quantizer.md R64. -/
def execQencs8 (s : State) : Host.Outcome State Fault Refusal := .next (quantEncodeSigned s8 s)

/-- QDECS8, 40_quantizer.md R65. -/
def execQdecs8 (s : State) : Host.Outcome State Fault Refusal := .next (quantDecodeSigned s8 s)

/-- QENCS9, 40_quantizer.md R66. -/
def execQencs9 (s : State) : Host.Outcome State Fault Refusal := .next (quantEncodeSigned s9 s)

/-- QDECS9, 40_quantizer.md R67. -/
def execQdecs9 (s : State) : Host.Outcome State Fault Refusal := .next (quantDecodeSigned s9 s)

end Sys2Proof.Machine
end

