-- ==== Sys2Proof/Machine/Whitener.lean ====
section
/-!
DEFINITION. Machine/Whitener.lean: the whitener (41_whitener.md R69 to R72) and its two commands (R73, R74), for any
WHITEN_ROUND (00_scope.md R7) and then with its default.
-/

namespace Sys2Proof.Machine

/-- The TEA round constant (41_whitener.md R69). -/
def whitenDelta : Word := 0x9E3779B9#32

/-- `delta*8` reduced to 32 bits (41_whitener.md R69). -/
def whitenSumEnd : Word := 0xF1BBCDC8#32

/-- The number of rounds (41_whitener.md R69). -/
def whitenRounds : Nat := 8

/-- `f(x, s)` of 41_whitener.md R70, the default mixing function: TEA's with a zero key.
PRESUMED (log 8): the spec gives this default from general knowledge. -/
def teaMix (x s : Word) : Word := (x <<< 4) ^^^ (x + s) ^^^ (x >>> 5)

/-- `round_fwd` of 41_whitener.md R70 with sum `s`. -/
def roundFwd (f : Word → Word → Word) (s : Word) (v : Word × Word) : Word × Word :=
  let v0 := v.1 + f v.2 s
  let v1 := v.2 + f v0 s
  (v0, v1)

/-- The body of 41_whitener.md R72: it undoes `roundFwd` with the same sum. -/
def roundInv (f : Word → Word → Word) (s : Word) (v : Word × Word) : Word × Word :=
  let v1 := v.2 - f v.1 s
  let v0 := v.1 - f v1 s
  (v0, v1)

/-- `n` forward rounds; the sum grows before each (41_whitener.md R71). -/
def roundsFwd {α : Type} (round : Word → α → α) : Nat → Word → α → α
  | 0, _, v => v
  | n + 1, sum, v => roundsFwd round n (sum + whitenDelta) (round (sum + whitenDelta) v)

/-- `n` inverse rounds; the sum shrinks after each (41_whitener.md R72). -/
def roundsInv {α : Type} (round : Word → α → α) : Nat → Word → α → α
  | 0, _, v => v
  | n + 1, sum, v => roundsInv round n (sum - whitenDelta) (round sum v)

/-- `TEA_FWD` of 41_whitener.md R71, eight forward rounds of one word pair. -/
def teaFwd (f : Word → Word → Word) (v0 v1 : Word) : Word × Word :=
  roundsFwd (roundFwd f) whitenRounds 0#32 (v0, v1)

/-- `TEA_INV` of 41_whitener.md R72, eight inverse rounds of one word pair. -/
def teaInv (f : Word → Word → Word) (v0 v1 : Word) : Word × Word :=
  roundsInv (roundInv f) whitenRounds whitenSumEnd (v0, v1)

/-- Word `j` of a payload. -/
def blockWord (w : Block) : Fin 4 → Word
  | 0 => w.w0
  | 1 => w.w1
  | 2 => w.w2
  | 3 => w.w3

/-- A payload with word `j` replaced. -/
def setBlockWord (w : Block) (j : Fin 4) (v : Word) : Block :=
  match j with
  | 0 => { w with w0 := v }
  | 1 => { w with w1 := v }
  | 2 => { w with w2 := v }
  | 3 => { w with w3 := v }

/-- A round of one word pair applied to both pairs of a pairing, each result in its pair's place. -/
def onPairs (p : Pairing) (round : Word × Word → Word × Word) (w : Block) : Block :=
  let a := round (blockWord w p.a0, blockWord w p.a1)
  let b := round (blockWord w p.b0, blockWord w p.b1)
  setBlockWord (setBlockWord (setBlockWord (setBlockWord w p.a0 a.1) p.a1 a.2) p.b0 b.1) p.b1 b.2

/-- The WHITEN_ROUND made of a word pairing and of a round of one word pair with its inverse. -/
def pairedRound (p : Pairing) (fwd inv : Word → Word × Word → Word × Word) : WhitenRound where
  fwd s := onPairs p (fwd s)
  inv s := onPairs p (inv s)

/-- The default pairing of 41_whitener.md R70: (w0, w1) and (w2, w3). PRESUMED (log 8). -/
def halves : Pairing := ⟨0, 1, 2, 3⟩

/-- WHITEN_ROUND, the default of 41_whitener.md R70. PRESUMED (log 8). -/
def whitenRoundDefault : WhitenRound := pairedRound halves (roundFwd teaMix) (roundInv teaMix)

/-- The eight forward rounds over a payload; under the default, TEA_FWD of each half (41_whitener.md R73). -/
def whitenBlock (r : WhitenRound) (w : Block) : Block := roundsFwd r.fwd whitenRounds 0#32 w

/-- The eight inverse rounds over a payload; under the default, TEA_INV of each half (41_whitener.md R74). -/
def dewhitenBlock (r : WhitenRound) (w : Block) : Block := roundsInv r.inv whitenRounds whitenSumEnd w

/-- The payload in IBUF[0..15], `w[j] = le32(IBUF, 4j)`. -/
def ibufBlock (s : State) : Block := ⟨ibufWord s 0, ibufWord s 1, ibufWord s 2, ibufWord s 3⟩

/-- The sixteen bytes of a payload. -/
def blockBytes (w : Block) : List Byte := putLe32 w.w0 ++ putLe32 w.w1 ++ putLe32 w.w2 ++ putLe32 w.w3

/-- WHITEN under a WHITEN_ROUND. -/
def whitenWith (r : WhitenRound) (s : State) : Host.Outcome State Fault Refusal :=
  .next (finish 0#32 0#32 (blockBytes (whitenBlock r (ibufBlock s))) s)

/-- DEWHITEN under a WHITEN_ROUND. -/
def dewhitenWith (r : WhitenRound) (s : State) : Host.Outcome State Fault Refusal :=
  .next (finish 0#32 0#32 (blockBytes (dewhitenBlock r (ibufBlock s))) s)

/-- WHITEN, 41_whitener.md R73, under the default WHITEN_ROUND. -/
def execWhiten (s : State) : Host.Outcome State Fault Refusal := whitenWith whitenRoundDefault s

/-- DEWHITEN, 41_whitener.md R74, under the default WHITEN_ROUND. -/
def execDewhiten (s : State) : Host.Outcome State Fault Refusal := dewhitenWith whitenRoundDefault s

end Sys2Proof.Machine
end

