-- ==== Sys2Proof/Machine/Dispatch.lean ====
section
/-!
DEFINITION. Machine/Dispatch.lean: the meaning of each command, one arm per constructor (30_encoding.md R49).
-/

namespace Sys2Proof.Machine

/-- The completion of command `i` (30_encoding.md R49, the `case` of `complete()`). -/
def exec (i : Instr) (s : State) : Host.Outcome State Fault Refusal :=
  match i with
  | .qenc14 => Sys2Proof.Machine.execQenc14 s
  | .qdec14 => Sys2Proof.Machine.execQdec14 s
  | .qenc10 => Sys2Proof.Machine.execQenc10 s
  | .qdec10 => Sys2Proof.Machine.execQdec10 s
  | .qenc6 => Sys2Proof.Machine.execQenc6 s
  | .qdec6 => Sys2Proof.Machine.execQdec6 s
  | .qencs8 => Sys2Proof.Machine.execQencs8 s
  | .qdecs8 => Sys2Proof.Machine.execQdecs8 s
  | .qencs9 => Sys2Proof.Machine.execQencs9 s
  | .qdecs9 => Sys2Proof.Machine.execQdecs9 s
  | .whiten => Sys2Proof.Machine.execWhiten s
  | .dewhiten => Sys2Proof.Machine.execDewhiten s
  | .fecenc => Sys2Proof.Machine.execFecenc s
  | .fecchk => Sys2Proof.Machine.execFecchk s
  | .manenc len => Sys2Proof.Machine.execManenc len s
  | .mandec len => Sys2Proof.Machine.execMandec len s
  | .fhsel region slot => Sys2Proof.Machine.execFhsel region slot s

end Sys2Proof.Machine
end

