-- ==== Sys2Proof/Machine/Window.lean ====
section
/-!
DEFINITION. Machine/Window.lean: the register window: the register map (20_memory.md R27), `MemRead` and `MemWrite`
(R32, R33), bus errors (R28, R29), and reset (70_reset_and_hazards.md R105, R106).
-/

namespace Sys2Proof.Machine

/-- What a byte offset of the window is (20_memory.md R27). -/
inductive Place where
  | cmd | status | arg | res | freq | olen
  /-- The word at byte `i` of IBUF. -/
  | ibuf (i : Nat)
  /-- The word at byte `i` of OBUF. -/
  | obuf (i : Nat)
  | reserved
  deriving DecidableEq, Repr

/-- The register map of 20_memory.md R27, for an offset that is a multiple of 4. -/
def placeOf (off : Nat) : Place :=
  if off = 0x00 then .cmd
  else if off = 0x04 then .status
  else if off = 0x08 then .arg
  else if off = 0x0C then .res
  else if off = 0x10 then .freq
  else if off = 0x14 then .olen
  else if 0x40 ≤ off ∧ off ≤ 0x7C then .ibuf (off - 0x40)
  else if 0x80 ≤ off ∧ off ≤ 0xBC then .obuf (off - 0x80)
  else .reserved

/-- An access that gets a bus error (20_memory.md R28): not 32 bits wide, or not at a multiple of 4. -/
def badAccess (off : BitVec 8) (width : Nat) : Bool := decide (off.toNat % 4 ≠ 0) || decide (width ≠ 32)

/-- The word at an aligned offset (20_memory.md R32). -/
def wordAt (s : State) (off : BitVec 8) : Word :=
  match placeOf off.toNat with
  | .cmd => s.cmd
  | .status => s.status.word
  | .arg => s.arg
  | .res => s.res
  | .freq => s.freq
  | .olen => s.olen
  | .ibuf i => le32 s.ibuf.read i
  | .obuf i => le32 s.obuf.read i
  | .reserved => 0#32

/-- A host write to a register that the busy window protects: dropped, and OVR set (70_reset_and_hazards.md R108). -/
def dropWrite (s : State) : State := { s with status := s.status.overrun }

/-- The effect of an aligned 32-bit write (20_memory.md R33). -/
def writeWord (s : State) (off : BitVec 8) (v : Word) : State :=
  match placeOf off.toNat with
  | .cmd => if s.status.busy then dropWrite s else accept v s
  | .status => { s with status := s.status.hostWrite v }
  | .arg => if s.status.busy then dropWrite s else { s with arg := v }
  | .ibuf i => if s.status.busy then dropWrite s else { s with ibuf := s.ibuf.writeList i (putLe32 v) }
  | .res | .freq | .olen | .obuf _ | .reserved => s

/-- One bus access: its response and the state after it (20_memory.md R29, R32, R33). -/
def busAccess (a : Access) (s : State) : Response × State :=
  match a with
  | .read off width => if badAccess off width then (.busError, s) else (.readData (wordAt s off), s)
  | .write off width v => if badAccess off width then (.busError, s) else (.writeOk, writeWord s off v)

/-- The byte at window offset `off`, 0 to 255: the model's read of one byte of the address space (20_memory.md R34). -/
def windowByte (s : State) (off : Nat) : Byte :=
  (wordAt s (BitVec.ofNat 8 (off - off % 4))).extractLsb' (8 * (off % 4)) 8

/-- Reset is asserted (70_reset_and_hazards.md R105, R106): every item of 10_state.md R13 takes its reset value and a
command in flight is abandoned. What the host still does, what it has seen, and the count of free values are not
the block's and stay. -/
def hardReset (s : State) : State :=
  { State.reset with inputs := s.inputs, responses := s.responses, draws := s.draws }

end Sys2Proof.Machine
end

