-- ==== Sys2Proof/Machine/HostPort.lean ====
section
/-!
DEFINITION. Machine/HostPort.lean: how the inputs of State act on the block, one at a time and in order
(20_memory.md R38), and when the completion step is due instead (70_reset_and_hazards.md R112).
-/

namespace Sys2Proof.Machine

/-- The host performs one access: the state after it, the response recorded, and one host access fewer to come
before the completion of the command in flight (70_reset_and_hazards.md R112). -/
def hostAccess (a : Access) (s : State) : State :=
  let r := busAccess a { s with wait := s.wait - 1 }
  { r.2 with responses := r.1 :: s.responses }

/-- Reset, with the host access that may overlap it: that has no effect, and what it returns is a free value
(70_reset_and_hazards.md R106, 93_implementation_defined.md I13, log 7). -/
def resetInput (overlapping : Option Access) (s : State) : State :=
  match overlapping with
  | none => hardReset s
  | some _ =>
    { hardReset s with responses := Config.resetResponse s.draws :: s.responses, draws := s.draws + 1 }

/-- The rest of a `COPY` word once its `RD` has been answered: the `WR` of the value read (30_encoding.md R52). A bus
error leaves nothing to write (log 12). -/
def copyRest (dst : BitVec 8) : Response → List Input
  | .readData v => [.access (.write dst 32 v)]
  | .writeOk | .busError => []

/-- The first input acts. With no input the block is idle and nothing changes (60_exceptions.md R104). -/
def takeInput (s : State) : State :=
  match s.inputs with
  | [] => s
  | .access a :: rest => hostAccess a { s with inputs := rest }
  | .waitIdle :: rest =>
    hostAccess (.read 0x04#8 32) { s with inputs := if s.status.busy then .waitIdle :: rest else rest }
  | .copyWord src dst :: rest =>
    hostAccess (.read src 32) { s with inputs := copyRest dst (busAccess (.read src 32) s).1 ++ rest }
  | .reset overlapping :: rest => resetInput overlapping { s with inputs := rest }

/-- The completion step is due (70_reset_and_hazards.md R112): a command is in flight, and the next input is the
LATENCY-th host access after the accepting write, or the host does nothing more (log 3). A reset comes first: it
abandons the command (R106). -/
def completionDue (s : State) : Bool :=
  s.status.busy &&
    match s.inputs with
    | [] => true
    | .reset _ :: _ => false
    | .access _ :: _ | .waitIdle :: _ | .copyWord _ _ :: _ => s.wait == 0

/-- `inputs` without the resets that would come before anything else. -/
def dropResets : List Input → List Input
  | .reset _ :: rest => dropResets rest
  | inputs => inputs

end Sys2Proof.Machine
end

