-- ==== Sys2Proof/Machine/Unit.lean ====
section
/-!
DEFINITION. Machine/Unit.lean: the command unit's one step, `complete()` (30_encoding.md R49), and a command put in
flight from outside.
-/

namespace Sys2Proof.Machine

/-- `complete()` of 30_encoding.md R49 over the commands' meanings: a word that is not legal fails with E_ILLEGAL_CMD
(R46). -/
def completeBy (meaning : Instr → State → Host.Outcome State Fault Refusal) (s : State) :
    Host.Outcome State Fault Refusal :=
  match decode s.cmd with
  | .ok i => meaning i s
  | .error _ => .next (fail .illegalCmd s)

/-- One step over the commands' meanings: the completion when it is due, else the first input. -/
def stepBy (meaning : Instr → State → Host.Outcome State Fault Refusal) (s : State) :
    Host.Outcome State Fault Refusal :=
  if completionDue s then completeBy meaning s else .next (takeInput s)

/-- `complete()` of 30_encoding.md R49. -/
def complete (s : State) : Host.Outcome State Fault Refusal := completeBy exec s

/-- The machine's step. -/
def stepUnit (s : State) : Host.Outcome State Fault Refusal := stepBy exec s

/-- `s` with the command word `w` accepted and its completion due (log 13). -/
def withCommand (w : Word) (s : State) : State :=
  { s with cmd := w, status := s.status.accepted, wait := 0, inputs := dropResets s.inputs }

end Sys2Proof.Machine
end

