-- ==== Sys2Proof/Machine/Step.lean ====
section
/-!
DEFINITION. Machine/Step.lean: one step of the machine (20_memory.md R38: an interleaving of host accesses and
completion steps), and a command word put where the next step takes its command from.
-/

namespace Sys2Proof.Machine

/-- One step: a completion or one input from outside (20_memory.md R38). -/
def step (s : State) : Host.Outcome State Fault Refusal := stepUnit s

/-- `s` with the command word `w` in CMD, accepted (30_encoding.md R48) and due, so that the next step runs it. The
word has 32 bits (R42); `nbits` is how many of them count. -/
def State.withFetchWord (s : State) (nbits w : Nat) : State := withCommand (BitVec.ofNat 32 (w % 2 ^ nbits)) s

end Sys2Proof.Machine
end

