-- ==== Sys2Proof/Machine/HostScript.lean ====
section
/-!
DEFINITION. Machine/HostScript.lean: the assembler of command words (30_encoding.md R51), the host statements and
pseudo-instructions (R51, R52) as the inputs they expand to, READ's result out of the bus's answers (R52), and the
source's chaining order (70_reset_and_hazards.md R111).
-/

namespace Sys2Proof.Machine

/-- One `key=value` operand of a command word in the assembler (30_encoding.md R51). -/
inductive AsmOperand where
  | len (n : Nat)
  | region (code : Nat)
  /-- `EU`, `NA`, `AU`, `AS`. -/
  | regionName (r : Region)
  | slot (n : Nat)
  deriving DecidableEq, Repr

/-- The operands read so far. -/
structure AsmFields where
  len : Option Nat
  region : Option Nat
  slot : Option Nat
  deriving DecidableEq, Repr

/-- One more operand: `len` is allowed only on MANENC and MANDEC, `region` and `slot` only on FHSEL, each in its
range (30_encoding.md R51); a key given twice is rejected (log 14). -/
def asmOperand (o : Opcode) (f : AsmFields) : AsmOperand → Option AsmFields
  | .len n =>
    if (o = .MANENC ∨ o = .MANDEC) ∧ n ≤ 255 ∧ f.len = none then some { f with len := some n } else none
  | .region code =>
    if o = .FHSEL ∧ code ≤ 3 ∧ f.region = none then some { f with region := some code } else none
  | .regionName r =>
    if o = .FHSEL ∧ f.region = none then some { f with region := some r.code } else none
  | .slot n =>
    if o = .FHSEL ∧ n ≤ 1 ∧ f.slot = none then some { f with slot := some n } else none

/-- All the operands in turn. -/
def asmOperands (o : Opcode) (f : AsmFields) : List AsmOperand → Option AsmFields
  | [] => some f
  | a :: rest =>
    match asmOperand o f a with
    | some f' => asmOperands o f' rest
    | none => none

/-- The command that a line of the assembler names; an omitted operand is 0 (30_encoding.md R51). -/
def assemble (o : Opcode) (operands : List AsmOperand) : Option Instr :=
  match asmOperands o ⟨none, none, none⟩ operands with
  | some f => some (o.instr (f.len.getD 0) (f.region.getD 0) (f.slot.getD 0))
  | none => none

/-- The register names of host programs (30_encoding.md R51); `k` is a buffer byte, a multiple of 4. -/
inductive HostReg where
  | cmd | status | arg | res | freq | olen
  | ibuf (k : Nat)
  | obuf (k : Nat)
  deriving DecidableEq, Repr

/-- `off(reg)` of 30_encoding.md R51, by the register map of 20_memory.md R27.
DESIGN CHOICE (log 20): the spec gives `IBUF+k` and `OBUF+k` no meaning for k above 63, where a LOAD, READ or COPY runs
past the buffer's end; here the offset is 0x40 + k or 0x80 + k modulo 256, so it lies in another part of the window. -/
def HostReg.off : HostReg → BitVec 8
  | .cmd => 0x00#8
  | .status => 0x04#8
  | .arg => 0x08#8
  | .res => 0x0C#8
  | .freq => 0x10#8
  | .olen => 0x14#8
  | .ibuf k => BitVec.ofNat 8 (0x40 + k)
  | .obuf k => BitVec.ofNat 8 (0x80 + k)

/-- The host statements and pseudo-instructions of 30_encoding.md R51, R52. -/
inductive HostStmt where
  /-- `WR <reg>, <value>`. -/
  | wr (r : HostReg) (v : Word)
  /-- `RD <reg>`. -/
  | rd (r : HostReg)
  | wait
  /-- `RUN <cmd>`. -/
  | run (i : Instr)
  /-- `LOAD IBUF+k, b0 b1 ... bn-1`. -/
  | load (k : Nat) (bytes : List Byte)
  /-- `READ OBUF+k, n`. -/
  | read (k n : Nat)
  /-- `COPY OBUF+k -> IBUF+m, n`. -/
  | copy (k m n : Nat)
  | clrOvr
  deriving DecidableEq, Repr

/-- `WR` as an input. -/
def wrInput (r : HostReg) (v : Word) : Input := .access (.write r.off 32 v)

/-- `RD` as an input. -/
def rdInput (r : HostReg) : Input := .access (.read r.off 32)

/-- `ceil(n/4)`: the words that hold `n` bytes. -/
def wordsFor (n : Nat) : Nat := (n + 3) / 4

/-- The expansion of 30_encoding.md R52. -/
def HostStmt.expand : HostStmt → List Input
  | .wr r v => [wrInput r v]
  | .rd r => [rdInput r]
  | .wait => [.waitIdle]
  | .run i => [wrInput .cmd (encode i), .waitIdle]
  | .load k bytes =>
    (List.range (wordsFor bytes.length)).map
      (fun j => wrInput (.ibuf (k + 4 * j)) (le32 (fun i => bytes.getD i 0#8) (4 * j)))
  | .read k n => (List.range (wordsFor n)).map (fun j => rdInput (.obuf (k + 4 * j)))
  | .copy k m n =>
    (List.range (wordsFor n)).map
      (fun j => .copyWord (HostReg.obuf (k + 4 * j)).off (HostReg.ibuf (m + 4 * j)).off)
  | .clrOvr => [wrInput .status 0x00000100#32]

/-- A host program as inputs. -/
def hostProgram (stmts : List HostStmt) : List Input := stmts.flatMap HostStmt.expand

/-- The bytes of the words that a row of reads returned, each word's in little-endian order (30_encoding.md R52,
20_memory.md R34). DESIGN CHOICE (log 21): there are none when an answer is no word, as a bus error is not. -/
def answerBytes : List Response → Option (List Byte)
  | [] => some []
  | .readData v :: rest =>
    match answerBytes rest with
    | some bytes => some (putLe32 v ++ bytes)
    | none => none
  | .writeOk :: _ | .busError :: _ => none

/-- READ's result (30_encoding.md R52): the first `n` bytes of the answers to its `ceil(n/4)` reads, oldest first.
There is no result before the last of them has come. -/
def readResult (n : Nat) (answers : List Response) : Option (List Byte) :=
  if answers.length = wordsFor n then
    match answerBytes answers with
    | some bytes => some (bytes.take n)
    | none => none
  else none

/-- The result of a `READ` of `n` bytes whose last access the host has just performed: its answers are the newest. -/
def readResultAt (n : Nat) (s : State) : Option (List Byte) :=
  readResult n (s.responses.take (wordsFor n)).reverse

/-- How many of the answers, oldest first, a `WAIT` takes: up to the first STATUS with bit 0 = 0 (30_encoding.md
R52). -/
def pollAnswers : List Response → Nat
  | [] => 0
  | .readData v :: rest => if v.getLsbD 0 then pollAnswers rest + 1 else 1
  | .writeOk :: _ | .busError :: _ => 1

/-- How many of the answers, oldest first, a `COPY` of `words` words takes: a read's and a write's for each, but a
bus error leaves nothing to write (30_encoding.md R52, log 12). -/
def copyAnswers : Nat → List Response → Nat
  | 0, _ => 0
  | words + 1, .readData _ :: rest => copyAnswers words (rest.drop 1) + 2
  | words + 1, .writeOk :: rest | words + 1, .busError :: rest => copyAnswers words rest + 1
  | _ + 1, [] => 0

/-- How many of the answers, oldest first, are this statement's (30_encoding.md R52). -/
def HostStmt.answers (answers : List Response) : HostStmt → Nat
  | .wr _ _ | .rd _ | .clrOvr => 1
  | .wait => pollAnswers answers
  | .run _ => pollAnswers (answers.drop 1) + 1
  | .load _ bytes => wordsFor bytes.length
  | .read _ n => wordsFor n
  | .copy _ _ n => copyAnswers (wordsFor n) answers

/-- The result of a statement out of its own answers: only `READ` has one (30_encoding.md R52). The value of an `RD`
is its answer itself. -/
def HostStmt.result (answers : List Response) : HostStmt → List (Option (List Byte))
  | .read _ n => [readResult n answers]
  | .wr _ _ | .rd _ | .wait | .run _ | .load _ _ | .copy _ _ _ | .clrOvr => []

/-- The results of a host program's `READ`s, in turn, out of the bus's answers to the program, oldest first
(30_encoding.md R52). -/
def programResults : List HostStmt → List Response → List (Option (List Byte))
  | [], _ => []
  | stmt :: rest, answers =>
    stmt.result (answers.take (stmt.answers answers)) ++ programResults rest (answers.drop (stmt.answers answers))

/-- A state whose host is about to run a program. -/
def withProgram (stmts : List HostStmt) (s : State) : State := { s with inputs := hostProgram stmts }

/-- The commands that build a frame, in the order of 70_reset_and_hazards.md R111; the block does not enforce it. -/
def transmitOrder : List Instr := [.whiten, .fecenc, .manenc 26]

/-- The commands that check a frame, in the order of 70_reset_and_hazards.md R111. -/
def receiveOrder : List Instr := [.mandec 52, .fecchk, .dewhiten]

end Sys2Proof.Machine
end

