-- ==== Sys2Proof/Machine/Params.lean ====
section
/-!
DEFINITION. Machine/Params.lean: the commands and the step for every choice of the parameters of 00_scope.md R7, and
the default choice, which is that of `exec` and `step`.
-/

namespace Sys2Proof.Machine

/-- The spec's defaults: 41_whitener.md R70 (log 8), 44_freqhop.md R90 (log 9), R91 (log 10), R89 (log 11). -/
def defaultParams : Params where
  whitenRound := whitenRoundDefault
  hopHash := hopHash
  hopSlot1Plus1 := hopSlot1Plus1
  plan := plan

/-- The completion of command `i` (30_encoding.md R49) in a block with parameters `p`. -/
def execWith (p : Params) (i : Instr) (s : State) : Host.Outcome State Fault Refusal :=
  match i with
  | .whiten => whitenWith p.whitenRound s
  | .dewhiten => dewhitenWith p.whitenRound s
  | .fhsel region slot => fhselWith p.plan p.hopHash p.hopSlot1Plus1 region slot s
  | .qenc14 => execQenc14 s
  | .qdec14 => execQdec14 s
  | .qenc10 => execQenc10 s
  | .qdec10 => execQdec10 s
  | .qenc6 => execQenc6 s
  | .qdec6 => execQdec6 s
  | .qencs8 => execQencs8 s
  | .qdecs8 => execQdecs8 s
  | .qencs9 => execQencs9 s
  | .qdecs9 => execQdecs9 s
  | .fecenc => execFecenc s
  | .fecchk => execFecchk s
  | .manenc len => execManenc len s
  | .mandec len => execMandec len s

/-- One step of a block with parameters `p`. -/
def stepWith (p : Params) (s : State) : Host.Outcome State Fault Refusal := stepBy (execWith p) s

/-- A block with parameters `p` as a machine. -/
def coreWith (p : Params) : Host.Core where
  State := State
  Fault := Fault
  Refusal := Refusal
  step := stepWith p
  reset := State.reset

end Sys2Proof.Machine
end

