-- ==== Sys2Proof/Safety.lean ====
section
/-!
DEFINITION. Safety.lean: the terms in which claims speak: how a command ends, what it leaves alone, which states are
legal, and what it is for a run to go on.
-/

namespace Sys2Proof.Machine

/-- What no completion touches (30_encoding.md R47): CMD, ARG, IBUF, STATUS.OVR, and all that is outside the block. -/
structure Kept (s t : State) : Prop where
  cmd : t.cmd = s.cmd
  arg : t.arg = s.arg
  ibuf : t.ibuf = s.ibuf
  ovr : t.status.ovr = s.status.ovr
  inputs : t.inputs = s.inputs
  responses : t.responses = s.responses
  wait : t.wait = s.wait
  draws : t.draws = s.draws

/-- `t` is `s` after `finish(res, freq, out)` of 30_encoding.md R47. -/
structure Finished (s t : State) (res freq : Word) (out : List Byte) : Prop where
  res : t.res = res
  freq : t.freq = freq
  olen : t.olen.toNat = out.length
  obuf : ∀ i, i < 64 → t.obuf.read i = out.getD i 0#8
  busy : t.status.busy = false
  done : t.status.done = true
  err : t.status.err = false
  ecode : t.status.ecode = .none
  kept : Kept s t

/-- `t` is `s` after `fail(e)` of 30_encoding.md R47. -/
structure Failed (s t : State) (e : ECode) : Prop where
  res : t.res = 0#32
  freq : t.freq = 0#32
  olen : t.olen = 0#32
  obuf : ∀ i, i < 64 → t.obuf.read i = 0#8
  busy : t.status.busy = false
  done : t.status.done = true
  err : t.status.err = true
  ecode : t.status.ecode = e
  kept : Kept s t

/-- The items of 10_state.md R13 hold their reset values (70_reset_and_hazards.md R105). -/
structure AtReset (s : State) : Prop where
  cmd : s.cmd = 0#32
  busy : s.status.busy = false
  done : s.status.done = false
  err : s.status.err = false
  ecode : s.status.ecode = .none
  ovr : s.status.ovr = false
  arg : s.arg = 0#32
  res : s.res = 0#32
  freq : s.freq = 0#32
  olen : s.olen = 0#32
  ibuf : ∀ i, i < 64 → s.ibuf.read i = 0#8
  obuf : ∀ i, i < 64 → s.obuf.read i = 0#8

/-- The legal states: STATUS as 10_state.md R15 says, OLEN and OBUF as 10_state.md R19, R21 say, what a failure
leaves (60_exceptions.md R98), what is there before the first command (70_reset_and_hazards.md R109), and both
buffers in canonical form. -/
structure Inv (s : State) : Prop where
  busyOrDone : ¬ (s.status.busy = true ∧ s.status.done = true)
  errIffEcode : s.status.err = true ↔ s.status.ecode ≠ .none
  errDone : s.status.err = true → s.status.done = true
  olenMax : s.olen.toNat ≤ 64
  obufTail : ∀ i, s.olen.toNat ≤ i → s.obuf.read i = 0#8
  errZero : s.status.err = true → s.res = 0#32 ∧ s.freq = 0#32 ∧ s.olen = 0#32
  noCommandYet : s.status.busy = false → s.status.done = false →
    s.cmd = 0#32 ∧ s.res = 0#32 ∧ s.freq = 0#32 ∧ s.olen = 0#32
  ibufWf : s.ibuf.wf = true
  obufWf : s.obuf.wf = true

/-- The parameters that 93_implementation_defined.md I2, I5 do not refuse: the inverse round undoes the forward round
and the other way round, at every sum, and every frequency of the plan fits in a u32; and so does every channel
(`zext_32(ch)` of 44_freqhop.md R93). -/
structure Admissible (p : Params) : Prop where
  invFwd : ∀ s w, p.whitenRound.inv s (p.whitenRound.fwd s w) = w
  fwdInv : ∀ s w, p.whitenRound.fwd s (p.whitenRound.inv s w) = w
  frequencyFits : ∀ r ch, ch < (p.plan r).count → carrier (p.plan r) ch < 2 ^ 32
  channelFits : ∀ r, (p.plan r).count ≤ 2 ^ 32

/-- A run from `s` never stops. -/
def NeverStops (s : State) : Prop := ∀ n, ∃ t, Sys2Proof.core.run n s = .next t

/-- An input that is no reset. -/
def Input.notReset : Input → Bool
  | .reset _ => false
  | .access _ | .waitIdle | .copyWord _ _ => true

end Sys2Proof.Machine
end

