-- ==== Sys2Proof/Certificates/Slice0/Obligations.lean ====
section
/-!
DEFINITION. Certificates/Slice0/Obligations.lean: the statements for the provers, from the numbered rules of spec/.
The namespace Claim holds the closed forms and conditions that several statements use, written from the spec's rules
and not from the model's functions.
-/

namespace Sys2Proof.Claim

open Sys2Proof.Machine

/-- 40_quantizer.md R53, R54 with the mantissa's `u` = 2^m codes per band: the thresholds are u, 3u, 7u, 15u. -/
def bandedEncode (u v : Nat) : Nat :=
  if v < u then v
  else if v < 3 * u then u + (v - u) / 2
  else if v < 7 * u then 2 * u + (v - 3 * u) / 4
  else if v < 15 * u then 3 * u + (v - 7 * u) / 8
  else 4 * u - 1

/-- 40_quantizer.md R53, R55 with `u` = 2^m: the offsets are 0, u + 1, 3u + 2, 7u + 4. -/
def bandedDecode (u c : Nat) : Nat :=
  if c < u then c
  else if c < 2 * u then u + 1 + 2 * (c - u)
  else if c < 3 * u then 3 * u + 2 + 4 * (c - 2 * u)
  else 7 * u + 4 + 8 * (c - 3 * u)

/-- 40_quantizer.md R56: the sign bit above a magnitude code of 4u values. -/
def signedEncode (u : Nat) (v : Int) : Nat := (if v < 0 then 4 * u else 0) + bandedEncode u v.natAbs

/-- 40_quantizer.md R57: the sign bit above a magnitude code of 4u values. -/
def signedDecode (u c : Nat) : Int :=
  if c < 4 * u then (bandedDecode u c : Int) else -(bandedDecode u (c - 4 * u) : Int)

/-- The encoder, the decoder and 2^m of the unsigned variants. -/
def unsignedPairs : List (Instr × Instr × Nat) :=
  [(.qenc14, .qdec14, 0x1000), (.qenc10, .qdec10, 0x100), (.qenc6, .qdec6, 0x10)]

/-- The encoder, the decoder and 2^m of the signed variants. -/
def signedPairs : List (Instr × Instr × Nat) := [(.qencs8, .qdecs8, 0x20), (.qencs9, .qdecs9, 0x40)]

/-- The value `w` that comes back for `v` is within the error bound of `v`'s band (40_quantizer.md R68 law 4), with
`u` = 2^m. -/
def WithinBandError (u v w : Nat) : Prop :=
  (v < u → w = v) ∧ (u ≤ v → v < 3 * u → v ≤ w ∧ w ≤ v + 1) ∧
    (3 * u ≤ v → v < 7 * u → v ≤ w + 1 ∧ w ≤ v + 2) ∧ (7 * u ≤ v → v < 15 * u → v ≤ w + 3 ∧ w ≤ v + 4)

/-- `f(x, s)` of 41_whitener.md R70. -/
def mix (x s : Word) : Word := ((x <<< 4) ^^^ (x + s)) ^^^ (x >>> 5)

/-- The sum of forward round `i` + 1: `delta * (i + 1)` (41_whitener.md R71). -/
def roundSum (i : Nat) : Word := 0x9E3779B9#32 * BitVec.ofNat 32 (i + 1)

/-- `(r0, r1)` is `TEA_FWD(v0, v1)` of 41_whitener.md R71, with each round's words written out. -/
def Whitened (v0 v1 r0 r1 : Word) : Prop :=
  ∃ x y : Nat → Word, x 0 = v0 ∧ y 0 = v1 ∧
    (∀ i, i < 8 → x (i + 1) = x i + mix (y i) (roundSum i) ∧ y (i + 1) = y i + mix (x (i + 1)) (roundSum i)) ∧
    x 8 = r0 ∧ y 8 = r1

/-- `(r0, r1)` is `TEA_INV(v0, v1)` of 41_whitener.md R72: the sums run from `delta * 8` down. -/
def Dewhitened (v0 v1 r0 r1 : Word) : Prop :=
  ∃ x y : Nat → Word, x 0 = v0 ∧ y 0 = v1 ∧
    (∀ i, i < 8 → y (i + 1) = y i - mix (x i) (roundSum (7 - i)) ∧
      x (i + 1) = x i - mix (y (i + 1)) (roundSum (7 - i))) ∧
    x 8 = r0 ∧ y 8 = r1

/-- Word `j` of the bytes, little-endian (00_scope.md R10), as a number. -/
def wordNat (b : Nat → Byte) (j : Nat) : Nat :=
  (b (4 * j)).toNat + 256 * (b (4 * j + 1)).toNat + 65536 * (b (4 * j + 2)).toNat + 16777216 * (b (4 * j + 3)).toNat

/-- Word `j` of IBUF (20_memory.md R35). -/
def inWord (s : State) (j : Nat) : Word := BitVec.ofNat 32 (wordNat s.ibuf.read j)

/-- Word `j` of OBUF. -/
def outWord (s : State) (j : Nat) : Word := BitVec.ofNat 32 (wordNat s.obuf.read j)

/-- `d` holds the data bits of IBUF[0..19] (42_fec.md R76). -/
def IsDataBlock (s : State) (d : BitVec 160) : Prop :=
  ∀ j, j < 160 → d.getLsbD j = (s.ibuf.read (j / 8)).getLsbD (j % 8)

/-- The six bytes hold the parity bits (42_fec.md R76). -/
def IsParity (p : BitVec 48) (b : Nat → Byte) : Prop := ∀ i, i < 48 → (b (i / 8)).getLsbD (i % 8) = p.getLsbD i

/-- IBUF[0..19] is the golden block of 42_fec.md R78: the words 0xaabbccdd, 0xeeff1122, 0x33445566, 0x778899aa,
0x1a2b3c5d. -/
def HoldsGoldenBlock (s : State) : Prop :=
  inWord s 0 = 0xAABBCCDD#32 ∧ inWord s 1 = 0xEEFF1122#32 ∧ inWord s 2 = 0x33445566#32 ∧
    inWord s 3 = 0x778899AA#32 ∧ inWord s 4 = 0x1A2B3C5D#32

/-- The golden parity `f8 07 8c 66 a2 15` of 42_fec.md R78. -/
def goldenByte (k : Nat) : Byte := [0xF8#8, 0x07#8, 0x8C#8, 0x66#8, 0xA2#8, 0x15#8].getD k 0#8

/-- `c` is the coded byte of the low four bits of `n` (43_manchester.md R82): "01" for 1 and "10" for 0. -/
def IsCoded (n : Nat) (c : Byte) : Prop :=
  ∀ p, p < 4 → c.getLsbD (2 * p) = n.testBit p ∧ c.getLsbD (2 * p + 1) = !n.testBit p

/-- `c` holds no "00" and no "11" pair (43_manchester.md R82). -/
def Coded (c : Byte) : Prop := ∀ p, p < 4 → c.getLsbD (2 * p + 1) = !c.getLsbD (2 * p)

/-- HOP_HASH of 44_freqhop.md R90 by its multiplications: x * 2^15 + not x is 32767x - 1, and x + 4x is 5x. -/
def hashed (x : Word) : Word :=
  let a := x * 32767#32 - 1#32
  let b := (a ^^^ (a >>> 12)) * 5#32
  let c := (b ^^^ (b >>> 4)) * 2057#32
  c ^^^ (c >>> 16)

/-- `wrap(h + 1)` of 44_freqhop.md R91, for a hash value h below n. -/
def nextChannel (n h : Nat) : Nat := if h + 1 = n then n - 2 else h + 1

/-- CHAN of 44_freqhop.md R91 for n ≥ 3, with the hash of (2t + slot) mod 2^32. -/
def channel (n slot t : Nat) : Nat :=
  let c0 := nextChannel n ((hashed (BitVec.ofNat 32 (2 * t))).toNat % n)
  let c1 := nextChannel n ((hashed (BitVec.ofNat 32 (2 * t + 1))).toNat % n)
  if slot = 0 then c0 else if c1 = c0 then nextChannel n c1 else c1

/-- The two states agree on what command `i` reads (30_encoding.md R43). -/
def SameOperands (i : Instr) (s t : State) : Prop :=
  match i with
  | .qenc14 | .qenc10 | .qenc6 | .qencs8 | .qencs9 => s.arg = t.arg
  | .qdec14 => s.arg.toNat % 2 ^ 14 = t.arg.toNat % 2 ^ 14
  | .qdec10 => s.arg.toNat % 2 ^ 10 = t.arg.toNat % 2 ^ 10
  | .qdec6 => s.arg.toNat % 2 ^ 6 = t.arg.toNat % 2 ^ 6
  | .qdecs8 => s.arg.toNat % 2 ^ 8 = t.arg.toNat % 2 ^ 8
  | .qdecs9 => s.arg.toNat % 2 ^ 9 = t.arg.toNat % 2 ^ 9
  | .whiten | .dewhiten => ∀ k, k < 16 → s.ibuf.read k = t.ibuf.read k
  | .fecenc => ∀ k, k < 20 → s.ibuf.read k = t.ibuf.read k
  | .fecchk => ∀ k, k < 26 → s.ibuf.read k = t.ibuf.read k
  | .manenc len => ∀ k, k < len → s.ibuf.read k = t.ibuf.read k
  | .mandec len => ∀ k, k < len → s.ibuf.read k = t.ibuf.read k
  | .fhsel _ _ => s.arg = t.arg

/-- The two states agree on what a completion writes, OVR apart (30_encoding.md R47). -/
structure SameResult (s t : State) : Prop where
  res : s.res = t.res
  freq : s.freq = t.freq
  olen : s.olen = t.olen
  obuf : s.obuf = t.obuf
  busy : s.status.busy = t.status.busy
  done : s.status.done = t.status.done
  err : s.status.err = t.status.err
  ecode : s.status.ecode = t.status.ecode

/-- The error codes that command `i` may end with (60_exceptions.md R96), E_ILLEGAL_CMD apart. -/
def mayEndWith (i : Instr) (e : ECode) : Prop :=
  match i with
  | .qenc14 | .qdec14 | .qenc10 | .qdec10 | .qenc6 | .qdec6 => e = .none
  | .qencs8 | .qdecs8 | .qencs9 | .qdecs9 => e = .none
  | .whiten | .dewhiten | .fecenc => e = .none
  | .fecchk => e = .none ∨ e = .fecMismatch
  | .manenc _ => e = .none ∨ e = .badLength
  | .mandec _ => e = .none ∨ e = .badLength ∨ e = .lineViolation
  | .fhsel _ _ => e = .none

/-- 30_encoding.md R51: the operand is allowed on this mnemonic, and in its range. -/
def okFor (o : Opcode) : AsmOperand → Prop
  | .len n => (o = .MANENC ∨ o = .MANDEC) ∧ n ≤ 255
  | .region code => o = .FHSEL ∧ code ≤ 3
  | .regionName _ => o = .FHSEL
  | .slot n => o = .FHSEL ∧ n ≤ 1

/-- The keys of 30_encoding.md R51. -/
inductive Key where
  | len
  | region
  | slot
  deriving DecidableEq, Repr

/-- An operand's key. -/
def key : AsmOperand → Key
  | .len _ => .len
  | .region _ | .regionName _ => .region
  | .slot _ => .slot

/-- An operand's value: `EU`, `NA`, `AU`, `AS` are the codes 0 to 3 (44_freqhop.md R89). -/
def value : AsmOperand → Nat
  | .len n | .region n | .slot n => n
  | .regionName .europe => 0
  | .regionName .northAmerica => 1
  | .regionName .australia => 2
  | .regionName .asia => 3

/-- The value that a line gives a key; an omitted operand is 0. -/
def given (k : Key) (operands : List AsmOperand) : Nat :=
  ((operands.find? (fun a => decide (key a = k))).map value).getD 0

/-- The lines that the assembler takes: every operand is allowed, and no key is given twice (log 14). -/
def Taken (o : Opcode) (operands : List AsmOperand) : Prop :=
  (∀ a, a ∈ operands → okFor o a) ∧ (operands.map key).Nodup

/-- A pairing that holds each of the four words once. -/
def FourWords (p : Pairing) : Prop := [p.a0, p.a1, p.b0, p.b1].Nodup

/-- The completion step is the machine's next step (70_reset_and_hazards.md R112): a command is in flight, and either
the host does nothing more, or its next input is no reset and no host access is left to come before. -/
def Due (s : State) : Prop :=
  s.status.busy = true ∧ (s.inputs = [] ∨ ∃ i rest, s.inputs = i :: rest ∧ i.notReset = true ∧ s.wait = 0)

/-- A command is in flight, but its completion is not the next step; or none is in flight. -/
def NotDue (s : State) : Prop := s.status.busy = false ∨ s.wait ≠ 0

end Sys2Proof.Claim

open Sys2Proof Sys2Proof.Machine Sys2Proof.Claim

/-! ### Reset and the bus -/

/-- 70_reset_and_hazards.md R105: the state after reset, and what reset leaves whatever the state before; every byte
of the window then reads 0. -/
def Obligations.ResetStateIsAllZero : Prop :=
  AtReset State.reset ∧ (∀ off, off < 256 → windowByte State.reset off = 0#8) ∧
    ∀ s : State, AtReset (hardReset s) ∧ ∀ off, off < 256 → windowByte (hardReset s) off = 0#8

/-- 70_reset_and_hazards.md R106: reset at any time, also while BUSY = 1, gives the reset state; a host access that
overlaps it has no effect. What the host does after it, and what it has seen before, stay. -/
def Obligations.ResetAbandonsPendingCommand : Prop :=
  ∀ (s : State) (overlapping : Option Access) (rest : List Input), s.inputs = .reset overlapping :: rest →
    ∃ t, step s = .next t ∧ AtReset t ∧ t.inputs = rest ∧ s.responses <:+ t.responses ∧
      (overlapping = none → t.responses = s.responses)

/-- 20_memory.md R32: the word that a host read returns, at every offset, and that a read changes nothing. -/
def Obligations.ReadsFollowTheRegisterMap : Prop :=
  ∀ s : State,
    busAccess (.read 0x00#8 32) s = (.readData s.cmd, s) ∧
    busAccess (.read 0x04#8 32) s = (.readData s.status.word, s) ∧
    busAccess (.read 0x08#8 32) s = (.readData s.arg, s) ∧
    busAccess (.read 0x0C#8 32) s = (.readData s.res, s) ∧
    busAccess (.read 0x10#8 32) s = (.readData s.freq, s) ∧
    busAccess (.read 0x14#8 32) s = (.readData s.olen, s) ∧
    (∀ k, k < 16 → busAccess (.read (BitVec.ofNat 8 (0x40 + 4 * k)) 32) s = (.readData (inWord s k), s)) ∧
    (∀ k, k < 16 → busAccess (.read (BitVec.ofNat 8 (0x80 + 4 * k)) 32) s = (.readData (outWord s k), s)) ∧
    (∀ off : BitVec 8, off.toNat % 4 = 0 → (0x18 ≤ off.toNat ∧ off.toNat < 0x40 ∨ 0xC0 ≤ off.toNat) →
      busAccess (.read off 32) s = (.readData 0#32, s)) ∧
    (∀ (off : BitVec 8) (width : Nat), off.toNat % 4 ≠ 0 ∨ width ≠ 32 →
      busAccess (.read off width) s = (.busError, s))

/-- 20_memory.md R28, R29: an access that is not 32 bits wide or not aligned gets a bus error and changes no state;
every other access gets none. -/
def Obligations.BadAccessGetsBusErrorAndChangesNothing : Prop :=
  ∀ (s : State) (off : BitVec 8) (width : Nat) (v : Word),
    (off.toNat % 4 ≠ 0 ∨ width ≠ 32 →
      busAccess (.read off width) s = (.busError, s) ∧ busAccess (.write off width v) s = (.busError, s)) ∧
    (off.toNat % 4 = 0 → width = 32 →
      (busAccess (.read off width) s).1 ≠ .busError ∧ (busAccess (.write off width v) s).1 = .writeOk)

/-- 10_state.md R15: the bits of a STATUS read. -/
def Obligations.StatusWordHasItsFields : Prop :=
  ∀ s : State,
    s.status.word.getLsbD 0 = s.status.busy ∧ s.status.word.getLsbD 1 = s.status.done ∧
    s.status.word.getLsbD 2 = s.status.err ∧ s.status.word.getLsbD 3 = false ∧
    s.status.word.getLsbD 8 = s.status.ovr ∧ (∀ k, 9 ≤ k → s.status.word.getLsbD k = false) ∧
    s.status.word.toNat / 16 % 16 =
      (match s.status.ecode with
        | .none => 0
        | .illegalCmd => 1
        | .badLength => 2
        | .lineViolation => 3
        | .fecMismatch => 4)

/-- 30_encoding.md R48: a CMD write while BUSY = 0 stores the word and starts the command; RES, FREQ, OLEN and OBUF
keep the previous command's values, then and under every host access after it. -/
def Obligations.IdleCmdWriteIsAccepted : Prop :=
  (∀ (s : State) (v : Word), s.status.busy = false →
    ∃ t, busAccess (.write 0x00#8 32 v) s = (.writeOk, t) ∧ t.cmd = v ∧
      t.status = { busy := true, done := false, err := false, ecode := .none, ovr := s.status.ovr } ∧
      t.arg = s.arg ∧ t.res = s.res ∧ t.freq = s.freq ∧ t.olen = s.olen ∧ t.ibuf = s.ibuf ∧ t.obuf = s.obuf ∧
      t.inputs = s.inputs ∧ t.responses = s.responses) ∧
    ∀ (a : Access) (s : State), (busAccess a s).2.res = s.res ∧ (busAccess a s).2.freq = s.freq ∧
      (busAccess a s).2.olen = s.olen ∧ (busAccess a s).2.obuf = s.obuf

/-- 70_reset_and_hazards.md R108, 60_exceptions.md R101: while BUSY = 1 a write to CMD, ARG or IBUF is dropped and
sets OVR, and nothing else changes. -/
def Obligations.BusyWritesAreDroppedAndSetOvr : Prop :=
  ∀ (s : State) (off : BitVec 8) (v : Word), s.status.busy = true → off.toNat % 4 = 0 →
    (off.toNat = 0x00 ∨ off.toNat = 0x08 ∨ 0x40 ≤ off.toNat ∧ off.toNat < 0x80) →
    busAccess (.write off 32 v) s = (.writeOk, { s with status := { s.status with ovr := true } })

/-- 10_state.md R16, R20, 20_memory.md R34: while BUSY = 0 a write to ARG stores the word, and a write to word `k` of
IBUF stores its bytes, lowest first; every other byte of IBUF stays, and so does everything else. -/
def Obligations.IdleOperandWritesStore : Prop :=
  ∀ (s : State) (v : Word), s.status.busy = false →
    busAccess (.write 0x08#8 32 v) s = (.writeOk, { s with arg := v }) ∧
    ∀ k, k < 16 → s.ibuf.wf = true →
      ∃ m, busAccess (.write (BitVec.ofNat 8 (0x40 + 4 * k)) 32 v) s = (.writeOk, { s with ibuf := m }) ∧
        m.wf = true ∧ (∀ j, j < 4 → (m.read (4 * k + j)).toNat = v.toNat / 256 ^ j % 256) ∧
        ∀ i, i < 4 * k ∨ 4 * k + 4 ≤ i → m.read i = s.ibuf.read i

/-- 10_state.md R15, 20_memory.md R31: a STATUS write clears OVR when bit 8 of it is 1 and does nothing else; a write
to RES, FREQ, OLEN, OBUF or a reserved offset is ignored. -/
def Obligations.OtherWritesOnlyClearOvr : Prop :=
  ∀ (s : State) (v : Word),
    (v.getLsbD 8 = true → busAccess (.write 0x04#8 32 v) s = (.writeOk, { s with status := { s.status with ovr := false } })) ∧
    (v.getLsbD 8 = false → busAccess (.write 0x04#8 32 v) s = (.writeOk, s)) ∧
    (∀ off : BitVec 8, off.toNat % 4 = 0 → (0x0C ≤ off.toNat ∧ off.toNat < 0x40 ∨ 0x80 ≤ off.toNat) →
      busAccess (.write off 32 v) s = (.writeOk, s))

/-! ### Decoding -/

/-- 30_encoding.md R45, R51: the decoder gives every well-formed command back from its encoded word. -/
def Obligations.DecodeOfEncodeGivesTheCommand : Prop := ∀ i : Instr, WellFormed i → decode (encode i) = .ok i

/-- 30_encoding.md R45, R50: a legal word stands for one well-formed command, and is that command's encoded word. -/
def Obligations.LegalWordIsTheEncodedWordOfItsCommand : Prop :=
  ∀ (c : Word) (i : Instr), decode c = .ok i → WellFormed i ∧ encode i = c

/-- 30_encoding.md R45, R46: which words are legal, by the free fields of each row; every other word is illegal, and
completes with E_ILLEGAL_CMD and no other effect. -/
def Obligations.LegalWordsAreThoseOfTheTable : Prop :=
  (∀ c : Word, legal c = true ↔
    c.toNat ∈ [0x10, 0x11, 0x12, 0x13, 0x14, 0x15, 0x16, 0x17, 0x18, 0x19, 0x20, 0x21, 0x30, 0x31] ∨
    (c.toNat % 256 = 0x40 ∨ c.toNat % 256 = 0x41) ∧ c.toNat < 65536 ∨
    c.toNat % 65536 = 0x50 ∧ c.toNat < 524288) ∧
  ∀ s : State, legal s.cmd = false → ∃ t, complete s = .next t ∧ Failed s t .illegalCmd

/-- 30_encoding.md R44, R51: command words that the spec writes out. -/
def Obligations.SpecCommandWordsDecode : Prop :=
  decode 0x00000010#32 = .ok .qenc14 ∧ decode 0x00000021#32 = .ok .dewhiten ∧
    decode 0x00000031#32 = .ok .fecchk ∧ decode 0x00001A40#32 = .ok (.manenc 26) ∧
    decode 0x00003441#32 = .ok (.mandec 52) ∧ decode 0x00050050#32 = .ok (.fhsel .northAmerica 1) ∧
    decode 0x00000000#32 = .error (.unknownOpcode 0) ∧
    decode 0x00000110#32 = .error (.unusedFieldNotZero .QENC14) ∧
    decode 0x00010040#32 = .error (.unusedFieldNotZero .MANENC) ∧
    decode 0x00080050#32 = .error (.unusedFieldNotZero .FHSEL)

/-- 30_encoding.md R51: the assembler takes exactly the lines whose operands are allowed, each in its range and its key
once (log 14); the command has the line's mnemonic and the values given, 0 where one is omitted; and its word is
OPCODE | len<<8 | region<<16 | slot<<18 and decodes to it. -/
def Obligations.AssembledWordsDecodeToTheirCommand : Prop :=
  ∀ (o : Opcode) (operands : List AsmOperand),
    (Taken o operands → ∃ i, assemble o operands = some i ∧ WellFormed i ∧ i.opcode = o ∧
      i.lenField = given .len operands ∧ i.regionField = given .region operands ∧
      i.slotField = given .slot operands ∧ decode (encode i) = .ok i ∧
      (encode i).toNat = o.value + 256 * given .len operands + 65536 * given .region operands +
        262144 * given .slot operands) ∧
    (¬ Taken o operands → assemble o operands = none)

/-! ### The step -/

/-- 30_encoding.md R49: when the completion is due (log 3) and CMD holds a legal word, the step is that command's
meaning. -/
def Obligations.StepRunsTheDecodedCommand : Prop :=
  ∀ (s : State) (i : Instr), Due s → decode s.cmd = .ok i → step s = exec i s

/-- 30_encoding.md R46: when the completion is due and CMD holds a word that is not legal, the command fails with
E_ILLEGAL_CMD and has no other effect. -/
def Obligations.IllegalWordFailsWithIllegalCmd : Prop :=
  ∀ s : State, Due s → legal s.cmd = false → ∃ t, step s = .next t ∧ Failed s t .illegalCmd

/-- 20_memory.md R38: while no completion is due, the next host access takes effect at once, on the state as it is,
and its response is the bus's. -/
def Obligations.HostAccessTakesEffectInOrder : Prop :=
  ∀ (s : State) (a : Access) (rest : List Input), s.inputs = .access a :: rest → NotDue s →
    ∃ r u, busAccess a { s with inputs := rest, wait := s.wait - 1 } = (r, u) ∧
      step s = .next { u with responses := r :: s.responses }

/-- 30_encoding.md R52: WAIT reads STATUS and goes on only when bit 0 is 0. -/
def Obligations.WaitPollsUntilNotBusy : Prop :=
  ∀ (s : State) (rest : List Input), s.inputs = .waitIdle :: rest → NotDue s →
    step s = .next { s with
      inputs := if s.status.busy = true then .waitIdle :: rest else rest
      responses := .readData s.status.word :: s.responses
      wait := s.wait - 1 }

/-- 30_encoding.md R52. READ OBUF+k, n performs ceil(n/4) reads, changes nothing in the block, and its result is the
first n bytes from OBUF[k] on; past the buffer's end they are the bytes of the window (log 20), and with k no multiple
of 4 there is no result (log 21). It may run while a command is in flight whose completion does not come before its
last read (log 3). One word of COPY OBUF+4k -> IBUF+4m, with no command in flight, takes a read and a write, and leaves
that word of OBUF in that word of IBUF. -/
def Obligations.ReadAndCopyTakeTheOutput : Prop :=
  (∀ (s : State) (k n : Nat) (rest : List Input), s.status.busy = false ∨ (n + 3) / 4 ≤ s.wait →
    s.inputs = (HostStmt.read k n).expand ++ rest →
    ∃ t answers, Sys2Proof.core.run ((n + 3) / 4) s = .next t ∧ t.inputs = rest ∧
      answers.length = (n + 3) / 4 ∧ t.responses = answers.reverse ++ s.responses ∧
      (k % 4 = 0 → readResultAt n t =
        some ((List.range n).map (fun i => windowByte s ((0x80 + k + i) % 256)))) ∧
      (k % 4 = 0 → k + n ≤ 64 → readResultAt n t = some ((List.range n).map (fun i => s.obuf.read (k + i)))) ∧
      (k % 4 ≠ 0 → 0 < n → readResultAt n t = none) ∧
      programResults [.read k n] answers = [readResultAt n t] ∧
      t.cmd = s.cmd ∧ t.status = s.status ∧ t.arg = s.arg ∧ t.res = s.res ∧ t.freq = s.freq ∧ t.olen = s.olen ∧
      t.ibuf = s.ibuf ∧ t.obuf = s.obuf) ∧
  ∀ (s : State) (k m : Nat) (rest : List Input), s.status.busy = false → s.ibuf.wf = true → k < 16 → m < 16 →
    s.inputs = .copyWord (BitVec.ofNat 8 (0x80 + 4 * k)) (BitVec.ofNat 8 (0x40 + 4 * m)) :: rest →
    ∃ t, Sys2Proof.core.run 2 s = .next t ∧ t.inputs = rest ∧ inWord t m = outWord s k ∧
      (∀ i, i < 4 * m ∨ 4 * m + 4 ≤ i → t.ibuf.read i = s.ibuf.read i) ∧
      t.responses = .writeOk :: .readData (outWord s k) :: s.responses ∧
      t.cmd = s.cmd ∧ t.status = s.status ∧ t.arg = s.arg ∧ t.res = s.res ∧ t.freq = s.freq ∧ t.olen = s.olen ∧
      t.obuf = s.obuf

/-- 30_encoding.md R49, 70_reset_and_hazards.md R112: a command in flight completes after at most as many host
accesses as LATENCY still leaves (log 3), if no reset comes; no command hangs. -/
def Obligations.CommandInFlightCompletes : Prop :=
  ∀ s : State, s.status.busy = true → s.inputs.all Input.notReset = true →
    ∃ n t, n ≤ s.wait + 1 ∧ Sys2Proof.core.run n s = .next t ∧ t.status.busy = false ∧ t.status.done = true ∧
      t.cmd = s.cmd ∧ t.responses.length ≤ s.responses.length + s.wait

/-- 70_reset_and_hazards.md R112: the completion does not come before the LATENCY-th host access: the accesses before
it find the command still in flight, with its word in CMD. -/
def Obligations.NoCompletionBeforeLatency : Prop :=
  ∀ (s : State) (accesses : List Access) (rest : List Input), s.status.busy = true → accesses.length ≤ s.wait →
    s.inputs = accesses.map Input.access ++ rest →
    ∃ t, Sys2Proof.core.run accesses.length s = .next t ∧ t.status.busy = true ∧ t.cmd = s.cmd ∧ t.arg = s.arg ∧
      t.ibuf = s.ibuf ∧ t.inputs = rest ∧ t.wait = s.wait - accesses.length ∧
      t.responses.length = s.responses.length + accesses.length

/-- 60_exceptions.md R98, R100: no run ever stops: a failing command and a bus error are next states. -/
def Obligations.RunsNeverStop : Prop := ∀ s : State, NeverStops s

/-- The reset state is legal. -/
def Obligations.ResetStateIsLegal : Prop := Inv State.reset

/-- Every step keeps a state legal: STATUS as 10_state.md R15, OLEN and OBUF as 10_state.md R19, R21, what a failure
leaves as 60_exceptions.md R98, and the buffers' canonical form. -/
def Obligations.StepKeepsStatesLegal : Prop := ∀ s t : State, Inv s → step s = .next t → Inv t

/-- 60_exceptions.md R101: OVR stays 1 until a STATUS write with bit 8 = 1, or reset; and it becomes 1 only while a
command is in flight. -/
def Obligations.OvrIsSticky : Prop :=
  ∀ s t : State, step s = .next t →
    (s.status.ovr = true → t.status.ovr = false →
      (∃ v rest, s.inputs = .access (.write 0x04#8 32 v) :: rest ∧ v.getLsbD 8 = true) ∨
        ∃ overlapping rest, s.inputs = .reset overlapping :: rest) ∧
    (s.status.ovr = false → t.status.ovr = true → s.status.busy = true)

/-- 20_memory.md R38, 70_reset_and_hazards.md R109: only a completion or a reset changes RES, FREQ, OLEN or OBUF; so
while no command is in flight they stay, and while one is they still hold the previous command's values. -/
def Obligations.OnlyCompletionChangesResults : Prop :=
  ∀ (s t : State) (i : Input) (rest : List Input), s.inputs = i :: rest → i.notReset = true → NotDue s →
    step s = .next t →
    t.res = s.res ∧ t.freq = s.freq ∧ t.olen = s.olen ∧ t.obuf = s.obuf

/-! ### Every command -/

/-- 30_encoding.md R47: every command ends in `finish` or in `fail`, and neither touches CMD, ARG, IBUF or STATUS.OVR,
nor anything outside the block; of the window, only STATUS, RES, FREQ, OLEN and OBUF can read differently after it.
After acceptance, no host access changes those, but for OVR. -/
def Obligations.CommandsEndInFinishOrFail : Prop :=
  (∀ (i : Instr) (s : State), ∃ t, exec i s = .next t ∧
    ((∃ res freq out, out.length ≤ 64 ∧ Finished s t res freq out) ∨ ∃ e, e ≠ .none ∧ Failed s t e) ∧
    ∀ off, off < 256 → ¬ (0x04 ≤ off ∧ off < 0x08 ∨ 0x0C ≤ off ∧ off < 0x18 ∨ 0x80 ≤ off ∧ off < 0xC0) →
      windowByte t off = windowByte s off) ∧
  ∀ (a : Access) (s t : State), s.status.busy = true → (busAccess a s).2 = t →
    t.res = s.res ∧ t.freq = s.freq ∧ t.olen = s.olen ∧ t.obuf = s.obuf ∧ t.status.busy = s.status.busy ∧
      t.status.done = s.status.done ∧ t.status.err = s.status.err ∧ t.status.ecode = s.status.ecode

/-- 60_exceptions.md R96: which command can end with which code; an illegal word ends with E_ILLEGAL_CMD, and FHSEL
for Asia with FREQ = 0. -/
def Obligations.CommandsEndOnlyWithTheirCodes : Prop :=
  (∀ (i : Instr) (s t : State), exec i s = .next t → mayEndWith i t.status.ecode) ∧
    (∀ s t : State, legal s.cmd = false → complete s = .next t → t.status.ecode = .illegalCmd) ∧
    ∀ (slot : Nat) (s t : State), exec (.fhsel .asia slot) s = .next t → t.status.ecode = .none ∧ t.freq = 0#32

/-- 00_scope.md R2: a command's result depends only on the command word and on the operands that it reads. -/
def Obligations.ResultDependsOnlyOnOperands : Prop :=
  ∀ (i : Instr) (s s' t t' : State), SameOperands i s s' → exec i s = .next t → exec i s' = .next t' → SameResult t t'

/-! ### The quantiser -/

/-- 40_quantizer.md R58, R60, R62: QENC14, QENC10 and QENC6. -/
def Obligations.UnsignedEncodersGiveTheBandCode : Prop :=
  decode 0x00000010#32 = .ok .qenc14 ∧ decode 0x00000012#32 = .ok .qenc10 ∧ decode 0x00000014#32 = .ok .qenc6 ∧
  ∀ s : State,
    (∃ t, exec .qenc14 s = .next t ∧ Finished s t (BitVec.ofNat 32 (bandedEncode 0x1000 s.arg.toNat)) 0#32 []) ∧
    (∃ t, exec .qenc10 s = .next t ∧ Finished s t (BitVec.ofNat 32 (bandedEncode 0x100 s.arg.toNat)) 0#32 []) ∧
    (∃ t, exec .qenc6 s = .next t ∧ Finished s t (BitVec.ofNat 32 (bandedEncode 0x10 s.arg.toNat)) 0#32 [])

/-- 40_quantizer.md R59, R61, R63: QDEC14, QDEC10 and QDEC6; the bits above the code are ignored. -/
def Obligations.UnsignedDecodersGiveTheBandValue : Prop :=
  decode 0x00000011#32 = .ok .qdec14 ∧ decode 0x00000013#32 = .ok .qdec10 ∧ decode 0x00000015#32 = .ok .qdec6 ∧
  ∀ s : State,
    (∃ t, exec .qdec14 s = .next t ∧
      Finished s t (BitVec.ofNat 32 (bandedDecode 0x1000 (s.arg.toNat % 2 ^ 14))) 0#32 []) ∧
    (∃ t, exec .qdec10 s = .next t ∧
      Finished s t (BitVec.ofNat 32 (bandedDecode 0x100 (s.arg.toNat % 2 ^ 10))) 0#32 []) ∧
    (∃ t, exec .qdec6 s = .next t ∧
      Finished s t (BitVec.ofNat 32 (bandedDecode 0x10 (s.arg.toNat % 2 ^ 6))) 0#32 [])

/-- 40_quantizer.md R64, R66: QENCS8 and QENCS9 of ARG as an i32; no input gives negative zero. -/
def Obligations.SignedEncodersGiveSignAndMagnitude : Prop :=
  decode 0x00000016#32 = .ok .qencs8 ∧ decode 0x00000018#32 = .ok .qencs9 ∧
  ∀ s : State,
    (∃ t, exec .qencs8 s = .next t ∧ Finished s t (BitVec.ofNat 32 (signedEncode 0x20 s.arg.toInt)) 0#32 [] ∧
      t.res ≠ 0x80#32) ∧
    (∃ t, exec .qencs9 s = .next t ∧ Finished s t (BitVec.ofNat 32 (signedEncode 0x40 s.arg.toInt)) 0#32 [] ∧
      t.res ≠ 0x100#32)

/-- 40_quantizer.md R65, R67: QDECS8 and QDECS9; RES is the value as an i32. -/
def Obligations.SignedDecodersGiveTheSignedValue : Prop :=
  decode 0x00000017#32 = .ok .qdecs8 ∧ decode 0x00000019#32 = .ok .qdecs9 ∧
  ∀ s : State,
    (∃ t, exec .qdecs8 s = .next t ∧ Finished s t (BitVec.ofInt 32 (signedDecode 0x20 (s.arg.toNat % 2 ^ 8))) 0#32 []) ∧
    (∃ t, exec .qdecs9 s = .next t ∧ Finished s t (BitVec.ofInt 32 (signedDecode 0x40 (s.arg.toNat % 2 ^ 9))) 0#32 [])

/-- 40_quantizer.md R68 laws 2 and 3: an unsigned encoder is monotonic, and saturates from T_3 - 8 on. -/
def Obligations.UnsignedEncodersAreMonotonicAndSaturate : Prop :=
  ∀ (enc dec : Instr) (u : Nat), (enc, dec, u) ∈ unsignedPairs →
    ∀ s s' t t' : State, exec enc s = .next t → exec enc s' = .next t' →
      (s.arg.toNat ≤ s'.arg.toNat → t.res.toNat ≤ t'.res.toNat) ∧
      (15 * u - 8 ≤ s.arg.toNat → t.res.toNat = 4 * u - 1)

/-- 40_quantizer.md R68 law 4, for all five variants: below saturation, decoding the code gives the value back, exactly
in band 0, and at most 1, 2 and 4 above and 0, 1 and 3 below it in bands 1, 2 and 3. In the signed variants this is said
of the magnitudes, and the sign comes back. -/
def Obligations.QuantiserErrorIsBounded : Prop :=
  (∀ (enc dec : Instr) (u : Nat), (enc, dec, u) ∈ unsignedPairs →
    ∀ s t r : State, exec enc s = .next t → exec dec { t with arg := t.res } = .next r →
      WithinBandError u s.arg.toNat r.res.toNat) ∧
  ∀ (enc dec : Instr) (u : Nat), (enc, dec, u) ∈ signedPairs →
    ∀ s t r : State, exec enc s = .next t → exec dec { t with arg := t.res } = .next r →
      WithinBandError u s.arg.toInt.natAbs r.res.toInt.natAbs ∧
        (s.arg.toInt < 0 ↔ r.res.toInt < 0)

/-- 40_quantizer.md R68 law 5: encoding the decoded value gives the code back, but negative zero gives 0. -/
def Obligations.CodesAreFixpoints : Prop :=
  (∀ (enc dec : Instr) (u : Nat), (enc, dec, u) ∈ unsignedPairs →
    ∀ s t r : State, exec dec s = .next t → exec enc { t with arg := t.res } = .next r →
      r.res.toNat = s.arg.toNat % (4 * u)) ∧
  ∀ (enc dec : Instr) (u : Nat), (enc, dec, u) ∈ signedPairs →
    ∀ s t r : State, exec dec s = .next t → exec enc { t with arg := t.res } = .next r →
      r.res.toNat = if s.arg.toNat % (8 * u) = 4 * u then 0 else s.arg.toNat % (8 * u)

/-- 40_quantizer.md R68 laws 6 and 7: what comes back from a signed code is at most 15u - 4 in magnitude, and changes
sign with the value that was encoded. -/
def Obligations.SignedQuantiserIsSymmetric : Prop :=
  ∀ (enc dec : Instr) (u : Nat), (enc, dec, u) ∈ signedPairs →
    ∀ s s' t t' r r' : State, s.arg.toInt ≠ -2147483648 → s'.arg = -s.arg →
      exec enc s = .next t → exec dec { t with arg := t.res } = .next r →
      exec enc s' = .next t' → exec dec { t' with arg := t'.res } = .next r' →
      r'.res.toInt = -r.res.toInt ∧ r.res.toInt.natAbs ≤ 15 * u - 4

/-! ### The whitener -/

/-- 41_whitener.md R73 with R69, R71: WHITEN. The round function is the default of WHITEN_ROUND, which the spec takes
from general knowledge (log 8). -/
def Obligations.WhitenRunsEightRoundsOnBothPairs : Prop :=
  ∀ s : State, ∃ t out, exec .whiten s = .next t ∧ Finished s t 0#32 0#32 out ∧ out.length = 16 ∧
    Whitened (inWord s 0) (inWord s 1) (outWord t 0) (outWord t 1) ∧
    Whitened (inWord s 2) (inWord s 3) (outWord t 2) (outWord t 3)

/-- 41_whitener.md R74 with R69, R72: DEWHITEN, under the default of WHITEN_ROUND (log 8). -/
def Obligations.DewhitenRunsTheInverseRounds : Prop :=
  ∀ s : State, ∃ t out, exec .dewhiten s = .next t ∧ Finished s t 0#32 0#32 out ∧ out.length = 16 ∧
    Dewhitened (inWord s 0) (inWord s 1) (outWord t 0) (outWord t 1) ∧
    Dewhitened (inWord s 2) (inWord s 3) (outWord t 2) (outWord t 3)

/-- 41_whitener.md R75 law 1: DEWHITEN on WHITEN's output gives the payload back, and the other way round, under the
default WHITEN_ROUND (log 8). -/
def Obligations.WhitenAndDewhitenAreInverse : Prop :=
  ∀ (i j : Instr), (i = .whiten ∧ j = .dewhiten ∨ i = .dewhiten ∧ j = .whiten) →
    ∀ s t s' t' : State, exec i s = .next t → (∀ k, k < 16 → s'.ibuf.read k = t.obuf.read k) →
      exec j s' = .next t' → ∀ k, k < 16 → t'.obuf.read k = s.ibuf.read k

/-- The same for any mixing function (41_whitener.md R70: WHITEN_ROUND is a parameter; 93_implementation_defined.md I2
asks that R72 be the inverse). -/
def Obligations.InverseRoundsUndoForwardRounds : Prop :=
  ∀ (f : Word → Word → Word) (v0 v1 : Word),
    teaInv f (teaFwd f v0 v1).1 (teaFwd f v0 v1).2 = (v0, v1) ∧
    teaFwd f (teaInv f v0 v1).1 (teaInv f v0 v1).2 = (v0, v1)

/-- 41_whitener.md R75 law 4: each half of the output depends only on the same half of the input, under the default
pairing (log 8). -/
def Obligations.WhitenerHalvesAreIndependent : Prop :=
  ∀ (i : Instr), i = .whiten ∨ i = .dewhiten →
    ∀ s s' t t' : State, exec i s = .next t → exec i s' = .next t' →
      ((∀ k, k < 8 → s.ibuf.read k = s'.ibuf.read k) → ∀ k, k < 8 → t.obuf.read k = t'.obuf.read k) ∧
      ((∀ k, 8 ≤ k → k < 16 → s.ibuf.read k = s'.ibuf.read k) → ∀ k, 8 ≤ k → k < 16 → t.obuf.read k = t'.obuf.read k)

/-! ### The FEC -/

/-- 42_fec.md R79 with R76: FECENC writes the parity bits of the data bits; its values are those of FEC_PARITY, of
which only 42_fec.md R78 is known (log 6). -/
def Obligations.FecencWritesTheParity : Prop :=
  ∀ (s : State) (d : BitVec 160), IsDataBlock s d →
    ∃ t out, exec .fecenc s = .next t ∧ Finished s t 0#32 0#32 out ∧ out.length = 6 ∧
      IsParity (fecParity d) t.obuf.read

/-- 42_fec.md R80: FECCHK on a match and on a mismatch of all six bytes. -/
def Obligations.FecchkComparesTheParity : Prop :=
  decode 0x00000031#32 = .ok .fecchk ∧
  ∀ (s : State) (d : BitVec 160), IsDataBlock s d →
    ∃ t, exec .fecchk s = .next t ∧
      (IsParity (fecParity d) (fun k => s.ibuf.read (20 + k)) → Finished s t 1#32 0#32 []) ∧
      (¬ IsParity (fecParity d) (fun k => s.ibuf.read (20 + k)) → Failed s t .fecMismatch)

/-- 42_fec.md R78 constraints 1 and 2: the golden block's parity, and that flipping any one bit of it changes the
parity. These are all that is known of FEC_PARITY (log 6). -/
def Obligations.FecGoldenVectorAndSensitivity : Prop :=
  ∀ s : State, HoldsGoldenBlock s →
    (∃ t, exec .fecenc s = .next t ∧ ∀ k, k < 6 → t.obuf.read k = goldenByte k) ∧
    ∀ (j : Nat) (s' t' : State), j < 160 →
      (∀ i, i < 160 → (s'.ibuf.read (i / 8)).getLsbD (i % 8) =
        ((s.ibuf.read (i / 8)).getLsbD (i % 8) ^^ decide (i = j))) →
      exec .fecenc s' = .next t' → ∃ k, k < 6 ∧ t'.obuf.read k ≠ goldenByte k

/-- 42_fec.md R81 law 2: FECCHK over a block and FECENC's output on that block matches. -/
def Obligations.FecchkAcceptsFecencOutput : Prop :=
  ∀ s t s' : State, exec .fecenc s = .next t → (∀ k, k < 20 → s'.ibuf.read k = s.ibuf.read k) →
    (∀ k, k < 6 → s'.ibuf.read (20 + k) = t.obuf.read k) →
    ∃ t', exec .fecchk s' = .next t' ∧ Finished s' t' 1#32 0#32 []

/-- 42_fec.md R80, R81 law 4: FECCHK of the golden block with the golden parity matches, and of that with one data bit
flipped it fails. -/
def Obligations.FecchkDetectsAFlippedGoldenBit : Prop :=
  ∀ s : State, HoldsGoldenBlock s → (∀ k, k < 6 → s.ibuf.read (20 + k) = goldenByte k) →
    (∃ t, exec .fecchk s = .next t ∧ Finished s t 1#32 0#32 []) ∧
    ∀ (j : Nat) (s' : State), j < 160 →
      (∀ i, i < 160 → (s'.ibuf.read (i / 8)).getLsbD (i % 8) =
        ((s.ibuf.read (i / 8)).getLsbD (i % 8) ^^ decide (i = j))) →
      (∀ k, k < 6 → s'.ibuf.read (20 + k) = goldenByte k) →
      ∃ t', exec .fecchk s' = .next t' ∧ Failed s' t' .fecMismatch

/-- 42_fec.md R81 law 3: after a match, the same block with any change to the parity bytes fails. -/
def Obligations.FecchkDetectsChangedParity : Prop :=
  ∀ s t s' : State, exec .fecchk s = .next t → t.res = 1#32 →
    (∀ k, k < 20 → s'.ibuf.read k = s.ibuf.read k) →
    (∃ k, k < 6 ∧ s'.ibuf.read (20 + k) ≠ s.ibuf.read (20 + k)) →
    ∃ t', exec .fecchk s' = .next t' ∧ Failed s' t' .fecMismatch

/-- 42_fec.md R77, R78 constraint 2: the linear form gives the zero block zero parity, is linear, and is sensitive to
every single bit of every block when no column of FEC_G is zero. The commands do not rest on it (log 6). -/
def Obligations.LinearParityFormIsLinearAndSensitive : Prop :=
  ∀ columns : List (BitVec 48),
    linearParity columns 0#160 = 0#48 ∧
    (∀ a b, linearParity columns (a ^^^ b) = linearParity columns a ^^^ linearParity columns b) ∧
    (columns.length = 160 → (∀ col, col ∈ columns → col ≠ 0#48) →
      ∀ d j, j < 160 → linearParity columns (flipBit d j) ≠ linearParity columns d)

/-! ### The line coder -/

/-- 43_manchester.md R86 with R82, R84: MANENC, for every LEN. -/
def Obligations.ManencCodesEveryByte : Prop :=
  (∀ len, len < 256 → decode (BitVec.ofNat 32 (0x40 + 256 * len)) = .ok (.manenc len)) ∧
  ∀ (s : State) (len : Nat),
    (len ≤ 32 → ∃ t out, exec (.manenc len) s = .next t ∧ Finished s t 0#32 0#32 out ∧ out.length = 2 * len ∧
      ∀ i, i < len → IsCoded ((s.ibuf.read i).toNat / 16) (t.obuf.read (2 * i)) ∧
        IsCoded ((s.ibuf.read i).toNat % 16) (t.obuf.read (2 * i + 1))) ∧
    (32 < len → ∃ t, exec (.manenc len) s = .next t ∧ Failed s t .badLength)

/-- 43_manchester.md R87 with R82: MANDEC, for every LEN: an odd or too long one first, then a violation at any
position, else the decoded bytes. -/
def Obligations.MandecDecodesOrRejects : Prop :=
  (∀ len, len < 256 → decode (BitVec.ofNat 32 (0x41 + 256 * len)) = .ok (.mandec len)) ∧
  ∀ (s : State) (len : Nat),
    (len % 2 = 1 ∨ 64 < len → ∃ t, exec (.mandec len) s = .next t ∧ Failed s t .badLength) ∧
    (len % 2 = 0 → len ≤ 64 → (∃ i, i < len ∧ ¬ Coded (s.ibuf.read i)) →
      ∃ t, exec (.mandec len) s = .next t ∧ Failed s t .lineViolation) ∧
    (len % 2 = 0 → len ≤ 64 → (∀ i, i < len → Coded (s.ibuf.read i)) →
      ∃ t out, exec (.mandec len) s = .next t ∧ Finished s t 0#32 0#32 out ∧ out.length = len / 2 ∧
        ∀ i p, i < len / 2 → p < 4 →
          (t.obuf.read i).getLsbD (4 + p) = (s.ibuf.read (2 * i)).getLsbD (2 * p) ∧
          (t.obuf.read i).getLsbD p = (s.ibuf.read (2 * i + 1)).getLsbD (2 * p))

/-- 43_manchester.md R83, R85: the nibble table's endpoints and its use of the alphabet, and that a byte decodes
exactly when it is in the table. -/
def Obligations.NibbleTableAndItsInverse : Prop :=
  manT 0 = 0xAA#8 ∧ manT 15 = 0x55#8 ∧ (∀ n, n < 16 → IsCoded n (manT n)) ∧
    ∀ (c : Byte) (n : Nat), manDecNib c = some n ↔ n < 16 ∧ manT n = c

/-- 43_manchester.md R88 law 1: MANDEC on MANENC's output gives the bytes back, for every length up to 32. -/
def Obligations.ManchesterRoundTrip : Prop :=
  ∀ (n : Nat) (s t s' : State), n ≤ 32 → exec (.manenc n) s = .next t →
    (∀ k, k < 2 * n → s'.ibuf.read k = t.obuf.read k) →
    ∃ t' out, exec (.mandec (2 * n)) s' = .next t' ∧ Finished s' t' 0#32 0#32 out ∧ out.length = n ∧
      ∀ k, k < n → t'.obuf.read k = s.ibuf.read k

/-! ### The hop selector -/

/-- 44_freqhop.md R93 for Europe and Asia, where the hash is not used, with R94 law 1: Europe gives slot xor 1 and
868.2 or 868.4 MHz whatever the timestamp, and Asia gives 0 with no error. -/
def Obligations.FhselWithoutTheHash : Prop :=
  ∀ s : State,
    (∃ t, exec (.fhsel .europe 0) s = .next t ∧ Finished s t 1#32 868400000#32 []) ∧
    (∃ t, exec (.fhsel .europe 1) s = .next t ∧ Finished s t 0#32 868200000#32 []) ∧
    ∀ slot, ∃ t, exec (.fhsel .asia slot) s = .next t ∧ Finished s t 0#32 0#32 []

/-- 44_freqhop.md R93 with R89 to R92 for North America and Australia, under the default HOP_HASH, which the spec
takes from general knowledge (log 9), and HOP_SLOT1_PLUS1 = true (log 10). -/
def Obligations.FhselHopsByTheHash : Prop :=
  ∀ (s : State) (slot : Nat), slot < 2 →
    (∃ t, exec (.fhsel .northAmerica slot) s = .next t ∧
      Finished s t (BitVec.ofNat 32 (channel 65 slot s.arg.toNat))
        (BitVec.ofNat 32 (902200000 + 400000 * channel 65 slot s.arg.toNat)) []) ∧
    (∃ t, exec (.fhsel .australia slot) s = .next t ∧
      Finished s t (BitVec.ofNat 32 (channel 24 slot s.arg.toNat))
        (BitVec.ofNat 32 (917000000 + 400000 * channel 24 slot s.arg.toNat)) [])

/-- 44_freqhop.md R94 laws 2, 3 and 4, for every hash and both readings of slot 1: the channel is in range, the two
slots never meet, and slot 0 avoids the legacy channel. -/
def Obligations.ChannelsInRangeAndNeverMeet : Prop :=
  ∀ (hop : Word → Word) (plus1 : Bool) (n : Nat) (t : Word), 2 ≤ n →
    chan hop plus1 n 0 t < n ∧ chan hop plus1 n 1 t < n ∧ chan hop plus1 n 0 t ≠ chan hop plus1 n 1 t ∧
      (3 ≤ n → chan hop plus1 n 0 t ≠ (hop (t <<< 1)).toNat % n)

/-- 44_freqhop.md R93, R94 law 2: at one timestamp the two slots of a supported region never get the same frequency,
and t and t + 2^31 get the same channel. -/
def Obligations.SlotsOfARegionNeverShareAFrequency : Prop :=
  ∀ (r : Region) (s t0 t1 : State), r ≠ .asia → exec (.fhsel r 0) s = .next t0 → exec (.fhsel r 1) s = .next t1 →
    t0.freq ≠ t1.freq ∧ t0.res ≠ t1.res ∧
    ∀ (slot : Nat) (s' t t' : State), s'.arg = s.arg + 0x80000000#32 → exec (.fhsel r slot) s = .next t →
      exec (.fhsel r slot) s' = .next t' → t'.res = t.res ∧ t'.freq = t.freq

/-! ### The parameters of 00_scope.md R7 -/

/-- 00_scope.md R7: a block with the default parameters (logs 8 to 11) is the one that `exec`, `step` and
`Sys2Proof.core` give; the defaults are admissible (93_implementation_defined.md I2, I5); and in a block with any
parameters, a due completion (log 3) runs the decoded command, only WHITEN, DEWHITEN and FHSEL depend on the parameters,
and every step that is no due completion is as in any other block. -/
def Obligations.DefaultParametersGiveTheMachine : Prop :=
  (∀ (i : Instr) (s : State), execWith defaultParams i s = exec i s) ∧
  (∀ s : State, stepWith defaultParams s = step s) ∧
  (∀ (n : Nat) (s : State), (coreWith defaultParams).run n s = Sys2Proof.core.run n s) ∧
  Admissible defaultParams ∧
  ∀ (p : Params) (s : State),
    (∀ i, Due s → decode s.cmd = .ok i → stepWith p s = execWith p i s) ∧
    (∀ i, i.opcode ≠ .WHITEN → i.opcode ≠ .DEWHITEN → i.opcode ≠ .FHSEL → execWith p i s = exec i s) ∧
    (¬ Due s → stepWith p s = step s)

/-- 41_whitener.md R75 law 1 for every WHITEN_ROUND that 93_implementation_defined.md I2 admits: both commands complete,
and each undoes the other. Every pairing that holds each word once, with any mixing function in R70's and R72's rounds,
is one of those. -/
def Obligations.WhiteningIsInvertibleForEveryRound : Prop :=
  (∀ p : Params, Admissible p →
    ∀ (i j : Instr), (i = .whiten ∧ j = .dewhiten ∨ i = .dewhiten ∧ j = .whiten) →
      ∀ s : State, ∃ t out, execWith p i s = .next t ∧ Finished s t 0#32 0#32 out ∧ out.length = 16 ∧
        ∀ s' : State, (∀ k, k < 16 → s'.ibuf.read k = t.obuf.read k) →
          ∃ t' out', execWith p j s' = .next t' ∧ Finished s' t' 0#32 0#32 out' ∧ out'.length = 16 ∧
            ∀ k, k < 16 → t'.obuf.read k = s.ibuf.read k) ∧
  ∀ (pairing : Pairing) (f : Word → Word → Word), FourWords pairing →
    ∀ (s : Word) (w : Block), let r := pairedRound pairing (roundFwd f) (roundInv f)
      r.inv s (r.fwd s w) = w ∧ r.fwd s (r.inv s w) = w

/-- 44_freqhop.md R93 for every PLAN that 93_implementation_defined.md I5 admits, every HOP_HASH and both slot-1
readings: a region with no channels gives 0 and 0 Hz; any other gives a channel below its count, channel 0 where there
is one and slot xor 1 where there are two, and that channel's carrier frequency; and two slots of a region with two
channels or more never get the same channel. -/
def Obligations.FhselFollowsEveryPlan : Prop :=
  ∀ p : Params, Admissible p → ∀ (r : Region) (s : State),
    ((p.plan r).count = 0 → ∀ slot, ∃ t, execWith p (.fhsel r slot) s = .next t ∧ Finished s t 0#32 0#32 []) ∧
    (0 < (p.plan r).count → ∀ slot, slot < 2 → ∃ t, execWith p (.fhsel r slot) s = .next t ∧
      Finished s t t.res t.freq [] ∧ t.res.toNat < (p.plan r).count ∧
      t.res.toNat = chan p.hopHash p.hopSlot1Plus1 (p.plan r).count slot s.arg ∧
      t.freq.toNat = (p.plan r).base + (p.plan r).spacing * t.res.toNat ∧
      ((p.plan r).count = 1 → t.res = 0#32) ∧ ((p.plan r).count = 2 → t.res.toNat = 1 - slot)) ∧
    (2 ≤ (p.plan r).count → ∀ t0 t1 : State, execWith p (.fhsel r 0) s = .next t0 →
      execWith p (.fhsel r 1) s = .next t1 → t0.res ≠ t1.res)
end

