-- ==== Sys2Proof/Laws/Memory.lean ====
section
/-!
SUPPORT. Laws/Memory.lean: a read after a write, that every memory operation keeps the canonical form, and that two
buffers in canonical form with the same bytes are equal.
-/

namespace Sys2Proof.Machine

@[simp] theorem Memory.read_nil (i : Nat) : Memory.read [] i = 0#8 := rfl

@[simp] theorem Memory.wf_nil : Memory.wf [] = true := rfl

theorem Memory.read_cons (a : Nat) (v : Byte) (rest : Memory) (i : Nat) :
    Memory.read ((a, v) :: rest) i = if a = i then v else Memory.read rest i := rfl

theorem Memory.wfFrom_cons (lo a : Nat) (v : Byte) (rest : Memory) :
    Memory.wfFrom lo ((a, v) :: rest) = true ↔
      lo ≤ a ∧ a < 64 ∧ v ≠ 0#8 ∧ Memory.wfFrom (a + 1) rest = true := by
  simp only [Memory.wfFrom, Bool.and_eq_true, decide_eq_true_eq, and_assoc]

/-- A lower bound on the indices may be lowered. -/
theorem Memory.wfFrom_mono {lo lo' : Nat} {m : Memory} (h : Memory.wfFrom lo m = true) (hl : lo' ≤ lo) :
    Memory.wfFrom lo' m = true := by
  cases m with
  | nil => rfl
  | cons c rest =>
    obtain ⟨a, v⟩ := c
    rw [Memory.wfFrom_cons] at h ⊢
    exact ⟨Nat.le_trans hl h.1, h.2⟩

/-- An index below the bound is not listed. -/
theorem Memory.read_below {lo : Nat} {m : Memory} (h : Memory.wfFrom lo m = true) {i : Nat} (hi : i < lo) :
    m.read i = 0#8 := by
  induction m generalizing lo with
  | nil => rfl
  | cons c rest ih =>
    obtain ⟨a, v⟩ := c
    rw [Memory.wfFrom_cons] at h
    rw [Memory.read_cons, if_neg (by omega)]
    exact ih h.2.2.2 (by omega)

/-- An index of 64 or more is not listed. -/
theorem Memory.read_beyond {lo : Nat} {m : Memory} (h : Memory.wfFrom lo m = true) {i : Nat} (hi : 64 ≤ i) :
    m.read i = 0#8 := by
  induction m generalizing lo with
  | nil => rfl
  | cons c rest ih =>
    obtain ⟨a, v⟩ := c
    rw [Memory.wfFrom_cons] at h
    rw [Memory.read_cons, if_neg (by omega)]
    exact ih h.2.2.2

theorem Memory.read_put (i : Nat) (b : Byte) (rest : Memory) (j : Nat) (h : rest.read i = 0#8) :
    (Memory.put i b rest).read j = if i = j then b else rest.read j := by
  unfold Memory.put
  split
  · rename_i hb
    split
    · rename_i hij
      rw [← hij, h, hb]
    · rfl
  · rfl

theorem Memory.wfFrom_put {lo i : Nat} {b : Byte} {rest : Memory} (hlo : lo ≤ i) (hi : i < 64)
    (h : Memory.wfFrom (i + 1) rest = true) : Memory.wfFrom lo (Memory.put i b rest) = true := by
  unfold Memory.put
  split
  · exact Memory.wfFrom_mono h (by omega)
  · rename_i hb
    exact (Memory.wfFrom_cons ..).2 ⟨hlo, hi, hb, h⟩

theorem Memory.wfFrom_write {lo : Nat} {m : Memory} (h : Memory.wfFrom lo m = true) {i : Nat} (b : Byte)
    (hlo : lo ≤ i) (hi : i < 64) : Memory.wfFrom lo (m.write i b) = true := by
  induction m generalizing lo with
  | nil => exact Memory.wfFrom_put hlo hi rfl
  | cons c rest ih =>
    obtain ⟨a, v⟩ := c
    have hc := (Memory.wfFrom_cons ..).1 h
    unfold Memory.write
    split
    · exact Memory.wfFrom_put hlo hi ((Memory.wfFrom_cons ..).2 ⟨by omega, hc.2⟩)
    · split
      · rename_i hia
        subst hia
        exact Memory.wfFrom_put hlo hi hc.2.2.2
      · exact (Memory.wfFrom_cons ..).2 ⟨hc.1, hc.2.1, hc.2.2.1, ih hc.2.2.2 (by omega)⟩

/-- A write keeps the canonical form. -/
theorem Memory.wf_write {m : Memory} (h : m.wf = true) {i : Nat} (b : Byte) (hi : i < 64) :
    (m.write i b).wf = true := Memory.wfFrom_write h b (Nat.zero_le _) hi

theorem Memory.read_write_from {lo : Nat} {m : Memory} (h : Memory.wfFrom lo m = true) (i : Nat) (b : Byte) (j : Nat) :
    (m.write i b).read j = if i = j then b else m.read j := by
  induction m generalizing lo with
  | nil => exact Memory.read_put i b [] j rfl
  | cons c rest ih =>
    obtain ⟨a, v⟩ := c
    have hc := (Memory.wfFrom_cons ..).1 h
    unfold Memory.write
    split
    · rename_i hia
      exact Memory.read_put i b _ j
        (Memory.read_below (lo := a) ((Memory.wfFrom_cons ..).2 ⟨Nat.le_refl _, hc.2⟩) hia)
    · split
      · rename_i hia
        rw [Memory.read_put i b rest j (Memory.read_below hc.2.2.2 (by omega)), Memory.read_cons]
        subst hia
        split <;> rfl
      · rename_i hne
        rw [Memory.read_cons, ih hc.2.2.2, Memory.read_cons]
        by_cases haj : a = j
        · subst haj
          rw [if_pos rfl, if_neg hne, if_pos rfl]
        · rw [if_neg haj, if_neg haj]

/-- A byte after a write is the written one at its index, and the old one elsewhere. -/
theorem Memory.read_write {m : Memory} (h : m.wf = true) (i : Nat) (b : Byte) (j : Nat) :
    (m.write i b).read j = if i = j then b else m.read j := Memory.read_write_from h i b j

/-- Writing bytes in turn keeps the canonical form. -/
theorem Memory.wf_writeList {m : Memory} (h : m.wf = true) (bs : List Byte) {i : Nat} (hi : i + bs.length ≤ 64) :
    (m.writeList i bs).wf = true := by
  induction bs generalizing m i with
  | nil => exact h
  | cons b rest ih =>
    simp only [List.length_cons] at hi
    exact ih (Memory.wf_write h b (by omega)) (by omega)

/-- A byte after writing bytes in turn. -/
theorem Memory.read_writeList {m : Memory} (h : m.wf = true) (bs : List Byte) {i : Nat} (hi : i + bs.length ≤ 64)
    (j : Nat) :
    (m.writeList i bs).read j = if i ≤ j ∧ j < i + bs.length then bs.getD (j - i) 0#8 else m.read j := by
  induction bs generalizing m i with
  | nil =>
    rw [if_neg (by simp only [List.length_nil]; omega)]
    rfl
  | cons b rest ih =>
    simp only [List.length_cons] at hi ⊢
    show Memory.read (Memory.writeList (m.write i b) (i + 1) rest) j = _
    rw [ih (Memory.wf_write h b (by omega)) (by omega), Memory.read_write h]
    by_cases h1 : i + 1 ≤ j ∧ j < i + 1 + rest.length
    · rw [if_pos h1, if_pos (by omega)]
      obtain ⟨k, hk⟩ : ∃ k, j - i = k + 1 := ⟨j - i - 1, by omega⟩
      rw [hk, show j - (i + 1) = k by omega]
      rfl
    · rw [if_neg h1]
      by_cases h2 : i = j
      · subst h2
        rw [if_pos rfl, if_pos (by omega), Nat.sub_self]
        rfl
      · rw [if_neg h2, if_neg (by omega)]

theorem Memory.wfFrom_ofBytesFrom (bs : List Byte) {i : Nat} (hi : i + bs.length ≤ 64) :
    Memory.wfFrom i (Memory.ofBytesFrom i bs) = true := by
  induction bs generalizing i with
  | nil => rfl
  | cons b rest ih =>
    simp only [List.length_cons] at hi
    exact Memory.wfFrom_put (Nat.le_refl _) (by omega) (ih (by omega))

/-- A buffer made from bytes has the canonical form. -/
@[simp] theorem Memory.wf_ofBytes (bs : List Byte) : (Memory.ofBytes bs).wf = true :=
  Memory.wfFrom_mono (Memory.wfFrom_ofBytesFrom (bs.take 64) (by rw [List.length_take]; omega)) (Nat.zero_le _)

theorem Memory.read_ofBytesFrom (bs : List Byte) {i : Nat} (hi : i + bs.length ≤ 64) (j : Nat) :
    (Memory.ofBytesFrom i bs).read j = if i ≤ j then bs.getD (j - i) 0#8 else 0#8 := by
  induction bs generalizing i with
  | nil => simp [Memory.ofBytesFrom]
  | cons b rest ih =>
    simp only [List.length_cons] at hi
    show Memory.read (Memory.put i b (Memory.ofBytesFrom (i + 1) rest)) j = _
    rw [Memory.read_put _ _ _ _ (Memory.read_below (Memory.wfFrom_ofBytesFrom rest (by omega)) (by omega)),
      ih (by omega)]
    by_cases h2 : i = j
    · subst h2
      rw [if_pos rfl, if_pos (Nat.le_refl _), Nat.sub_self]
      rfl
    · rw [if_neg h2]
      by_cases h3 : i ≤ j
      · rw [if_pos (by omega), if_pos h3]
        obtain ⟨k, hk⟩ : ∃ k, j - i = k + 1 := ⟨j - i - 1, by omega⟩
        rw [hk, show j - (i + 1) = k by omega]
        rfl
      · rw [if_neg (by omega), if_neg h3]

/-- A byte of a buffer made from at most 64 bytes. -/
theorem Memory.read_ofBytes (bs : List Byte) (h : bs.length ≤ 64) (j : Nat) :
    (Memory.ofBytes bs).read j = bs.getD j 0#8 := by
  unfold Memory.ofBytes
  rw [List.take_of_length_le h, Memory.read_ofBytesFrom bs (by omega), if_pos (Nat.zero_le _), Nat.sub_zero]

@[simp] theorem Memory.length_slice (m : Memory) (i n : Nat) : (m.slice i n).length = n := by
  simp [Memory.slice]

/-- A byte of a slice. -/
theorem Memory.getD_slice (m : Memory) (i n k : Nat) (h : k < n) : (m.slice i n).getD k 0#8 = m.read (i + k) := by
  simp [Memory.slice, List.getD, h]

theorem Memory.ext_from {lo : Nat} {m n : Memory} (hm : Memory.wfFrom lo m = true) (hn : Memory.wfFrom lo n = true)
    (h : ∀ i, m.read i = n.read i) : m = n := by
  induction m generalizing lo n with
  | nil =>
    cases n with
    | nil => rfl
    | cons c rest =>
      obtain ⟨a, v⟩ := c
      rw [Memory.wfFrom_cons] at hn
      have := h a
      rw [Memory.read_nil, Memory.read_cons, if_pos rfl] at this
      exact absurd this.symm hn.2.2.1
  | cons c rest ih =>
    obtain ⟨a, v⟩ := c
    have hc := (Memory.wfFrom_cons ..).1 hm
    cases n with
    | nil =>
      have := h a
      rw [Memory.read_nil, Memory.read_cons, if_pos rfl] at this
      exact absurd this hc.2.2.1
    | cons d rest' =>
      obtain ⟨a', v'⟩ := d
      have hd := (Memory.wfFrom_cons ..).1 hn
      have haa : a = a' := by
        rcases Nat.lt_trichotomy a a' with hlt | heq | hgt
        · have := h a
          rw [Memory.read_cons, if_pos rfl, Memory.read_below (lo := a')
            ((Memory.wfFrom_cons ..).2 ⟨Nat.le_refl _, hd.2⟩) hlt] at this
          exact absurd this hc.2.2.1
        · exact heq
        · have := h a'
          rw [Memory.read_cons (a := a') (i := a'), if_pos rfl, Memory.read_below (lo := a)
            ((Memory.wfFrom_cons ..).2 ⟨Nat.le_refl _, hc.2⟩) hgt] at this
          exact absurd this.symm hd.2.2.1
      subst haa
      have hv : v = v' := by
        have := h a
        rwa [Memory.read_cons, Memory.read_cons, if_pos rfl, if_pos rfl] at this
      subst hv
      congr 1
      refine ih hc.2.2.2 hd.2.2.2 (fun i => ?_)
      by_cases hi : a = i
      · subst hi
        rw [Memory.read_below hc.2.2.2 (by omega), Memory.read_below hd.2.2.2 (by omega)]
      · have := h i
        rwa [Memory.read_cons, Memory.read_cons, if_neg hi, if_neg hi] at this

/-- Two buffers in canonical form that hold the same bytes are the same data. -/
theorem Memory.ext {m n : Memory} (hm : m.wf = true) (hn : n.wf = true) (h : ∀ i, m.read i = n.read i) : m = n :=
  Memory.ext_from hm hn h

end Sys2Proof.Machine
end

