-- ==== Sys2Proof/Laws/State.lean ====
section
/-!
SUPPORT. Laws/State.lean: one lemma per field for each operation that updates the state, true by rfl.
-/

namespace Sys2Proof.Machine

@[simp] theorem finish_cmd (res freq : Word) (out : List Byte) (s : State) : (finish res freq out s).cmd = s.cmd := rfl
@[simp] theorem finish_status (res freq : Word) (out : List Byte) (s : State) : (finish res freq out s).status = s.status.finished := rfl
@[simp] theorem finish_arg (res freq : Word) (out : List Byte) (s : State) : (finish res freq out s).arg = s.arg := rfl
@[simp] theorem finish_res (res freq : Word) (out : List Byte) (s : State) : (finish res freq out s).res = res := rfl
@[simp] theorem finish_freq (res freq : Word) (out : List Byte) (s : State) : (finish res freq out s).freq = freq := rfl
@[simp] theorem finish_olen (res freq : Word) (out : List Byte) (s : State) : (finish res freq out s).olen = BitVec.ofNat 32 out.length := rfl
@[simp] theorem finish_ibuf (res freq : Word) (out : List Byte) (s : State) : (finish res freq out s).ibuf = s.ibuf := rfl
@[simp] theorem finish_obuf (res freq : Word) (out : List Byte) (s : State) : (finish res freq out s).obuf = Memory.ofBytes out := rfl
@[simp] theorem finish_inputs (res freq : Word) (out : List Byte) (s : State) : (finish res freq out s).inputs = s.inputs := rfl
@[simp] theorem finish_responses (res freq : Word) (out : List Byte) (s : State) : (finish res freq out s).responses = s.responses := rfl
@[simp] theorem finish_wait (res freq : Word) (out : List Byte) (s : State) : (finish res freq out s).wait = s.wait := rfl
@[simp] theorem finish_draws (res freq : Word) (out : List Byte) (s : State) : (finish res freq out s).draws = s.draws := rfl

@[simp] theorem fail_cmd (e : ECode) (s : State) : (fail e s).cmd = s.cmd := rfl
@[simp] theorem fail_status (e : ECode) (s : State) : (fail e s).status = s.status.failed e := rfl
@[simp] theorem fail_arg (e : ECode) (s : State) : (fail e s).arg = s.arg := rfl
@[simp] theorem fail_res (e : ECode) (s : State) : (fail e s).res = 0#32 := rfl
@[simp] theorem fail_freq (e : ECode) (s : State) : (fail e s).freq = 0#32 := rfl
@[simp] theorem fail_olen (e : ECode) (s : State) : (fail e s).olen = 0#32 := rfl
@[simp] theorem fail_ibuf (e : ECode) (s : State) : (fail e s).ibuf = s.ibuf := rfl
@[simp] theorem fail_obuf (e : ECode) (s : State) : (fail e s).obuf = Memory.ofBytes [] := rfl
@[simp] theorem fail_inputs (e : ECode) (s : State) : (fail e s).inputs = s.inputs := rfl
@[simp] theorem fail_responses (e : ECode) (s : State) : (fail e s).responses = s.responses := rfl
@[simp] theorem fail_wait (e : ECode) (s : State) : (fail e s).wait = s.wait := rfl
@[simp] theorem fail_draws (e : ECode) (s : State) : (fail e s).draws = s.draws := rfl

@[simp] theorem accept_cmd (v : Word) (s : State) : (accept v s).cmd = v := rfl
@[simp] theorem accept_status (v : Word) (s : State) : (accept v s).status = s.status.accepted := rfl
@[simp] theorem accept_arg (v : Word) (s : State) : (accept v s).arg = s.arg := rfl
@[simp] theorem accept_res (v : Word) (s : State) : (accept v s).res = s.res := rfl
@[simp] theorem accept_freq (v : Word) (s : State) : (accept v s).freq = s.freq := rfl
@[simp] theorem accept_olen (v : Word) (s : State) : (accept v s).olen = s.olen := rfl
@[simp] theorem accept_ibuf (v : Word) (s : State) : (accept v s).ibuf = s.ibuf := rfl
@[simp] theorem accept_obuf (v : Word) (s : State) : (accept v s).obuf = s.obuf := rfl
@[simp] theorem accept_inputs (v : Word) (s : State) : (accept v s).inputs = s.inputs := rfl
@[simp] theorem accept_responses (v : Word) (s : State) : (accept v s).responses = s.responses := rfl
@[simp] theorem accept_wait (v : Word) (s : State) : (accept v s).wait = Config.latencyPred s.draws := rfl
@[simp] theorem accept_draws (v : Word) (s : State) : (accept v s).draws = s.draws + 1 := rfl

@[simp] theorem dropWrite_cmd (s : State) : (dropWrite s).cmd = s.cmd := rfl
@[simp] theorem dropWrite_status (s : State) : (dropWrite s).status = s.status.overrun := rfl
@[simp] theorem dropWrite_arg (s : State) : (dropWrite s).arg = s.arg := rfl
@[simp] theorem dropWrite_res (s : State) : (dropWrite s).res = s.res := rfl
@[simp] theorem dropWrite_freq (s : State) : (dropWrite s).freq = s.freq := rfl
@[simp] theorem dropWrite_olen (s : State) : (dropWrite s).olen = s.olen := rfl
@[simp] theorem dropWrite_ibuf (s : State) : (dropWrite s).ibuf = s.ibuf := rfl
@[simp] theorem dropWrite_obuf (s : State) : (dropWrite s).obuf = s.obuf := rfl
@[simp] theorem dropWrite_inputs (s : State) : (dropWrite s).inputs = s.inputs := rfl
@[simp] theorem dropWrite_responses (s : State) : (dropWrite s).responses = s.responses := rfl
@[simp] theorem dropWrite_wait (s : State) : (dropWrite s).wait = s.wait := rfl
@[simp] theorem dropWrite_draws (s : State) : (dropWrite s).draws = s.draws := rfl

@[simp] theorem hardReset_cmd (s : State) : (hardReset s).cmd = State.reset.cmd := rfl
@[simp] theorem hardReset_status (s : State) : (hardReset s).status = State.reset.status := rfl
@[simp] theorem hardReset_arg (s : State) : (hardReset s).arg = State.reset.arg := rfl
@[simp] theorem hardReset_res (s : State) : (hardReset s).res = State.reset.res := rfl
@[simp] theorem hardReset_freq (s : State) : (hardReset s).freq = State.reset.freq := rfl
@[simp] theorem hardReset_olen (s : State) : (hardReset s).olen = State.reset.olen := rfl
@[simp] theorem hardReset_ibuf (s : State) : (hardReset s).ibuf = State.reset.ibuf := rfl
@[simp] theorem hardReset_obuf (s : State) : (hardReset s).obuf = State.reset.obuf := rfl
@[simp] theorem hardReset_inputs (s : State) : (hardReset s).inputs = s.inputs := rfl
@[simp] theorem hardReset_responses (s : State) : (hardReset s).responses = s.responses := rfl
@[simp] theorem hardReset_wait (s : State) : (hardReset s).wait = State.reset.wait := rfl
@[simp] theorem hardReset_draws (s : State) : (hardReset s).draws = s.draws := rfl

@[simp] theorem withCommand_cmd (w : Word) (s : State) : (withCommand w s).cmd = w := rfl
@[simp] theorem withCommand_status (w : Word) (s : State) : (withCommand w s).status = s.status.accepted := rfl
@[simp] theorem withCommand_arg (w : Word) (s : State) : (withCommand w s).arg = s.arg := rfl
@[simp] theorem withCommand_res (w : Word) (s : State) : (withCommand w s).res = s.res := rfl
@[simp] theorem withCommand_freq (w : Word) (s : State) : (withCommand w s).freq = s.freq := rfl
@[simp] theorem withCommand_olen (w : Word) (s : State) : (withCommand w s).olen = s.olen := rfl
@[simp] theorem withCommand_ibuf (w : Word) (s : State) : (withCommand w s).ibuf = s.ibuf := rfl
@[simp] theorem withCommand_obuf (w : Word) (s : State) : (withCommand w s).obuf = s.obuf := rfl
@[simp] theorem withCommand_inputs (w : Word) (s : State) : (withCommand w s).inputs = dropResets s.inputs := rfl
@[simp] theorem withCommand_responses (w : Word) (s : State) : (withCommand w s).responses = s.responses := rfl
@[simp] theorem withCommand_wait (w : Word) (s : State) : (withCommand w s).wait = 0 := rfl
@[simp] theorem withCommand_draws (w : Word) (s : State) : (withCommand w s).draws = s.draws := rfl

@[simp] theorem Status.accepted_busy (st : Status) : (st.accepted).busy = true := rfl
@[simp] theorem Status.accepted_done (st : Status) : (st.accepted).done = false := rfl
@[simp] theorem Status.accepted_err (st : Status) : (st.accepted).err = false := rfl
@[simp] theorem Status.accepted_ecode (st : Status) : (st.accepted).ecode = ECode.none := rfl
@[simp] theorem Status.accepted_ovr (st : Status) : (st.accepted).ovr = st.ovr := rfl

@[simp] theorem Status.finished_busy (st : Status) : (st.finished).busy = false := rfl
@[simp] theorem Status.finished_done (st : Status) : (st.finished).done = true := rfl
@[simp] theorem Status.finished_err (st : Status) : (st.finished).err = false := rfl
@[simp] theorem Status.finished_ecode (st : Status) : (st.finished).ecode = ECode.none := rfl
@[simp] theorem Status.finished_ovr (st : Status) : (st.finished).ovr = st.ovr := rfl

@[simp] theorem Status.failed_busy (st : Status) (e : ECode) : (st.failed e).busy = false := rfl
@[simp] theorem Status.failed_done (st : Status) (e : ECode) : (st.failed e).done = true := rfl
@[simp] theorem Status.failed_err (st : Status) (e : ECode) : (st.failed e).err = true := rfl
@[simp] theorem Status.failed_ecode (st : Status) (e : ECode) : (st.failed e).ecode = e := rfl
@[simp] theorem Status.failed_ovr (st : Status) (e : ECode) : (st.failed e).ovr = st.ovr := rfl

@[simp] theorem Status.overrun_busy (st : Status) : (st.overrun).busy = st.busy := rfl
@[simp] theorem Status.overrun_done (st : Status) : (st.overrun).done = st.done := rfl
@[simp] theorem Status.overrun_err (st : Status) : (st.overrun).err = st.err := rfl
@[simp] theorem Status.overrun_ecode (st : Status) : (st.overrun).ecode = st.ecode := rfl
@[simp] theorem Status.overrun_ovr (st : Status) : (st.overrun).ovr = true := rfl

/-- A host write to STATUS changes nothing but OVR. -/
theorem Status.hostWrite_cases (st : Status) (v : Word) :
    st.hostWrite v = st ∨ st.hostWrite v = { st with ovr := false } := by
  unfold Status.hostWrite
  split
  · exact .inr rfl
  · exact .inl rfl

@[simp] theorem Status.hostWrite_busy (st : Status) (v : Word) : (st.hostWrite v).busy = st.busy := by
  rcases st.hostWrite_cases v with h | h <;> rw [h]

@[simp] theorem Status.hostWrite_done (st : Status) (v : Word) : (st.hostWrite v).done = st.done := by
  rcases st.hostWrite_cases v with h | h <;> rw [h]

@[simp] theorem Status.hostWrite_err (st : Status) (v : Word) : (st.hostWrite v).err = st.err := by
  rcases st.hostWrite_cases v with h | h <;> rw [h]

@[simp] theorem Status.hostWrite_ecode (st : Status) (v : Word) : (st.hostWrite v).ecode = st.ecode := by
  rcases st.hostWrite_cases v with h | h <;> rw [h]

end Sys2Proof.Machine
end

