-- ==== Sys2Proof/Laws/Completion.lean ====
section
/-!
SUPPORT. Laws/Completion.lean: what `finish` and `fail` leave, in the terms of Safety.lean, and that every command
ends in exactly one of them (30_encoding.md R47).
-/

namespace Sys2Proof.Machine

theorem finish_kept (res freq : Word) (out : List Byte) (s : State) : Kept s (finish res freq out s) :=
  ⟨rfl, rfl, rfl, rfl, rfl, rfl, rfl, rfl⟩

theorem fail_kept (e : ECode) (s : State) : Kept s (fail e s) := ⟨rfl, rfl, rfl, rfl, rfl, rfl, rfl, rfl⟩

/-- All that `finish` does, for an output that fits OBUF. -/
theorem finish_finished (res freq : Word) (out : List Byte) (s : State) (h : out.length ≤ 64) :
    Finished s (finish res freq out s) res freq out where
  res := rfl
  freq := rfl
  olen := by
    rw [finish_olen, BitVec.toNat_ofNat]
    omega
  obuf := fun i _ => Memory.read_ofBytes out h i
  busy := rfl
  done := rfl
  err := rfl
  ecode := rfl
  kept := finish_kept res freq out s

/-- All that `fail` does. -/
theorem fail_failed (e : ECode) (s : State) : Failed s (fail e s) e where
  res := rfl
  freq := rfl
  olen := rfl
  obuf := fun _ _ => rfl
  busy := rfl
  done := rfl
  err := rfl
  ecode := rfl
  kept := fail_kept e s

/-- How a completion can end: `finish` with an output that fits OBUF, or `fail` with an error code. -/
def Ends (s t : State) : Prop :=
  (∃ res freq out, out.length ≤ 64 ∧ t = finish res freq out s) ∨ (∃ e, e ≠ ECode.none ∧ t = fail e s)

theorem ends_finish (res freq : Word) (out : List Byte) (s : State) (h : out.length ≤ 64) :
    Ends s (finish res freq out s) := .inl ⟨res, freq, out, h, rfl⟩

theorem ends_fail (e : ECode) (s : State) (h : e ≠ .none) : Ends s (fail e s) := .inr ⟨e, h, rfl⟩

@[simp] theorem length_putLe32 (w : Word) : (putLe32 w).length = 4 := rfl

@[simp] theorem length_blockBytes (w : Block) : (blockBytes w).length = 16 := rfl

@[simp] theorem length_parityBytes (p : BitVec 48) : (parityBytes p).length = 6 := rfl

@[simp] theorem length_computedParity (s : State) : (computedParity s).length = 6 := rfl

@[simp] theorem length_ibufBytes (s : State) (i n : Nat) : (ibufBytes s i n).length = n := Memory.length_slice ..

/-- MANENC writes two coded bytes for each data byte (43_manchester.md R88). -/
@[simp] theorem length_manEncode (bs : List Byte) : (manEncode bs).length = 2 * bs.length := by
  induction bs with
  | nil => rfl
  | cons b rest ih =>
    simp only [manEncode, manEncByte, List.length_append, List.length_cons, List.length_nil, ih]
    omega

/-- MANDEC writes one data byte for each two coded bytes (43_manchester.md R88). -/
theorem length_manDecode : ∀ {bs out : List Byte}, manDecode bs = some out → 2 * out.length = bs.length
  | [], out, h => by
    cases h
    rfl
  | [_], _, h => by cases h
  | ch :: cl :: rest, out, h => by
    unfold manDecode at h
    split at h
    · split at h
      · rename_i hr
        cases h
        have := length_manDecode hr
        simp only [List.length_cons]
        omega
      · cases h
    · cases h

/-- Every command completes, and ends in `finish` or `fail` (30_encoding.md R47, R49). -/
theorem exec_ends (i : Instr) (s : State) : ∃ t, exec i s = .next t ∧ Ends s t := by
  cases i with
  | qenc14 | qdec14 | qenc10 | qdec10 | qenc6 | qdec6 | qencs8 | qdecs8 | qencs9 | qdecs9 =>
    exact ⟨_, rfl, ends_finish _ _ _ _ (by decide)⟩
  | whiten | dewhiten | fecenc => exact ⟨_, rfl, ends_finish _ _ _ _ (by simp)⟩
  | fecchk =>
    refine ⟨_, rfl, ?_⟩
    split
    · exact ends_finish _ _ _ _ (by decide)
    · exact ends_fail _ _ (by decide)
  | manenc len =>
    refine ⟨_, rfl, ?_⟩
    split
    · exact ends_fail _ _ (by decide)
    · rename_i h
      refine ends_finish _ _ _ _ ?_
      simp only [length_manEncode, length_ibufBytes]
      unfold manEncMax at h
      omega
  | mandec len =>
    refine ⟨_, rfl, ?_⟩
    split
    · exact ends_fail _ _ (by decide)
    · split
      · exact ends_fail _ _ (by decide)
      · rename_i h
        split
        · rename_i hd
          have := length_manDecode hd
          rw [length_ibufBytes] at this
          unfold manDecMax at h
          exact ends_finish _ _ _ _ (by omega)
        · exact ends_fail _ _ (by decide)
  | fhsel region slot =>
    refine ⟨_, rfl, ?_⟩
    dsimp only
    split
    · exact ends_finish _ _ _ _ (by decide)
    · exact ends_finish _ _ _ _ (by decide)

/-- The same for every choice of the parameters (00_scope.md R7). -/
theorem execWith_ends (p : Params) (i : Instr) (s : State) : ∃ t, execWith p i s = .next t ∧ Ends s t := by
  cases i with
  | whiten | dewhiten => exact ⟨_, rfl, ends_finish _ _ _ _ (by simp)⟩
  | fhsel region slot =>
    refine ⟨_, rfl, ?_⟩
    dsimp only
    split
    · exact ends_finish _ _ _ _ (by decide)
    · exact ends_finish _ _ _ _ (by decide)
  | qenc14 | qdec14 | qenc10 | qdec10 | qenc6 | qdec6 | qencs8 | qdecs8 | qencs9 | qdecs9 =>
    exact ⟨_, rfl, ends_finish _ _ _ _ (by decide)⟩
  | fecenc => exact exec_ends .fecenc s
  | fecchk => exact exec_ends .fecchk s
  | manenc len => exact exec_ends (.manenc len) s
  | mandec len => exact exec_ends (.mandec len) s

/-- A completion step over meanings that all end in `finish` or `fail` ends so, whatever word is in CMD
(30_encoding.md R49). -/
theorem completeBy_ends {meaning : Instr → State → Host.Outcome State Fault Refusal}
    (h : ∀ i s, ∃ t, meaning i s = .next t ∧ Ends s t) (s : State) : ∃ t, completeBy meaning s = .next t ∧ Ends s t := by
  unfold completeBy
  split
  · exact h _ s
  · exact ⟨_, rfl, ends_fail _ _ (by decide)⟩

/-- The completion step ends in `finish` or `fail`, whatever word is in CMD (30_encoding.md R49). -/
theorem complete_ends (s : State) : ∃ t, complete s = .next t ∧ Ends s t := completeBy_ends exec_ends s

theorem Ends.kept {s t : State} (h : Ends s t) : Kept s t := by
  obtain ⟨res, freq, out, _, rfl⟩ | ⟨e, _, rfl⟩ := h
  · exact finish_kept res freq out s
  · exact fail_kept e s

end Sys2Proof.Machine
end

