-- ==== Sys2Proof/Laws/Bus.lean ====
section
/-!
SUPPORT. Laws/Bus.lean: word views of bytes are inverse to each other, and all that one bus access, one input and one
step can do.
-/

namespace Sys2Proof.Machine

/-- `le32` as a number (00_scope.md R10). -/
theorem le32_toNat (b : Nat → Byte) (i : Nat) :
    (le32 b i).toNat =
      (b i).toNat + 256 * (b (i + 1)).toNat + 65536 * (b (i + 2)).toNat + 16777216 * (b (i + 3)).toNat := by
  unfold le32
  have h0 := (b i).isLt
  have h1 := (b (i + 1)).isLt
  have h2 := (b (i + 2)).isLt
  have h3 := (b (i + 3)).isLt
  simp only [BitVec.toNat_or, BitVec.toNat_shiftLeft, BitVec.toNat_setWidth]
  rw [Nat.mod_eq_of_lt (by omega), Nat.mod_eq_of_lt (a := (b (i + 1)).toNat) (by omega),
    Nat.mod_eq_of_lt (a := (b (i + 2)).toNat) (by omega), Nat.mod_eq_of_lt (a := (b (i + 3)).toNat) (by omega)]
  rw [Nat.mod_eq_of_lt, Nat.mod_eq_of_lt, Nat.mod_eq_of_lt]
  rw [Nat.or_comm (b i).toNat, ← Nat.shiftLeft_add_eq_or_of_lt (by omega),
    Nat.or_comm _ ((b (i + 2)).toNat <<< 16), ← Nat.shiftLeft_add_eq_or_of_lt (by simp only [Nat.shiftLeft_eq]; omega),
    Nat.or_comm _ ((b (i + 3)).toNat <<< 24), ← Nat.shiftLeft_add_eq_or_of_lt (by simp only [Nat.shiftLeft_eq]; omega)]
  all_goals simp only [Nat.shiftLeft_eq]; omega

/-- A byte cut out of a word, as a number. -/
theorem byteOf_toNat (w : Word) (k : Nat) : (w.extractLsb' k 8).toNat = w.toNat / 2 ^ k % 256 := by
  simp [BitVec.extractLsb'_toNat, Nat.shiftRight_eq_div_pow]

/-- `put_le32` of a word read with `le32` gives its four bytes back (00_scope.md R10). -/
theorem putLe32_le32 (b : Nat → Byte) (i : Nat) : putLe32 (le32 b i) = [b i, b (i + 1), b (i + 2), b (i + 3)] := by
  have h0 := (b i).isLt
  have h1 := (b (i + 1)).isLt
  have h2 := (b (i + 2)).isLt
  have h3 := (b (i + 3)).isLt
  simp only [putLe32, List.cons.injEq, and_true, ← BitVec.toNat_inj, byteOf_toNat, le32_toNat]
  omega

/-- `le32` of the bytes that `put_le32` writes gives the word back (00_scope.md R10). -/
theorem le32_putLe32 (b : Nat → Byte) (i : Nat) (w : Word)
    (h : ∀ k, k < 4 → b (i + k) = (putLe32 w).getD k 0#8) : le32 b i = w := by
  have e0 : b i = w.extractLsb' 0 8 := h 0 (by omega)
  have e1 : b (i + 1) = w.extractLsb' 8 8 := h 1 (by omega)
  have e2 : b (i + 2) = w.extractLsb' 16 8 := h 2 (by omega)
  have e3 : b (i + 3) = w.extractLsb' 24 8 := h 3 (by omega)
  have hw := w.isLt
  rw [← BitVec.toNat_inj, le32_toNat, e0, e1, e2, e3]
  simp only [byteOf_toNat]
  omega

/-- The offsets of the register map that are IBUF's lie in it (20_memory.md R27). -/
theorem placeOf_ibuf {off i : Nat} (h : placeOf off = .ibuf i) : i + 4 ≤ 64 ∧ off = 0x40 + i := by
  unfold placeOf at h
  repeat' split at h
  all_goals first | (injection h with h; subst h; omega) | exact absurd h (by simp)

/-- The offsets of the register map that are OBUF's lie in it (20_memory.md R27). -/
theorem placeOf_obuf {off i : Nat} (h : placeOf off = .obuf i) : i + 4 ≤ 64 ∧ off = 0x80 + i := by
  unfold placeOf at h
  repeat' split at h
  all_goals first | (injection h with h; subst h; omega) | exact absurd h (by simp)

/-- All that one bus access can do to the state (20_memory.md R31, R33). -/
inductive BusEffect (s : State) : State → Prop where
  | nothing : BusEffect s s
  | accepted (v : Word) (idle : s.status.busy = false) : BusEffect s (accept v s)
  | dropped (busy : s.status.busy = true) : BusEffect s (dropWrite s)
  | status (v : Word) : BusEffect s { s with status := s.status.hostWrite v }
  | arg (v : Word) (idle : s.status.busy = false) : BusEffect s { s with arg := v }
  | ibuf (i : Nat) (v : Word) (idle : s.status.busy = false) (h : i + 4 ≤ 64) :
      BusEffect s { s with ibuf := s.ibuf.writeList i (putLe32 v) }

theorem writeWord_effect (s : State) (off : BitVec 8) (v : Word) : BusEffect s (writeWord s off v) := by
  have key : ∀ t : State, (s.status.busy = false → BusEffect s t) →
      BusEffect s (if s.status.busy = true then dropWrite s else t) := by
    intro t ht
    split
    · exact .dropped ‹_›
    · exact ht (Bool.not_eq_true _ ▸ ‹_›)
  unfold writeWord
  split
  · exact key _ (.accepted v)
  · exact .status v
  · exact key _ (.arg v)
  · rename_i i hp
    exact key _ (fun hb => .ibuf i v hb (placeOf_ibuf hp).1)
  · exact .nothing
  · exact .nothing
  · exact .nothing
  · exact .nothing
  · exact .nothing

theorem busAccess_effect (a : Access) (s : State) : BusEffect s (busAccess a s).2 := by
  cases a with
  | read off width =>
    unfold busAccess
    dsimp only
    split <;> exact .nothing
  | write off width v =>
    unfold busAccess
    dsimp only
    split
    · exact .nothing
    · exact writeWord_effect s off v

/-- A read changes nothing (20_memory.md R30). -/
theorem busAccess_read (off : BitVec 8) (width : Nat) (s : State) : (busAccess (.read off width) s).2 = s := by
  unfold busAccess
  dsimp only
  split <;> rfl

/-- All that one input can do to the state. -/
inductive InputEffect (s : State) : State → Prop where
  | idle (h : s.inputs = []) : InputEffect s s
  /-- A host access acts on `s` with its input taken away and one access fewer to wait, and is answered. -/
  | access (rest : List Input) (a : Access) (h : s.inputs ≠ []) :
      InputEffect s
        { (busAccess a { s with inputs := rest, wait := s.wait - 1 }).2 with
          responses := (busAccess a { s with inputs := rest, wait := s.wait - 1 }).1 :: s.responses }
  /-- A reset; `resp` and `n` are what the host has seen and the free values drawn after it. -/
  | reset (rest : List Input) (resp : List Response) (n : Nat) :
      InputEffect s { State.reset with inputs := rest, responses := resp, draws := n }

theorem takeInput_effect (s : State) : InputEffect s (takeInput s) := by
  unfold takeInput
  split
  · exact .idle ‹_›
  · exact .access _ _ (by simp [*])
  · exact .access _ _ (by simp [*])
  · exact .access _ _ (by simp [*])
  · rename_i ov rest _
    cases ov with
    | none => exact .reset rest _ _
    | some a => exact .reset rest _ _

/-- A completion is due only while a command is in flight. -/
theorem completionDue_busy {s : State} (h : completionDue s = true) : s.status.busy = true := by
  unfold completionDue at h
  exact (Bool.and_eq_true _ _ ▸ h).1

/-- All that one step over meanings that end in `finish` or `fail` can do: it always answers a next state, by a
completion of the command in flight or by one input. -/
theorem stepBy_effect {meaning : Instr → State → Host.Outcome State Fault Refusal}
    (h : ∀ i s, ∃ t, meaning i s = .next t ∧ Ends s t) (s : State) :
    ∃ t, stepBy meaning s = .next t ∧
      ((s.status.busy = true ∧ completionDue s = true ∧ Ends s t) ∨ (completionDue s = false ∧ InputEffect s t)) := by
  by_cases hd : completionDue s = true
  · obtain ⟨t, ht, he⟩ := completeBy_ends h s
    exact ⟨t, by rw [stepBy, if_pos hd, ht], .inl ⟨completionDue_busy hd, hd, he⟩⟩
  · exact ⟨takeInput s, by rw [stepBy, if_neg hd], .inr ⟨by simpa using hd, takeInput_effect s⟩⟩

/-- All that one step can do. -/
theorem step_effect (s : State) :
    ∃ t, step s = .next t ∧
      ((s.status.busy = true ∧ completionDue s = true ∧ Ends s t) ∨ (completionDue s = false ∧ InputEffect s t)) :=
  stepBy_effect exec_ends s

/-- The same for every choice of the parameters (00_scope.md R7). -/
theorem stepWith_effect (p : Params) (s : State) :
    ∃ t, stepWith p s = .next t ∧
      ((s.status.busy = true ∧ completionDue s = true ∧ Ends s t) ∨ (completionDue s = false ∧ InputEffect s t)) :=
  stepBy_effect (execWith_ends p) s

end Sys2Proof.Machine
end

