-- ==== Sys2Proof/Laws/Decode.lean ====
section
/-!
SUPPORT. Laws/Decode.lean: the decoder and the encoder as arithmetic on the command word's number: the fields, the
masked words of 30_encoding.md R45, and the word the encoder makes.
-/

namespace Sys2Proof

/-- A field of a word, by division (00_scope.md R8). -/
theorem bits_eq (c : Word) (lo w : Nat) : bits c lo w = c.toNat / 2 ^ lo % 2 ^ w := by
  unfold bits
  rw [Nat.shiftRight_eq_div_pow]

/-- A mask of high bits keeps the high part. -/
theorem and_shiftLeft_mask (x m n : Nat) : x &&& (m <<< n) = ((x >>> n) &&& m) <<< n := by
  apply Nat.eq_of_testBit_eq
  intro i
  simp only [Nat.testBit_and, Nat.testBit_shiftLeft, Nat.testBit_shiftRight]
  by_cases h : n ≤ i
  · simp [h]
  · simp [h]

/-- A word under the mask of the Manchester rows: LEN is cut out. -/
theorem and_mask_man (c : Word) :
    (c &&& 0xFFFF00FF#32).toNat = c.toNat % 256 + c.toNat / 65536 * 65536 := by
  have hc := c.isLt
  rw [BitVec.toNat_and, show (0xFFFF00FF#32).toNat = (2 ^ 16 - 1) <<< 16 ||| (2 ^ 8 - 1) from rfl,
    Nat.and_or_distrib_left, and_shiftLeft_mask, Nat.and_two_pow_sub_one_eq_mod, Nat.and_two_pow_sub_one_eq_mod,
    ← Nat.shiftLeft_add_eq_or_of_lt (by omega), Nat.shiftRight_eq_div_pow, Nat.shiftLeft_eq]
  omega

/-- A word under the mask of the FHSEL row: REGION and SLOT are cut out. -/
theorem and_mask_fhsel (c : Word) :
    (c &&& 0xFFF8FFFF#32).toNat = c.toNat % 65536 + c.toNat / 524288 * 524288 := by
  have hc := c.isLt
  rw [BitVec.toNat_and, show (0xFFF8FFFF#32).toNat = (2 ^ 13 - 1) <<< 19 ||| (2 ^ 16 - 1) from rfl,
    Nat.and_or_distrib_left, and_shiftLeft_mask, Nat.and_two_pow_sub_one_eq_mod, Nat.and_two_pow_sub_one_eq_mod,
    ← Nat.shiftLeft_add_eq_or_of_lt (by omega), Nat.shiftRight_eq_div_pow, Nat.shiftLeft_eq]
  omega

/-- A word under the mask of any other row: all of it. -/
theorem and_mask_all (c : Word) : c &&& 0xFFFFFFFF#32 = c := BitVec.and_allOnes

theorem Opcode.value_lt (o : Opcode) : o.value < 256 := by cases o <;> decide

@[simp] theorem Opcode.ofField_value (o : Opcode) : Opcode.ofField o.value = some o := by cases o <;> rfl

/-- The mnemonic that an OPCODE field names has that value. -/
theorem Opcode.value_of_ofField {n : Nat} {o : Opcode} (h : Opcode.ofField n = some o) : o.value = n := by
  have := List.find?_some h
  simpa using this

@[simp] theorem Region.ofCode_code (r : Region) : Region.ofCode r.code = r := by cases r <;> rfl

theorem Region.code_lt (r : Region) : r.code < 4 := by cases r <;> decide

theorem Region.code_ofCode {n : Nat} (h : n < 4) : (Region.ofCode n).code = n := by
  match n, h with
  | 0, _ => rfl
  | 1, _ => rfl
  | 2, _ => rfl
  | 3, _ => rfl

/-- The fields of a well-formed command fit (30_encoding.md R42). -/
theorem Instr.fields_lt {i : Instr} (h : WellFormed i) :
    i.lenField < 256 ∧ i.regionField < 4 ∧ i.slotField < 2 := by
  cases i with
  | manenc len => exact ⟨of_decide_eq_true h, Nat.zero_lt_succ _, Nat.zero_lt_succ _⟩
  | mandec len => exact ⟨of_decide_eq_true h, Nat.zero_lt_succ _, Nat.zero_lt_succ _⟩
  | fhsel region slot => exact ⟨Nat.zero_lt_succ _, region.code_lt, of_decide_eq_true h⟩
  | _ => decide

/-- The word the encoder makes, as a number (30_encoding.md R51). -/
theorem encode_toNat {i : Instr} (h : WellFormed i) :
    (encode i).toNat = i.opcode.value + 256 * i.lenField + 65536 * i.regionField + 262144 * i.slotField := by
  obtain ⟨hl, hr, hs⟩ := Instr.fields_lt h
  have ho := i.opcode.value_lt
  unfold encode
  simp only [BitVec.toNat_or, BitVec.toNat_shiftLeft, BitVec.toNat_ofNat]
  rw [Nat.mod_eq_of_lt (a := i.opcode.value) (by omega), Nat.mod_eq_of_lt (a := i.lenField) (by omega),
    Nat.mod_eq_of_lt (a := i.regionField) (by omega), Nat.mod_eq_of_lt (a := i.slotField) (by omega)]
  rw [Nat.mod_eq_of_lt (by simp only [Nat.shiftLeft_eq]; omega), Nat.mod_eq_of_lt (by simp only [Nat.shiftLeft_eq]; omega),
    Nat.mod_eq_of_lt (by simp only [Nat.shiftLeft_eq]; omega)]
  rw [Nat.or_comm i.opcode.value, ← Nat.shiftLeft_add_eq_or_of_lt (by omega),
    Nat.or_comm _ (i.regionField <<< 16), ← Nat.shiftLeft_add_eq_or_of_lt (by simp only [Nat.shiftLeft_eq]; omega),
    Nat.or_comm _ (i.slotField <<< 18), ← Nat.shiftLeft_add_eq_or_of_lt (by simp only [Nat.shiftLeft_eq]; omega)]
  simp only [Nat.shiftLeft_eq]
  omega

end Sys2Proof
end

