-- ==== Sys2Proof/Laws/HostScript.lean ====
section
/-!
SUPPORT. Laws/HostScript.lean: all that READ's result can be.
-/

namespace Sys2Proof.Machine

/-- Answers that are all words give the words' bytes in order. -/
theorem answerBytes_words (ws : List Word) : answerBytes (ws.map Response.readData) = some (ws.flatMap putLe32) := by
  induction ws with
  | nil => rfl
  | cons w ws ih => rw [List.map_cons, answerBytes, ih, List.flatMap_cons]

/-- There are bytes only when every answer is a word. -/
theorem words_of_answerBytes {answers : List Response} {bytes : List Byte} (h : answerBytes answers = some bytes) :
    ∃ ws : List Word, answers = ws.map Response.readData ∧ bytes = ws.flatMap putLe32 := by
  induction answers generalizing bytes with
  | nil => exact ⟨[], rfl, (Option.some.inj h).symm⟩
  | cons r rest ih =>
    cases r with
    | readData v =>
      rw [answerBytes] at h
      split at h
      · rename_i bs hb
        obtain ⟨ws, rfl, rfl⟩ := ih hb
        exact ⟨v :: ws, rfl, (Option.some.inj h).symm⟩
      · cases h
    | writeOk | busError => cases h

/-- READ has a result exactly when all its `ceil(n/4)` answers have come and are words; it is then the first `n` of
their bytes (30_encoding.md R52). -/
theorem readResult_eq_some {n : Nat} {answers : List Response} {bytes : List Byte} :
    readResult n answers = some bytes ↔
      ∃ ws : List Word, ws.length = wordsFor n ∧ answers = ws.map Response.readData ∧
        bytes = (ws.flatMap putLe32).take n := by
  unfold readResult
  constructor
  · intro h
    split at h
    · rename_i hl
      split at h
      · rename_i bs hb
        obtain ⟨ws, rfl, rfl⟩ := words_of_answerBytes hb
        exact ⟨ws, by simpa using hl, rfl, (Option.some.inj h).symm⟩
      · cases h
    · cases h
  · rintro ⟨ws, hl, rfl, rfl⟩
    rw [if_pos (by simpa using hl), answerBytes_words]

/-- The words of `put_le32` laid out in a row: byte `i` is byte `i % 4` of word `i / 4` (20_memory.md R34). -/
theorem flatMap_putLe32_getElem? (ws : List Word) (i : Nat) :
    (ws.flatMap putLe32)[i]? = ws[i / 4]?.map (fun w => w.extractLsb' (8 * (i % 4)) 8) := by
  induction ws generalizing i with
  | nil => simp
  | cons w ws ih =>
    rw [List.flatMap_cons]
    by_cases h : i < 4
    · obtain rfl | rfl | rfl | rfl : i = 0 ∨ i = 1 ∨ i = 2 ∨ i = 3 := by omega
      all_goals rfl
    · obtain ⟨j, rfl⟩ : ∃ j, i = j + 4 := ⟨i - 4, by omega⟩
      rw [List.getElem?_append_right (by simp [putLe32])]
      simp only [putLe32, List.length_cons, List.length_nil]
      rw [show j + 4 - (0 + 1 + 1 + 1 + 1) = j by omega, ih, show (j + 4) / 4 = j / 4 + 1 by omega,
        show (j + 4) % 4 = j % 4 by omega, List.getElem?_cons_succ]

@[simp] theorem expand_read_length (k n : Nat) : (HostStmt.read k n).expand.length = wordsFor n := by
  simp [HostStmt.expand]

/-- A program of one READ has that READ's result. -/
theorem programResults_read (k n : Nat) (answers : List Response) :
    programResults [.read k n] answers = [readResult n (answers.take (wordsFor n))] := rfl

end Sys2Proof.Machine
end

