-- ==== Sys2Proof/Laws/PerInstr.lean ====
section
/-!
SUPPORT. Laws/PerInstr.lean: the family EncodedFields, one lemma per constructor of Instr: the word of a well-formed
command matches its own row of spec/opcode_table.json (30_encoding.md R45).
-/

namespace Sys2Proof.Laws.EncodedFields

/-- The encoded word of `i`, if `i` is well formed, matches the row of its mnemonic. -/
def Statement (i : Instr) : Prop := WellFormed i → encode i &&& i.opcode.mask = i.opcode.pattern

theorem qenc14 : Statement .qenc14 := fun _ => by decide

theorem qdec14 : Statement .qdec14 := fun _ => by decide

theorem qenc10 : Statement .qenc10 := fun _ => by decide

theorem qdec10 : Statement .qdec10 := fun _ => by decide

theorem qenc6 : Statement .qenc6 := fun _ => by decide

theorem qdec6 : Statement .qdec6 := fun _ => by decide

theorem qencs8 : Statement .qencs8 := fun _ => by decide

theorem qdecs8 : Statement .qdecs8 := fun _ => by decide

theorem qencs9 : Statement .qencs9 := fun _ => by decide

theorem qdecs9 : Statement .qdecs9 := fun _ => by decide

theorem whiten : Statement .whiten := fun _ => by decide

theorem dewhiten : Statement .dewhiten := fun _ => by decide

theorem fecenc : Statement .fecenc := fun _ => by decide

theorem fecchk : Statement .fecchk := fun _ => by decide

theorem manenc (len : Nat) : Statement (.manenc len) := fun h => by
  have hl := (Instr.fields_lt h).1
  have he := encode_toNat h
  rw [← BitVec.toNat_inj]
  show (encode (.manenc len) &&& 0xFFFF00FF#32).toNat = 0x40
  rw [and_mask_man, he]
  simp only [Instr.opcode, Opcode.value, Instr.lenField, Instr.regionField, Instr.slotField] at hl ⊢
  omega

theorem mandec (len : Nat) : Statement (.mandec len) := fun h => by
  have hl := (Instr.fields_lt h).1
  have he := encode_toNat h
  rw [← BitVec.toNat_inj]
  show (encode (.mandec len) &&& 0xFFFF00FF#32).toNat = 0x41
  rw [and_mask_man, he]
  simp only [Instr.opcode, Opcode.value, Instr.lenField, Instr.regionField, Instr.slotField] at hl ⊢
  omega

theorem fhsel (region : Region) (slot : Nat) : Statement (.fhsel region slot) := fun h => by
  have hf := Instr.fields_lt h
  have he := encode_toNat h
  rw [← BitVec.toNat_inj]
  show (encode (.fhsel region slot) &&& 0xFFF8FFFF#32).toNat = 0x50
  rw [and_mask_fhsel, he]
  simp only [Instr.opcode, Opcode.value, Instr.lenField, Instr.regionField, Instr.slotField] at hf ⊢
  omega

end Sys2Proof.Laws.EncodedFields
end

