-- ==== Sys2Proof/Laws/Run.lean ====
section
/-!
SUPPORT. Laws/Run.lean: several steps of the machine, one after another.
-/

namespace Sys2Proof.Machine

theorem run_zero (s : State) : Sys2Proof.core.run 0 s = .next s := rfl

/-- A run of one step more, when the first step answers a next state. -/
theorem run_succ {s t : State} (h : step s = .next t) (n : Nat) :
    Sys2Proof.core.run (n + 1) s = Sys2Proof.core.run n t := by
  have hs : Sys2Proof.core.step s = .next t := h
  exact (Host.Core.run.eq_2 Sys2Proof.core s n).trans (by rw [hs])

/-- The step when no completion is due: the first input acts. -/
theorem step_of_not_due {s : State} (h : completionDue s = false) : step s = .next (takeInput s) := by
  simp [step, stepUnit, stepBy, h]

/-- The step when the completion is due. -/
theorem step_of_due {s : State} (h : completionDue s = true) : step s = complete s := by
  simp [step, stepUnit, stepBy, complete, h]

end Sys2Proof.Machine
end

