-- ==== Sys2Proof/Laws/Units.lean ====
section
/-!
SUPPORT. Laws/Units.lean: what the shared operations of the five units give, one lemma per operation, so that a proof
about a command need not unfold them.
-/

namespace Sys2Proof.Machine

/-! ### Operands -/

theorem ibufWord_congr {s t : State} {j : Nat} (h : ∀ k, 4 * j ≤ k → k < 4 * j + 4 → s.ibuf.read k = t.ibuf.read k) :
    ibufWord s j = ibufWord t j := by
  simp only [ibufWord, le32, ibufByte]
  rw [h _ (by omega) (by omega), h _ (by omega) (by omega), h _ (by omega) (by omega), h _ (by omega) (by omega)]

theorem ibufBytes_congr {s t : State} {i n : Nat} (h : ∀ j, j < n → s.ibuf.read (i + j) = t.ibuf.read (i + j)) :
    ibufBytes s i n = ibufBytes t i n :=
  List.map_congr_left fun j hj => h j (List.mem_range.1 hj)

theorem getD_ibufBytes (s : State) (i n k : Nat) (h : k < n) : (ibufBytes s i n).getD k 0#8 = s.ibuf.read (i + k) :=
  Memory.getD_slice _ _ _ _ h

/-! ### The quantiser -/

/-- The `|` of a band code is a sum, since the mantissa fits under the band bits. -/
theorem bandCode_eq {V : Variant} {k v : Nat} {b : Band} (h : (v - b.low) / 2 ^ k < 2 ^ V.mantBits) :
    bandCode V k b v = 2 ^ V.mantBits * k + (v - b.low) / 2 ^ k := by
  rw [bandCode, Nat.shiftRight_eq_div_pow, ← Nat.shiftLeft_add_eq_or_of_lt h, Nat.shiftLeft_eq, Nat.mul_comm]

/-! ### The whitener -/

theorem roundInv_roundFwd (f : Word → Word → Word) (s : Word) (v : Word × Word) :
    roundInv f s (roundFwd f s v) = v := by
  obtain ⟨a, b⟩ := v
  simp only [roundInv, roundFwd, BitVec.add_sub_cancel]

theorem roundFwd_roundInv (f : Word → Word → Word) (s : Word) (v : Word × Word) :
    roundFwd f s (roundInv f s v) = v := by
  obtain ⟨a, b⟩ := v
  simp only [roundInv, roundFwd, BitVec.sub_add_cancel]

/-- Byte `k` of word `j` of a payload's bytes. -/
theorem getD_blockBytes (w : Block) (j : Fin 4) (k : Nat) (hk : k < 4) :
    (blockBytes w).getD (4 * j + k) 0#8 = (putLe32 (blockWord w j)).getD k 0#8 := by
  have hk : k = 0 ∨ k = 1 ∨ k = 2 ∨ k = 3 := by omega
  match j with
  | 0 | 1 | 2 | 3 => rcases hk with rfl | rfl | rfl | rfl <;> rfl

/-- Word `j` of the payload in IBUF. -/
theorem blockWord_ibufBlock (s : State) (j : Fin 4) : blockWord (ibufBlock s) j = ibufWord s j := by
  match j with
  | 0 | 1 | 2 | 3 => rfl

theorem blockWord_setBlockWord (w : Block) (i j : Fin 4) (v : Word) :
    blockWord (setBlockWord w i v) j = if i = j then v else blockWord w j := by
  match i, j with
  | 0, 0 | 0, 1 | 0, 2 | 0, 3 | 1, 0 | 1, 1 | 1, 2 | 1, 3 => rfl
  | 2, 0 | 2, 1 | 2, 2 | 2, 3 | 3, 0 | 3, 1 | 3, 2 | 3, 3 => rfl

/-- Payloads with equal words are equal. -/
theorem block_ext {v w : Block} (h : ∀ j, blockWord v j = blockWord w j) : v = w := by
  obtain ⟨v0, v1, v2, v3⟩ := v
  obtain ⟨w0, w1, w2, w3⟩ := w
  have h0 : v0 = w0 := h 0
  have h1 : v1 = w1 := h 1
  have h2 : v2 = w2 := h 2
  have h3 : v3 = w3 := h 3
  rw [h0, h1, h2, h3]

/-- A round on the default pairing, word by word. -/
theorem onPairs_halves (g : Word × Word → Word × Word) (a b c d : Word) :
    onPairs halves g ⟨a, b, c, d⟩ = ⟨(g (a, b)).1, (g (a, b)).2, (g (c, d)).1, (g (c, d)).2⟩ := rfl

/-- Forward rounds on the default pairing are forward rounds of each half. -/
theorem roundsFwd_halves (g : Word → Word × Word → Word × Word) (n : Nat) (sum : Word) (x y : Word × Word) :
    roundsFwd (fun s => onPairs halves (g s)) n sum ⟨x.1, x.2, y.1, y.2⟩ =
      ⟨(roundsFwd g n sum x).1, (roundsFwd g n sum x).2, (roundsFwd g n sum y).1, (roundsFwd g n sum y).2⟩ := by
  induction n generalizing sum x y with
  | zero => rfl
  | succ n ih => exact ih _ (g _ x) (g _ y)

/-- Inverse rounds on the default pairing are inverse rounds of each half. -/
theorem roundsInv_halves (g : Word → Word × Word → Word × Word) (n : Nat) (sum : Word) (x y : Word × Word) :
    roundsInv (fun s => onPairs halves (g s)) n sum ⟨x.1, x.2, y.1, y.2⟩ =
      ⟨(roundsInv g n sum x).1, (roundsInv g n sum x).2, (roundsInv g n sum y).1, (roundsInv g n sum y).2⟩ := by
  induction n generalizing sum x y with
  | zero => rfl
  | succ n ih => exact ih _ (g _ x) (g _ y)

/-- 41_whitener.md R73: under the default WHITEN_ROUND, a whitened payload is TEA_FWD of each half. -/
theorem whitenBlock_default (w : Block) :
    whitenBlock whitenRoundDefault w =
      ⟨(teaFwd teaMix w.w0 w.w1).1, (teaFwd teaMix w.w0 w.w1).2, (teaFwd teaMix w.w2 w.w3).1,
        (teaFwd teaMix w.w2 w.w3).2⟩ :=
  roundsFwd_halves (roundFwd teaMix) whitenRounds 0#32 (w.w0, w.w1) (w.w2, w.w3)

/-- 41_whitener.md R74: under the default WHITEN_ROUND, a de-whitened payload is TEA_INV of each half. -/
theorem dewhitenBlock_default (w : Block) :
    dewhitenBlock whitenRoundDefault w =
      ⟨(teaInv teaMix w.w0 w.w1).1, (teaInv teaMix w.w0 w.w1).2, (teaInv teaMix w.w2 w.w3).1,
        (teaInv teaMix w.w2 w.w3).2⟩ :=
  roundsInv_halves (roundInv teaMix) whitenRounds whitenSumEnd (w.w0, w.w1) (w.w2, w.w3)

/-! ### The FEC -/

/-- 42_fec.md R76: bit `j` of the bytes is bit `j mod 8` of byte `j div 8`. -/
theorem testBit_bytesToNat (bs : List Byte) (j : Nat) :
    (bytesToNat bs).testBit j = (bs.getD (j / 8) 0#8).getLsbD (j % 8) := by
  induction bs generalizing j with
  | nil => simp [bytesToNat]
  | cons b rest ih =>
    rw [bytesToNat, Nat.add_comm, show 256 = 2 ^ 8 from rfl, Nat.testBit_two_pow_mul_add _ b.isLt]
    by_cases h : j < 8
    · rw [if_pos h, Nat.div_eq_of_lt h, Nat.mod_eq_of_lt h]; rfl
    · rw [if_neg h, ih]
      obtain ⟨k, rfl⟩ : ∃ k, j = k + 8 := ⟨j - 8, by omega⟩
      simp [show (k + 8) / 8 = k / 8 + 1 by omega, show (k + 8) % 8 = k % 8 by omega]

theorem getLsbD_dataBits (s : State) (j : Nat) (h : j < 160) :
    (dataBits (ibufBytes s 0 20)).getLsbD j = (s.ibuf.read (j / 8)).getLsbD (j % 8) := by
  rw [dataBits, BitVec.getLsbD_ofNat, testBit_bytesToNat, getD_ibufBytes _ _ _ _ (by omega)]
  simp [h]

theorem getD_parityBytes (p : BitVec 48) (k : Nat) (h : k < 6) :
    (parityBytes p).getD k 0#8 = p.extractLsb' (8 * k) 8 := by
  simp [parityBytes, List.getD, h]

theorem flipBit_ne (d : BitVec 160) (j : Nat) (hj : j < 160) : flipBit d j ≠ d := by
  intro h
  have := congrArg (fun x => x.getLsbD j) h
  rw [flipBit, BitVec.getLsbD_xor, BitVec.getLsbD_ofNat, Nat.testBit_two_pow_self] at this
  generalize d.getLsbD j = b at this
  cases b <;> simp [hj] at this

theorem fecParityRaw_or_witness :
    (fecAdmissible Config.fecParityRaw = true ∧ fecParity = Config.fecParityRaw) ∨ fecParity = fecWitness := by
  by_cases h : fecAdmissible Config.fecParityRaw = true
  · exact .inl ⟨h, funext fun d => if_pos h⟩
  · exact .inr (funext fun d => if_neg h)

/-- 42_fec.md R78: what is known of FEC_PARITY, whatever it is. -/
theorem fecParity_admissible : fecAdmissible fecParity = true := by
  rcases fecParityRaw_or_witness with ⟨h, e⟩ | e
  · rw [e]; exact h
  · rw [e, fecAdmissible, Bool.and_eq_true]
    refine ⟨by simp [fecWitness], List.all_eq_true.2 fun j hj => decide_eq_true ?_⟩
    rw [fecWitness, if_neg (flipBit_ne _ j (List.mem_range.1 hj))]
    decide

/-- FEC_PARITY of the golden block. -/
theorem fecParity_golden : fecParity (dataBits goldenBlock) = goldenParityBits := by
  have := fecParity_admissible
  rw [fecAdmissible, Bool.and_eq_true] at this
  exact of_decide_eq_true this.1

/-- The parity bytes of a buffer that starts with the golden block. -/
theorem computedParity_golden {s : State} (h : ibufBytes s 0 20 = goldenBlock) : computedParity s = goldenParity := by
  rw [computedParity, h, fecParity_golden]
  decide

/-! ### The line coder -/

/-- The two coded bytes of byte `i`. -/
theorem getD_manEncode (bs : List Byte) (i : Nat) (h : i < bs.length) :
    (manEncode bs).getD (2 * i) 0#8 = manT ((bs.getD i 0#8).toNat / 16) ∧
      (manEncode bs).getD (2 * i + 1) 0#8 = manT ((bs.getD i 0#8).toNat % 16) := by
  induction bs generalizing i with
  | nil => simp at h
  | cons b rest ih =>
    cases i with
    | zero => exact ⟨rfl, rfl⟩
    | succ i => exact ih i (by simpa using h)

/-! ### The hop selector -/

/-- The increment of a channel stays below the count, and moves it. -/
theorem hopWrap_succ {n h : Nat} (hn : 3 ≤ n) (hh : h < n) : hopWrap n (h + 1) < n ∧ hopWrap n (h + 1) ≠ h := by
  unfold hopWrap; split <;> omega

theorem chanSlot0_lt (hash : Word → Word) {n : Nat} (t : Word) (hn : 3 ≤ n) : chanSlot0 hash n t < n :=
  (hopWrap_succ hn (Nat.mod_lt _ (by omega))).1

theorem chanSlot1Start_lt (hash : Word → Word) (plus1 : Bool) {n : Nat} (t : Word) (hn : 3 ≤ n) :
    chanSlot1Start hash plus1 n t < n := by
  have h := Nat.mod_lt (hash ((t <<< 1) + 1#32)).toNat (show n > 0 by omega)
  cases plus1
  · exact h
  · exact (hopWrap_succ hn h).1

end Sys2Proof.Machine
end

