-- ==== Sys2Proof/Tests/Slice0.lean ====
section
/-!
SUPPORT. Tests/Slice0.lean: small tests, their expected values from the spec's encodings and from 95_test_vectors.md
(named by their numbers there), and for each statement with hypotheses a witness that meets them.
-/

namespace Sys2Proof.Tests

open Sys2Proof Sys2Proof.Machine Sys2Proof.Claim

/-! ### Helpers -/

/-- The reset state with this ARG, and with these bytes from IBUF[0] on. -/
def start (arg : Word) (bytes : List Byte) : State := { State.reset with arg := arg, ibuf := Memory.ofBytes bytes }

/-- `s` with the command word `v` in flight, and `wait` host accesses to come before its completion. -/
def inFlight (v : Word) (wait : Nat) (s : State) : State :=
  { s with cmd := v, status := s.status.accepted, wait := wait }

/-- The state after a step that has one, else the state before it. -/
def after (s : State) : Host.Outcome State Fault Refusal → State
  | .next t => t
  | .fault _ => s
  | .refused _ => s

/-- The state after command `i`. -/
def done (i : Instr) (s : State) : State := after s (exec i s)

/-- RES after command `i` with this ARG. -/
def resOf (i : Instr) (arg : Word) : Word := (done i (start arg [])).res

/-- RES and FREQ after FHSEL. -/
def hopOf (r : Region) (slot : Nat) (arg : Word) : Word × Word :=
  ((done (.fhsel r slot) (start arg [])).res, (done (.fhsel r slot) (start arg [])).freq)

/-- STATUS, OLEN and the first `n` bytes of OBUF after command `i` on these IBUF bytes. -/
def outOf (i : Instr) (n : Nat) (bytes : List Byte) : Word × Word × List Byte :=
  let t := done i (start 0#32 bytes)
  (t.status.word, t.olen, t.obuf.slice 0 n)

/-- The next step's state. -/
def stepped (s : State) : State := after s (step s)

/-! ### Well-formedness: each check refuses an ill-formed term -/

theorem test_wf_refuses_manenc_256 : (Instr.manenc 256).wf = false := by decide

theorem test_wf_refuses_mandec_256 : (Instr.mandec 256).wf = false := by decide

theorem test_wf_refuses_fhsel_slot_2 : (Instr.fhsel .europe 2).wf = false := by decide

/-! ### Decoding: words written out from 30_encoding.md R42 to R45 -/

theorem test_decode_quantiser_unsigned :
    decode 0x00000010#32 = .ok .qenc14 ∧ decode 0x00000011#32 = .ok .qdec14 ∧
      decode 0x00000012#32 = .ok .qenc10 ∧ decode 0x00000013#32 = .ok .qdec10 ∧
      decode 0x00000014#32 = .ok .qenc6 ∧ decode 0x00000015#32 = .ok .qdec6 := by
  exact ⟨rfl, rfl, rfl, rfl, rfl, rfl⟩

theorem test_decode_quantiser_signed :
    decode 0x00000016#32 = .ok .qencs8 ∧ decode 0x00000017#32 = .ok .qdecs8 ∧
      decode 0x00000018#32 = .ok .qencs9 ∧ decode 0x00000019#32 = .ok .qdecs9 := by
  exact ⟨rfl, rfl, rfl, rfl⟩

theorem test_decode_block_commands :
    decode 0x00000020#32 = .ok .whiten ∧ decode 0x00000021#32 = .ok .dewhiten ∧
      decode 0x00000030#32 = .ok .fecenc ∧ decode 0x00000031#32 = .ok .fecchk := by
  exact ⟨rfl, rfl, rfl, rfl⟩

/-- LEN = 0x1A in bits 15:8, and LEN = 0xFF. -/
theorem test_decode_line_coder :
    decode 0b00000000000000000001101001000000#32 = .ok (.manenc 26) ∧
      decode 0b00000000000000001111111101000001#32 = .ok (.mandec 255) := by
  exact ⟨rfl, rfl⟩

/-- REGION in bits 17:16, SLOT in bit 18. -/
theorem test_decode_fhsel :
    decode 0b00000000000000100000000001010000#32 = .ok (.fhsel .australia 0) ∧
      decode 0b00000000000001010000000001010000#32 = .ok (.fhsel .northAmerica 1) ∧
      decode 0x00070050#32 = .ok (.fhsel .asia 1) ∧ decode 0x00040050#32 = .ok (.fhsel .europe 1) := by
  exact ⟨rfl, rfl, rfl, rfl⟩

/-- X1 to X6. -/
theorem test_decode_rejects :
    legal 0x00000000#32 = false ∧ legal 0x00000110#32 = false ∧ legal 0x80000010#32 = false ∧
      legal 0x00010040#32 = false ∧ legal 0x00000150#32 = false ∧ legal 0x00080050#32 = false ∧
      legal 0x00000099#32 = false := by decide

theorem test_encode : encode (.manenc 26) = 0x00001A40#32 ∧ encode (.fhsel .northAmerica 1) = 0x00050050#32 := by decide

theorem test_decodeTableWord :
    decodeTableWord 32 0x50 = some (.fhsel .europe 0) ∧ decodeTableWord 8 0x20 = some .whiten ∧
      decodeTableWord 40 0x20 = none := by decide

/-- The rows of 30_encoding.md R45 overlap nowhere: no two mnemonics have the same value. -/
theorem test_opcode_values_differ : (Opcode.all.map Opcode.value).Pairwise (· ≠ ·) := by decide

/-! ### The quantiser: 95_test_vectors.md L2 -/

theorem test_qenc14 :
    resOf .qenc14 12345#32 = 0x200E#32 ∧ resOf .qenc14 28672#32 = 0x3000#32 ∧ resOf .qenc14 61439#32 = 0x3FFF#32 ∧
      resOf .qenc14 0xFFFFFFFF#32 = 0x3FFF#32 := by decide

theorem test_qdec14 :
    resOf .qdec14 0x200E#32 = 12346#32 ∧ resOf .qdec14 0x3FFF#32 = 61436#32 ∧ resOf .qdec14 0xFFFFC000#32 = 0#32 := by
  decide

theorem test_qenc10 :
    resOf .qenc10 258#32 = 0x101#32 ∧ resOf .qenc10 1000#32 = 0x23A#32 ∧ resOf .qenc10 3840#32 = 0x3FF#32 := by decide

theorem test_qdec10 : resOf .qdec10 0x23A#32 = 1002#32 ∧ resOf .qdec10 0x3FF#32 = 3836#32 := by decide

theorem test_qenc6 :
    resOf .qenc6 47#32 = 0x1F#32 ∧ resOf .qenc6 100#32 = 0x2D#32 ∧ resOf .qenc6 240#32 = 0x3F#32 := by decide

theorem test_qdec6 : resOf .qdec6 0x2D#32 = 102#32 ∧ resOf .qdec6 0x3F#32 = 236#32 := by decide

/-- -100, -1000 and -2^31. -/
theorem test_qencs8 :
    resOf .qencs8 34#32 = 0x21#32 ∧ resOf .qencs8 0xFFFFFF9C#32 = 0xC1#32 ∧ resOf .qencs8 0xFFFFFC18#32 = 0xFF#32 ∧
      resOf .qencs8 0x80000000#32 = 0xFF#32 := by decide

theorem test_qdecs8 :
    resOf .qdecs8 0x7F#32 = 476#32 ∧ resOf .qdecs8 0xFF#32 = 0xFFFFFE24#32 ∧ resOf .qdecs8 0x80#32 = 0#32 := by decide

/-- 300, -150 and -2^31. -/
theorem test_qencs9 :
    resOf .qencs9 300#32 = 0x9B#32 ∧ resOf .qencs9 0xFFFFFF6A#32 = 0x16B#32 ∧
      resOf .qencs9 0x80000000#32 = 0x1FF#32 := by decide

theorem test_qdecs9 :
    resOf .qdecs9 0x0FF#32 = 956#32 ∧ resOf .qdecs9 0x1FF#32 = 0xFFFFFC44#32 ∧ resOf .qdecs9 0x100#32 = 0#32 := by
  decide

/-! ### The whitener: W3, W5, W9, W12 -/

/-- The payload of W3. -/
def payload : List Byte :=
  [0x22#8, 0x11#8, 0xFF#8, 0xEE#8, 0x66#8, 0x55#8, 0x44#8, 0x33#8,
   0xAA#8, 0x99#8, 0x88#8, 0x77#8, 0x5D#8, 0x3C#8, 0x2B#8, 0x1A#8]

/-- Its whitened bytes. -/
def whitened : List Byte :=
  [0x1C#8, 0x53#8, 0xD6#8, 0x37#8, 0xF3#8, 0x0B#8, 0x02#8, 0x96#8,
   0xF4#8, 0x77#8, 0xCC#8, 0xD0#8, 0xBA#8, 0x0A#8, 0x6B#8, 0x0E#8]

set_option maxRecDepth 2000 in
theorem test_whiten : outOf .whiten 16 payload = (0x00000002#32, 16#32, whitened) := by decide

/-- The round trace's last row: TEA_FWD(0, 0). -/
theorem test_whiten_trace : teaFwd teaMix 0#32 0#32 = (0xED285DA1#32, 0x455B33C1#32) := by decide

set_option maxRecDepth 2000 in
theorem test_dewhiten : outOf .dewhiten 16 whitened = (0x00000002#32, 16#32, payload) := by decide

set_option maxRecDepth 2000 in
/-- W12. -/
theorem test_dewhiten_payload :
    outOf .dewhiten 16 payload = (0x00000002#32, 16#32,
      [0x5B#8, 0x38#8, 0xC3#8, 0xF1#8, 0xDB#8, 0x00#8, 0xD8#8, 0x83#8,
       0x8B#8, 0x34#8, 0xFE#8, 0x6D#8, 0x30#8, 0x70#8, 0x28#8, 0xA6#8]) := by decide

/-! ### The FEC: F1, F2, F5 -/

theorem test_golden_bytes : ibufBytes (start 0#32 goldenBlock) 0 20 = goldenBlock := by decide

/-- F1. -/
theorem test_fecenc : outOf .fecenc 6 goldenBlock = (0x00000002#32, 6#32, goldenParity) := by
  have e : exec .fecenc (start 0#32 goldenBlock) = .next (finish 0#32 0#32 goldenParity (start 0#32 goldenBlock)) := by
    rw [← computedParity_golden test_golden_bytes]; rfl
  rw [outOf, done, e]
  decide

/-- The golden block and its parity. -/
def goldenFrame : State := start 0#32 (goldenBlock ++ goldenParity)

theorem golden_frame_bytes : ibufBytes goldenFrame 0 20 = goldenBlock := by decide

/-- F2. -/
theorem test_fecchk_match : exec .fecchk goldenFrame = .next (finish 1#32 0#32 [] goldenFrame) := by
  have e : computedParity goldenFrame = ibufBytes goldenFrame 20 6 :=
    (computedParity_golden golden_frame_bytes).trans (by decide)
  show Host.Outcome.next _ = _
  rw [if_pos e]

/-- The golden block with one parity bit flipped, as F5. -/
def badParity : State := start 0#32 (goldenBlock ++ [0xF9#8, 0x07#8, 0x8C#8, 0x66#8, 0xA2#8, 0x15#8])

/-- F5. -/
theorem test_fecchk_mismatch : exec .fecchk badParity = .next (fail .fecMismatch badParity) := by
  have e : computedParity badParity ≠ ibufBytes badParity 20 6 := by
    rw [computedParity_golden (by decide)]; decide
  show Host.Outcome.next _ = _
  rw [if_neg e]

/-! ### The line coder: M1, M4, M6, M8, M11, M14 -/

theorem test_manenc :
    outOf (.manenc 6) 12 [0x00#8, 0xFF#8, 0x5A#8, 0xA5#8, 0x12#8, 0x34#8] = (0x00000002#32, 12#32,
      [0xAA#8, 0xAA#8, 0x55#8, 0x55#8, 0x99#8, 0x66#8, 0x66#8, 0x99#8, 0xA9#8, 0xA6#8, 0xA5#8, 0x9A#8]) := by decide

theorem test_manenc_lengths :
    outOf (.manenc 0) 2 [0x1E#8] = (0x00000002#32, 0#32, [0#8, 0#8]) ∧
      outOf (.manenc 33) 1 [0x1E#8] = (0x00000026#32, 0#32, [0#8]) ∧
      (done (.manenc 32) (start 0#32 [0x1E#8])).olen = 64#32 := by decide

theorem test_mandec :
    outOf (.mandec 8) 5 [0xAA#8, 0x66#8, 0x55#8, 0xA5#8, 0x96#8, 0x99#8, 0x96#8, 0x5A#8] =
      (0x00000002#32, 4#32, [0x0A#8, 0xF3#8, 0x65#8, 0x6C#8, 0#8]) := by decide

theorem test_mandec_rejects :
    outOf (.mandec 4) 2 [0xA9#8, 0x56#8, 0xAA#8, 0xAB#8] = (0x00000036#32, 0#32, [0#8, 0#8]) ∧
      outOf (.mandec 3) 1 [0xAA#8, 0xAB#8, 0xAA#8] = (0x00000026#32, 0#32, [0#8]) ∧
      outOf (.mandec 66) 1 [] = (0x00000026#32, 0#32, [0#8]) := by decide

/-! ### The hop selector: the table and the corner cases of 95_test_vectors.md -/

theorem test_fhsel :
    hopOf .europe 0 123456#32 = (1#32, 868400000#32) ∧ hopOf .northAmerica 0 123456#32 = (52#32, 923000000#32) ∧
      hopOf .northAmerica 1 123456#32 = (10#32, 906200000#32) ∧ hopOf .australia 1 3#32 = (1#32, 917400000#32) ∧
      hopOf .asia 1 3#32 = (0#32, 0#32) := by decide

/-- A collision at the top channel, a slot-0 wrap, a slot-1 wrap, t + 2^31; and HOP_SLOT1_PLUS1 = false. -/
theorem test_fhsel_corners :
    hopOf .northAmerica 1 3710#32 = (63#32, 927400000#32) ∧ hopOf .australia 0 64#32 = (22#32, 925800000#32) ∧
      hopOf .northAmerica 1 80#32 = (63#32, 927400000#32) ∧
      hopOf .northAmerica 1 0x80000000#32 = hopOf .northAmerica 1 0#32 ∧
      (after State.reset (execWith { defaultParams with hopSlot1Plus1 := false } (.fhsel .australia 1)
        (start 360#32 []))).res = 22#32 := by decide

/-! ### The bus, the step and reset: X7, X9 to X18 -/

/-- X7: an odd LEN of MANDEC is no illegal word. -/
theorem test_step_runs_command : (stepped (inFlight 0x00002141#32 0 State.reset)).status.word = 0x00000026#32 := by decide

/-- X1. -/
theorem test_step_illegal_word : (stepped (inFlight 0x00000000#32 0 State.reset)).status.word = 0x00000016#32 := by decide

theorem test_step_withFetchWord :
    (stepped (State.reset.withFetchWord 32 0x00000440)).olen = 8#32 ∧
      (stepped (State.reset.withFetchWord 32 0x00070050)).status.word = 0x00000002#32 := by decide

/-- X9 with LATENCY ≥ 2. -/
theorem test_write_while_busy :
    let s := inFlight 0x00000010#32 1 (start 5#32 [])
    let t := stepped { s with inputs := [.access (.write 0x08#8 32 7#32)] }
    t.arg = 5#32 ∧ t.status.word = 0x00000101#32 := by decide

/-- X10, X11. -/
theorem test_write_status :
    let s : State := { State.reset with status := { State.reset.status with done := true, ovr := true } }
    (stepped { s with inputs := [.access (.write 0x04#8 32 0x00000100#32)] }).status.word = 0x00000002#32 ∧
      (stepped { s with inputs := [.access (.write 0x04#8 32 0x000000FF#32)] }).status.word = 0x00000102#32 := by decide

/-- X12, X13. -/
theorem test_bus_error :
    (busAccess (.read 0x04#8 8) State.reset).1 = .busError ∧
      busAccess (.write 0x42#8 32 5#32) State.reset = (.busError, State.reset) := by decide

/-- X14, and word 0 of IBUF, lowest byte first. -/
theorem test_read :
    (busAccess (.read 0x18#8 32) goldenFrame).1 = .readData 0#32 ∧
      (busAccess (.read 0x40#8 32) goldenFrame).1 = .readData 0xAABBCCDD#32 := by decide

/-- X16: STATUS on acceptance. -/
theorem test_accept_clears_status :
    let st : Status := { busy := false, done := true, err := true, ecode := .lineViolation, ovr := false }
    (busAccess (.write 0x00#8 32 0x00000010#32) { State.reset with status := st }).2.status.word = 0x00000001#32 := by
  decide

/-- X17. -/
theorem test_reset :
    stepped { inFlight 0x00000010#32 0 (start 5#32 [1#8]) with inputs := [.reset none] } = State.reset := by decide

/-- 30_encoding.md R52: LOAD and RUN as the inputs of program P2. -/
theorem test_host_script :
    hostProgram [.load 0 [0x0A#8, 0xF3#8, 0x65#8, 0x6C#8], .run (.manenc 4)] =
      [.access (.write 0x40#8 32 0x6C65F30A#32), .access (.write 0x00#8 32 0x00000440#32), .waitIdle] := by decide

/-- 30_encoding.md R52: the first 5 bytes of two words, the low byte of each word first. -/
theorem test_read_result :
    readResult 5 [.readData 0x44332211#32, .readData 0x88776655#32] = some [0x11#8, 0x22#8, 0x33#8, 0x44#8, 0x55#8] ∧
      readResult 5 [.readData 0x44332211#32] = none ∧ readResult 1 [.busError] = none := by decide

/-- RUN's answers are the write's and each poll's up to the first with BUSY = 0; COPY's are a read's and a write's. -/
theorem test_program_results :
    programResults [.run (.manenc 2), .read 0 3, .copy 0 0 4, .read 4 1]
      [.writeOk, .readData 1#32, .readData 2#32, .readData 0x00332211#32, .readData 9#32, .writeOk,
        .readData 0x77#32] = [some [0x11#8, 0x22#8, 0x33#8], some [0x77#8]] := by decide

theorem test_assemble :
    assemble .FHSEL [.regionName .northAmerica, .slot 1] = some (.fhsel .northAmerica 1) ∧
      assemble .MANENC [] = some (.manenc 0) ∧ assemble .QENC14 [.len 1] = none ∧ assemble .FHSEL [.slot 2] = none := by
  decide

/-! ### Witnesses: states and operands that meet the hypotheses of each statement, clause by clause -/

theorem witness_ResetStateIsAllZero : 0 < 256 ∧ 255 < 256 := by decide

/-- A command in flight, and reset next, with and without an access that overlaps it. -/
theorem witness_ResetAbandonsPendingCommand :
    let s := inFlight 0x00000010#32 3 (start 5#32 [1#8])
    s.status.busy = true ∧
      ({ s with inputs := [.reset none, .waitIdle] } : State).inputs = .reset none :: [.waitIdle] ∧
      ({ s with inputs := [.reset (some (.read 0x04#8 32))] } : State).inputs =
        .reset (some (.read 0x04#8 32)) :: [] := by decide

/-- The ends of the reserved ranges, and an offset and a width of a bad access. -/
theorem witness_ReadsFollowTheRegisterMap :
    (∀ off : BitVec 8, off ∈ [0x18#8, 0x3C#8, 0xC0#8, 0xFC#8] →
        off.toNat % 4 = 0 ∧ (0x18 ≤ off.toNat ∧ off.toNat < 0x40 ∨ 0xC0 ≤ off.toNat)) ∧
      (0x01#8).toNat % 4 ≠ 0 ∧ (0xFF#8).toNat % 4 ≠ 0 ∧ (8 ≠ 32) ∧
      BitVec.ofNat 8 (0x40 + 4 * 15) = 0x7C#8 ∧ BitVec.ofNat 8 (0x80 + 4 * 15) = 0xBC#8 := by decide

theorem witness_BadAccessGetsBusErrorAndChangesNothing :
    ((0x42#8).toNat % 4 ≠ 0 ∨ 32 ≠ 32) ∧ ((0x04#8).toNat % 4 ≠ 0 ∨ 8 ≠ 32) ∧ (0x00#8).toNat % 4 = 0 ∧
      (0xFC#8).toNat % 4 = 0 := by decide

theorem witness_IdleCmdWriteIsAccepted : State.reset.status.busy = false := rfl

/-- CMD, ARG, and the first and the last word of IBUF. -/
theorem witness_BusyWritesAreDroppedAndSetOvr :
    (inFlight 0x00000010#32 0 State.reset).status.busy = true ∧
      ∀ off : BitVec 8, off ∈ [0x00#8, 0x08#8, 0x40#8, 0x7C#8] →
        off.toNat % 4 = 0 ∧ (off.toNat = 0x00 ∨ off.toNat = 0x08 ∨ 0x40 ≤ off.toNat ∧ off.toNat < 0x80) := by decide

/-- Word 15, its last byte, and the bytes beside it. -/
theorem witness_IdleOperandWritesStore :
    goldenFrame.status.busy = false ∧ goldenFrame.ibuf.wf = true ∧ 0 < 16 ∧ 15 < 16 ∧ 3 < 4 ∧
      (59 < 4 * 15 ∨ 4 * 15 + 4 ≤ 59) ∧ (64 < 4 * 15 ∨ 4 * 15 + 4 ≤ 64) := by decide

theorem witness_OtherWritesOnlyClearOvr :
    (0x00000100#32).getLsbD 8 = true ∧ (0x000000FF#32).getLsbD 8 = false ∧
      ∀ off : BitVec 8, off ∈ [0x0C#8, 0x3C#8, 0x80#8, 0xFC#8] →
        off.toNat % 4 = 0 ∧ (0x0C ≤ off.toNat ∧ off.toNat < 0x40 ∨ 0x80 ≤ off.toNat) := by decide

theorem witness_DecodeOfEncodeGivesTheCommand :
    WellFormed (.manenc 255) ∧ WellFormed (.mandec 255) ∧ WellFormed (.fhsel .asia 1) ∧ WellFormed .qenc14 := by decide

theorem witness_LegalWordIsTheEncodedWordOfItsCommand : decode 0x0000FF40#32 = .ok (.manenc 255) := rfl

theorem witness_LegalWordsAreThoseOfTheTable :
    legal (inFlight 0xFFFFFFFF#32 0 State.reset).cmd = false ∧ legal 0x0000FF41#32 = true ∧
      legal 0x00070050#32 = true := by decide

/-- A line with every key at its largest value, the longest LEN, no operand at all; and lines that are not taken: a
value out of range, a key on the wrong mnemonic, and a key given twice. -/
theorem witness_AssembledWordsDecodeToTheirCommand :
    Taken .FHSEL [.slot 1, .regionName .asia] ∧ Taken .MANDEC [.len 255] ∧ Taken .QENC14 [] ∧
      ¬ Taken .MANENC [.len 256] ∧ ¬ Taken .QENC14 [.len 0] ∧ ¬ Taken .FHSEL [.region 3, .regionName .europe] := by
  have one : ∀ {o a}, okFor o a → Taken o [a] := fun h => ⟨fun b hb => List.mem_singleton.1 hb ▸ h, by simp⟩
  refine ⟨⟨fun a ha => ?_, by decide⟩, one ⟨.inr rfl, Nat.le_refl _⟩, ⟨fun _ h => absurd h List.not_mem_nil, by decide⟩,
    fun h => absurd (h.1 _ (List.mem_singleton.2 rfl)).2 (by decide),
    fun h => absurd (h.1 _ (List.mem_singleton.2 rfl)).1 (by decide), fun h => absurd h.2 (by decide)⟩
  rcases List.mem_cons.1 ha with rfl | ha
  · exact ⟨rfl, Nat.le_refl _⟩
  · rw [List.mem_singleton.1 ha]; exact rfl

/-- A host with nothing more to do, and one whose next access comes after the completion. -/
theorem witness_StepRunsTheDecodedCommand :
    Due (inFlight 0x00000010#32 7 State.reset) ∧
      Due { inFlight 0x00000010#32 0 State.reset with inputs := [.waitIdle] } ∧
      decode (inFlight 0x00000010#32 7 State.reset).cmd = .ok .qenc14 :=
  ⟨⟨rfl, .inl rfl⟩, ⟨rfl, .inr ⟨_, _, rfl, rfl, rfl⟩⟩, rfl⟩

theorem witness_IllegalWordFailsWithIllegalCmd :
    Due (inFlight 0x00000110#32 0 State.reset) ∧ legal (inFlight 0x00000110#32 0 State.reset).cmd = false :=
  ⟨⟨rfl, .inl rfl⟩, by decide⟩

/-- Before the completion of a command, and with none in flight. -/
theorem witness_HostAccessTakesEffectInOrder :
    let a : Access := .write 0x08#8 32 7#32
    let s : State := { inFlight 0x00000010#32 1 State.reset with inputs := [.access a] }
    let s' : State := { State.reset with inputs := [.access a] }
    (s.inputs = .access a :: [] ∧ NotDue s) ∧ s'.inputs = .access a :: [] ∧ NotDue s' :=
  ⟨⟨rfl, .inr (by decide)⟩, rfl, .inl rfl⟩

theorem witness_WaitPollsUntilNotBusy :
    let s : State := { inFlight 0x00000010#32 1 State.reset with inputs := [.waitIdle] }
    let s' : State := { State.reset with inputs := [.waitIdle] }
    (s.inputs = .waitIdle :: [] ∧ NotDue s ∧ s.status.busy = true) ∧ s'.inputs = .waitIdle :: [] ∧ NotDue s' :=
  ⟨⟨rfl, .inr (by decide), rfl⟩, rfl, .inl rfl⟩

/-- READ of the last three bytes of OBUF, of bytes past its end, with an address that is no multiple of 4, and while a
command is in flight; and COPY of the last word. -/
theorem witness_ReadAndCopyTakeTheOutput :
    (∀ k n, (k, n) ∈ [(60, 3), (60, 8), (2, 1), (0, 0)] →
      let s : State := { goldenFrame with inputs := (HostStmt.read k n).expand ++ [.waitIdle] }
      (s.status.busy = false ∨ (n + 3) / 4 ≤ s.wait) ∧ s.inputs = (HostStmt.read k n).expand ++ [.waitIdle]) ∧
    60 % 4 = 0 ∧ 60 + 3 ≤ 64 ∧ 2 % 4 ≠ 0 ∧ 0 < 1 ∧ (5 + 3) / 4 ≤ (inFlight 0x00000010#32 2 goldenFrame).wait ∧
    let s : State := { goldenFrame with
      inputs := [.copyWord (BitVec.ofNat 8 (0x80 + 4 * 15)) (BitVec.ofNat 8 (0x40 + 4 * 0))] }
    s.status.busy = false ∧ s.ibuf.wf = true ∧ 15 < 16 ∧ 0 < 16 :=
  ⟨fun _ _ _ => ⟨.inl rfl, rfl⟩, by decide⟩

theorem witness_CommandInFlightCompletes :
    let s : State := { inFlight 0x00000010#32 2 State.reset with inputs := [.waitIdle, .access (.read 0x04#8 32)] }
    s.status.busy = true ∧ s.inputs.all Input.notReset = true := by decide

theorem witness_NoCompletionBeforeLatency :
    let accesses : List Access := [.write 0x08#8 32 7#32, .read 0x04#8 32]
    let s : State := { inFlight 0x00000010#32 2 State.reset with inputs := accesses.map Input.access ++ [.waitIdle] }
    s.status.busy = true ∧ accesses.length ≤ s.wait ∧ s.inputs = accesses.map Input.access ++ [.waitIdle] := by decide

/-- A command in flight over a full input buffer. -/
theorem witness_StepKeepsStatesLegal :
    let s := inFlight 0x00000020#32 0 goldenFrame
    Inv s ∧ ∃ t, step s = .next t :=
  ⟨{ busyOrDone := by decide
     errIffEcode := by decide
     errDone := by decide
     olenMax := by decide
     obufTail := fun _ _ => rfl
     errZero := by decide
     noCommandYet := by decide
     ibufWf := by decide
     obufWf := by decide }, _, rfl⟩

/-- OVR cleared by a STATUS write, cleared by reset, and set by a dropped write. -/
theorem witness_OvrIsSticky :
    let s : State := { State.reset with status := { State.reset.status with ovr := true } }
    let w : State := { s with inputs := [.access (.write 0x04#8 32 0x00000100#32)] }
    let r : State := { s with inputs := [.reset none] }
    let b : State := { inFlight 0x00000010#32 1 State.reset with inputs := [.access (.write 0x7C#8 32 1#32)] }
    (∃ t, step w = .next t ∧ w.status.ovr = true ∧ t.status.ovr = false) ∧
      (∃ t, step r = .next t ∧ r.status.ovr = true ∧ t.status.ovr = false) ∧
      ∃ t, step b = .next t ∧ b.status.ovr = false ∧ t.status.ovr = true :=
  ⟨⟨_, rfl, rfl, rfl⟩, ⟨_, rfl, rfl, rfl⟩, ⟨_, rfl, rfl, rfl⟩⟩

theorem witness_OnlyCompletionChangesResults :
    let s : State := { inFlight 0x00000010#32 1 State.reset with inputs := [.waitIdle] }
    s.inputs = .waitIdle :: [] ∧ Input.waitIdle.notReset = true ∧ NotDue s ∧ ∃ t, step s = .next t :=
  ⟨rfl, rfl, .inr (by decide), _, rfl⟩

/-- A byte of CMD, of ARG and of IBUF, and the ends of the reserved ranges; and a command in flight. -/
theorem witness_CommandsEndInFinishOrFail :
    (inFlight 0x00000010#32 1 goldenFrame).status.busy = true ∧
      ∀ off : Nat, off ∈ [0x00, 0x03, 0x08, 0x0B, 0x18, 0x7F, 0xC0, 0xFF] →
        off < 256 ∧ ¬ (0x04 ≤ off ∧ off < 0x08 ∨ 0x0C ≤ off ∧ off < 0x18 ∨ 0x80 ≤ off ∧ off < 0xC0) := by decide

theorem witness_CommandsEndOnlyWithTheirCodes :
    (∃ t, exec (.mandec 2) (start 0#32 [0xAA#8, 0xAB#8]) = .next t ∧ t.status.ecode = .lineViolation) ∧
      legal (inFlight 0x00010040#32 0 State.reset).cmd = false ∧
      (∃ t, complete (inFlight 0x00010040#32 0 State.reset) = .next t) ∧
      ∃ t, exec (.fhsel .asia 1) (start 7#32 []) = .next t :=
  ⟨⟨_, rfl, by decide⟩, by decide, ⟨_, rfl⟩, _, rfl⟩

/-- ARG above the code, IBUF beyond the operand, and everything else differ. -/
theorem witness_ResultDependsOnlyOnOperands :
    let a := start 0xFFFFC001#32 (payload ++ [7#8])
    let b := inFlight 0x00000099#32 3 (start 0x00000001#32 (payload ++ [8#8]))
    SameOperands .qdec14 a b ∧ SameOperands .whiten a b ∧ SameOperands (.manenc 16) a b ∧
      SameOperands (.mandec 0) a b ∧ SameOperands .qenc6 b (start 1#32 []) ∧
      (∃ t, exec .qdec14 a = .next t) ∧ ∃ t, exec .qdec14 b = .next t := by
  have bytes : ∀ k, k < 16 → (start 0xFFFFC001#32 (payload ++ [7#8])).ibuf.read k =
      (inFlight 0x00000099#32 3 (start 0x00000001#32 (payload ++ [8#8]))).ibuf.read k := by decide
  exact ⟨by show _ = _; decide, bytes, bytes, fun k hk => absurd hk (Nat.not_lt_zero k), rfl, ⟨_, rfl⟩, _, rfl⟩

/-- The edge of saturation of U6: 15 * 16 - 8 = 232. -/
theorem witness_UnsignedEncodersAreMonotonicAndSaturate :
    (Instr.qenc6, Instr.qdec6, 0x10) ∈ unsignedPairs ∧ (∃ t, exec .qenc6 (start 231#32 []) = .next t) ∧
      (∃ t, exec .qenc6 (start 232#32 []) = .next t) ∧ (start 231#32 []).arg.toNat ≤ (start 232#32 []).arg.toNat ∧
      15 * 0x10 - 8 ≤ (start 232#32 []).arg.toNat :=
  ⟨by decide, ⟨_, rfl⟩, ⟨_, rfl⟩, by decide, by decide⟩

/-- The last value of each band of U6, and the first of the next; and the same of S8's magnitudes, for every sign. -/
theorem witness_QuantiserErrorIsBounded :
    (Instr.qenc6, Instr.qdec6, 0x10) ∈ unsignedPairs ∧
      (∀ arg : Word, ∃ t r, exec .qenc6 (start arg []) = .next t ∧
        exec .qdec6 { t with arg := t.res } = .next r) ∧
      (15 < 0x10 ∧ (0x10 ≤ 16 ∧ 47 < 3 * 0x10) ∧ (3 * 0x10 ≤ 48 ∧ 111 < 7 * 0x10) ∧
        7 * 0x10 ≤ 112 ∧ 239 < 15 * 0x10) ∧
      (Instr.qencs8, Instr.qdecs8, 0x20) ∈ signedPairs ∧
      (∀ arg : Word, ∃ t r, exec .qencs8 (start arg []) = .next t ∧
        exec .qdecs8 { t with arg := t.res } = .next r) ∧
      (start 0xFFFFFFE0#32 []).arg.toInt = -0x20 ∧ (start 0xFFFFFE21#32 []).arg.toInt.natAbs = 15 * 0x20 - 1 :=
  ⟨by decide, fun _ => ⟨_, _, rfl, rfl⟩, by decide, by decide, fun _ => ⟨_, _, rfl, rfl⟩, by decide, by decide⟩

/-- The largest code of U10, and negative zero of S8. -/
theorem witness_CodesAreFixpoints :
    (Instr.qenc10, Instr.qdec10, 0x100) ∈ unsignedPairs ∧ (Instr.qencs8, Instr.qdecs8, 0x20) ∈ signedPairs ∧
      (∃ t r, exec .qdec10 (start 0x3FF#32 []) = .next t ∧ exec .qenc10 { t with arg := t.res } = .next r) ∧
      (∃ t r, exec .qdecs8 (start 0x80#32 []) = .next t ∧ exec .qencs8 { t with arg := t.res } = .next r) ∧
      (start 0x80#32 []).arg.toNat % (8 * 0x20) = 4 * 0x20 :=
  ⟨by decide, by decide, ⟨_, _, rfl, rfl⟩, ⟨_, _, rfl, rfl⟩, by decide⟩

/-- 2^31 - 1 and its negative. -/
theorem witness_SignedQuantiserIsSymmetric :
    let s := start 0x7FFFFFFF#32 []
    let s' := start 0x80000001#32 []
    (Instr.qencs9, Instr.qdecs9, 0x40) ∈ signedPairs ∧ s.arg.toInt ≠ -2147483648 ∧ s'.arg = -s.arg ∧
      (∃ t r, exec .qencs9 s = .next t ∧ exec .qdecs9 { t with arg := t.res } = .next r) ∧
      ∃ t r, exec .qencs9 s' = .next t ∧ exec .qdecs9 { t with arg := t.res } = .next r :=
  ⟨by decide, by decide, by decide, ⟨_, _, rfl, rfl⟩, ⟨_, _, rfl, rfl⟩⟩

/-- Both directions. -/
theorem witness_WhitenAndDewhitenAreInverse :
    ∀ (i j : Instr), (i = .whiten ∧ j = .dewhiten ∨ i = .dewhiten ∧ j = .whiten) →
      ∃ t t', exec i goldenFrame = .next t ∧
        (∀ k, k < 16 → ({ goldenFrame with ibuf := t.obuf } : State).ibuf.read k = t.obuf.read k) ∧
        exec j { goldenFrame with ibuf := t.obuf } = .next t' := by
  intro i j _
  obtain ⟨t, ht, _⟩ := exec_ends i goldenFrame
  obtain ⟨t', ht', _⟩ := exec_ends j { goldenFrame with ibuf := t.obuf }
  exact ⟨t, t', ht, fun _ _ => rfl, ht'⟩

/-- Payloads that differ in the second half only, and in the first half only. -/
theorem witness_WhitenerHalvesAreIndependent :
    let s := start 0#32 payload
    let a := start 0#32 (payload.take 8)
    let b := start 0#32 (List.replicate 8 0#8 ++ payload.drop 8)
    (∀ k, k < 8 → s.ibuf.read k = a.ibuf.read k) ∧ (∀ k, 8 ≤ k → k < 16 → s.ibuf.read k = b.ibuf.read k) ∧
      (∃ t, exec .whiten s = .next t) ∧ (∃ t, exec .whiten a = .next t) ∧ ∃ t, exec .whiten b = .next t := by
  refine ⟨by decide, fun k h8 h16 => ?_, ⟨_, rfl⟩, ⟨_, rfl⟩, _, rfl⟩
  have bytes : ∀ k, k < 16 → 8 ≤ k → (start 0#32 payload).ibuf.read k =
      (start 0#32 (List.replicate 8 0#8 ++ payload.drop 8)).ibuf.read k := by decide
  exact bytes k h16 h8

theorem golden_data : IsDataBlock goldenFrame (dataBits goldenBlock) := by
  rw [← golden_frame_bytes]
  exact getLsbD_dataBits _

theorem witness_FecencWritesTheParity : IsDataBlock goldenFrame (dataBits goldenBlock) := golden_data

theorem bad_data : IsDataBlock badParity (dataBits goldenBlock) := by
  have h : ibufBytes badParity 0 20 = goldenBlock := by decide
  rw [← h]
  exact getLsbD_dataBits _

/-- A frame whose parity matches, and one whose parity does not. -/
theorem witness_FecchkComparesTheParity :
    (IsDataBlock goldenFrame (dataBits goldenBlock) ∧
      IsParity (fecParity (dataBits goldenBlock)) (fun k => goldenFrame.ibuf.read (20 + k))) ∧
    IsDataBlock badParity (dataBits goldenBlock) ∧
      ¬ IsParity (fecParity (dataBits goldenBlock)) (fun k => badParity.ibuf.read (20 + k)) := by
  rw [fecParity_golden]
  refine ⟨⟨golden_data, ?_⟩, bad_data, fun h => ?_⟩
  · unfold IsParity; decide
  · exact absurd (h 0 (by decide)) (by decide)

theorem golden_words : HoldsGoldenBlock goldenFrame := by unfold HoldsGoldenBlock; decide

/-- The golden frame with data bit 0 flipped, and with data bit 159 flipped (F3, F4). -/
def flipped (b0 b19 : Byte) : State := start 0#32 (b0 :: (goldenBlock.tail.take 18 ++ b19 :: goldenParity))

set_option maxRecDepth 4000 in
theorem flipped_first : ∀ i, i < 160 → ((flipped 0xDC#8 0x1A#8).ibuf.read (i / 8)).getLsbD (i % 8) =
    ((goldenFrame.ibuf.read (i / 8)).getLsbD (i % 8) ^^ decide (i = 0)) := by decide

set_option maxRecDepth 4000 in
theorem flipped_last : ∀ i, i < 160 → ((flipped 0xDD#8 0x9A#8).ibuf.read (i / 8)).getLsbD (i % 8) =
    ((goldenFrame.ibuf.read (i / 8)).getLsbD (i % 8) ^^ decide (i = 159)) := by decide

theorem witness_FecGoldenVectorAndSensitivity :
    HoldsGoldenBlock goldenFrame ∧ 0 < 160 ∧ 159 < 160 ∧
      (∀ i, i < 160 → ((flipped 0xDC#8 0x1A#8).ibuf.read (i / 8)).getLsbD (i % 8) =
        ((goldenFrame.ibuf.read (i / 8)).getLsbD (i % 8) ^^ decide (i = 0))) ∧
      (∀ i, i < 160 → ((flipped 0xDD#8 0x9A#8).ibuf.read (i / 8)).getLsbD (i % 8) =
        ((goldenFrame.ibuf.read (i / 8)).getLsbD (i % 8) ^^ decide (i = 159))) ∧
      ∃ t, exec .fecenc (flipped 0xDC#8 0x1A#8) = .next t :=
  ⟨golden_words, by decide, by decide, flipped_first, flipped_last, _, rfl⟩

theorem witness_FecchkAcceptsFecencOutput :
    ∃ t, exec .fecenc (start 0#32 goldenBlock) = .next t ∧
      (∀ k, k < 20 → goldenFrame.ibuf.read k = (start 0#32 goldenBlock).ibuf.read k) ∧
      ∀ k, k < 6 → goldenFrame.ibuf.read (20 + k) = t.obuf.read k := by
  refine ⟨_, rfl, by decide, ?_⟩
  rw [computedParity_golden test_golden_bytes]
  decide

theorem witness_FecchkDetectsAFlippedGoldenBit :
    HoldsGoldenBlock goldenFrame ∧ (∀ k, k < 6 → goldenFrame.ibuf.read (20 + k) = goldenByte k) ∧
      (∀ i, i < 160 → ((flipped 0xDD#8 0x9A#8).ibuf.read (i / 8)).getLsbD (i % 8) =
        ((goldenFrame.ibuf.read (i / 8)).getLsbD (i % 8) ^^ decide (i = 159))) ∧
      ∀ k, k < 6 → (flipped 0xDD#8 0x9A#8).ibuf.read (20 + k) = goldenByte k :=
  ⟨golden_words, by decide, flipped_last, by decide⟩

theorem witness_FecchkDetectsChangedParity :
    (∃ t, exec .fecchk goldenFrame = .next t ∧ t.res = 1#32) ∧
      (∀ k, k < 20 → badParity.ibuf.read k = goldenFrame.ibuf.read k) ∧
      ∃ k, k < 6 ∧ badParity.ibuf.read (20 + k) ≠ goldenFrame.ibuf.read (20 + k) :=
  ⟨⟨_, test_fecchk_match, rfl⟩, by decide, 0, by decide, by decide⟩

theorem witness_StatusWordHasItsFields : 9 ≤ 9 ∧ State.reset.status.word.getLsbD 9 = false := by decide

theorem witness_LinearParityFormIsLinearAndSensitive :
    (List.replicate 160 (1#48)).length = 160 ∧ ∀ col, col ∈ List.replicate 160 (1#48) → col ≠ 0#48 :=
  ⟨List.length_replicate, fun col h => by rw [List.eq_of_mem_replicate h]; decide⟩

/-- The largest LEN that has a word, the largest of MANENC, the first and the last byte of it, and the first LEN that is too long. -/
theorem witness_ManencCodesEveryByte :
    255 < 256 ∧ 0 ≤ 32 ∧ 32 ≤ 32 ∧ 0 < 32 ∧ 31 < 32 ∧ 32 < 33 ∧ 32 < 255 := by decide

set_option maxRecDepth 4000 in
/-- An odd LEN, one above 64, a violation in the last of 64 bytes, and 64 valid bytes. -/
theorem witness_MandecDecodesOrRejects :
    (65 % 2 = 1 ∨ 64 < 65) ∧ (66 % 2 = 1 ∨ 64 < 66) ∧ 64 % 2 = 0 ∧ 64 ≤ 64 ∧
      ¬ Coded ((start 0#32 (List.replicate 63 0xAA#8 ++ [0xAB#8])).ibuf.read 63) ∧
      ∀ i, i < 64 → Coded ((start 0#32 (List.replicate 64 0x55#8)).ibuf.read i) := by
  have coded : ∀ i, i < 64 → (start 0#32 (List.replicate 64 0x55#8)).ibuf.read i = 0x55#8 := by decide
  refine ⟨by decide, by decide, by decide, by decide, fun h => absurd (h 0 (by decide)) (by decide), fun i hi => ?_⟩
  rw [coded i hi]
  unfold Coded
  decide

theorem witness_NibbleTableAndItsInverse : 0 < 16 ∧ 15 < 16 ∧ manDecNib 0x6A#8 = some 8 ∧ manDecNib 0xAB#8 = none := by
  decide

/-- No byte, and the most. -/
theorem witness_ManchesterRoundTrip :
    ∀ n, n = 0 ∨ n = 32 → ∃ t, n ≤ 32 ∧ exec (.manenc n) goldenFrame = .next t ∧
      ∀ k, k < 2 * n → ({ goldenFrame with ibuf := t.obuf } : State).ibuf.read k = t.obuf.read k := by
  intro n hn
  obtain ⟨t, ht, _⟩ := exec_ends (.manenc n) goldenFrame
  exact ⟨t, by omega, ht, fun _ _ => rfl⟩

theorem witness_FhselHopsByTheHash : 0 < 2 ∧ 1 < 2 := by decide

/-- The smallest counts of the two forms of CHAN. -/
theorem witness_ChannelsInRangeAndNeverMeet : 2 ≤ 2 ∧ 2 ≤ 3 ∧ 3 ≤ 3 := by decide

theorem witness_SlotsOfARegionNeverShareAFrequency :
    Region.australia ≠ .asia ∧ (∃ t, exec (.fhsel .australia 0) (start 64#32 []) = .next t) ∧
      (∃ t, exec (.fhsel .australia 1) (start 64#32 []) = .next t) ∧
      (start 0x80000040#32 []).arg = (start 64#32 []).arg + 0x80000000#32 ∧
      ∃ t, exec (.fhsel .australia 1) (start 0x80000040#32 []) = .next t :=
  ⟨by decide, ⟨_, rfl⟩, ⟨_, rfl⟩, by decide, _, rfl⟩

/-- Parameters that are not the defaults: a round that turns the four words, a hash that is 0, the other slot-1
reading, and a plan with 0, 1, 2 and 5 channels. -/
def otherParams : Params where
  whitenRound := { fwd := fun _ w => ⟨w.w1, w.w2, w.w3, w.w0⟩, inv := fun _ w => ⟨w.w3, w.w0, w.w1, w.w2⟩ }
  hopHash _ := 0#32
  hopSlot1Plus1 := false
  plan
    | .europe => ⟨0, 0, 0⟩
    | .northAmerica => ⟨100, 0, 1⟩
    | .australia => ⟨100, 10, 2⟩
    | .asia => ⟨100, 10, 5⟩

theorem other_params_admissible : Admissible otherParams where
  invFwd _ _ := rfl
  fwdInv _ _ := rfl
  frequencyFits r ch h := by
    have h5 : ch < 5 := Nat.lt_of_lt_of_le h (by cases r <;> decide)
    cases r <;> simp only [otherParams, carrier] <;> omega
  channelFits r := by cases r <;> simp [otherParams]

/-- A completion that is due, and a command that does not depend on the parameters; and a step that is no due
completion. -/
theorem witness_DefaultParametersGiveTheMachine :
    Due (inFlight 0x00000020#32 0 State.reset) ∧ decode (inFlight 0x00000020#32 0 State.reset).cmd = .ok .whiten ∧
      Instr.fecchk.opcode ≠ .WHITEN ∧ Instr.fecchk.opcode ≠ .DEWHITEN ∧ Instr.fecchk.opcode ≠ .FHSEL ∧
      ¬ Due State.reset :=
  ⟨⟨rfl, .inl rfl⟩, rfl, by decide, by decide, by decide, fun h => absurd h.1 (by decide)⟩

/-- Both directions under other parameters, and a pairing other than the default one. -/
theorem witness_WhiteningIsInvertibleForEveryRound :
    Admissible otherParams ∧
      (∀ i, i = .whiten ∨ i = .dewhiten → ∃ t, execWith otherParams i goldenFrame = .next t ∧
        ∀ k, k < 16 → ({ goldenFrame with ibuf := t.obuf } : State).ibuf.read k = t.obuf.read k) ∧
      FourWords ⟨0, 2, 3, 1⟩ ∧ FourWords halves := by
  refine ⟨other_params_admissible, ?_, by unfold FourWords; decide, by unfold FourWords; decide⟩
  intro i _
  obtain ⟨t, ht, _⟩ := execWith_ends otherParams i goldenFrame
  exact ⟨t, ht, fun _ _ => rfl⟩

/-- The counts 0, 1, 2 and more. -/
theorem witness_FhselFollowsEveryPlan :
    Admissible otherParams ∧ (otherParams.plan .europe).count = 0 ∧ (otherParams.plan .northAmerica).count = 1 ∧
      (otherParams.plan .australia).count = 2 ∧ 2 ≤ (otherParams.plan .asia).count ∧ 1 < 2 ∧
      (∃ t, execWith otherParams (.fhsel .asia 0) goldenFrame = .next t) ∧
      ∃ t, execWith otherParams (.fhsel .asia 1) goldenFrame = .next t :=
  ⟨other_params_admissible, rfl, rfl, rfl, by decide, by decide, ⟨_, rfl⟩, _, rfl⟩

end Sys2Proof.Tests
end

section
/-!
PROOFS. The scope's statements (00_scope.md): a command's result is a function of its operands (O29), and the default
parameters give the machine (O58).
-/

namespace Sys2Proof.Proofs

open Sys2Proof.Machine Sys2Proof.Claim

/-! ### Equal operands give equal results -/

/-- `finish` overwrites all of a result, so the states it starts from do not matter (30_encoding.md R47). -/
theorem finish_sameResult {res res' freq freq' : Word} {out out' : List Byte} (hres : res = res') (hfreq : freq = freq')
    (hout : out = out') (s s' : State) : SameResult (finish res freq out s) (finish res' freq' out' s') := by
  subst hres hfreq hout
  exact ⟨rfl, rfl, rfl, rfl, rfl, rfl, rfl, rfl⟩

/-- `fail` overwrites all of a result too. -/
theorem fail_sameResult (e : ECode) (s s' : State) : SameResult (fail e s) (fail e s') :=
  ⟨rfl, rfl, rfl, rfl, rfl, rfl, rfl, rfl⟩

theorem quantEncode_sameResult (V : Variant) {s s' : State} (h : s.arg = s'.arg) :
    SameResult (quantEncode V s) (quantEncode V s') :=
  finish_sameResult (by rw [argU32, argU32, h]) rfl rfl s s'

theorem quantEncodeSigned_sameResult (V : Variant) {s s' : State} (h : s.arg = s'.arg) :
    SameResult (quantEncodeSigned V s) (quantEncodeSigned V s') :=
  finish_sameResult (by rw [argI32, argI32, h]) rfl rfl s s'

theorem quantDecode_sameResult (V : Variant) {s s' : State} (h : argCode V.magBits s = argCode V.magBits s') :
    SameResult (quantDecode V s) (quantDecode V s') :=
  finish_sameResult (by rw [h]) rfl rfl s s'

theorem quantDecodeSigned_sameResult (V : Variant) {s s' : State}
    (h : argCode (V.magBits + 1) s = argCode (V.magBits + 1) s') :
    SameResult (quantDecodeSigned V s) (quantDecodeSigned V s') :=
  finish_sameResult (by rw [h]) rfl rfl s s'

/-- The bytes from index 0 on, for states that agree on them. -/
theorem ibufBytes_zero_congr {s s' : State} {n : Nat} (h : ∀ k, k < n → s.ibuf.read k = s'.ibuf.read k) :
    ibufBytes s 0 n = ibufBytes s' 0 n :=
  ibufBytes_congr fun k hk => by rw [Nat.zero_add]; exact h k hk

theorem ibufBlock_congr {s s' : State} (h : ∀ k, k < 16 → s.ibuf.read k = s'.ibuf.read k) :
    ibufBlock s = ibufBlock s' := by
  refine block_ext fun j => ?_
  rw [blockWord_ibufBlock, blockWord_ibufBlock]
  exact ibufWord_congr fun k _ hk => h k (by omega)

theorem computedParity_congr {s s' : State} (h : ∀ k, k < 20 → s.ibuf.read k = s'.ibuf.read k) :
    computedParity s = computedParity s' := by
  rw [computedParity, computedParity, ibufBytes_zero_congr h]

/-- Every command completes from two states that agree on its operands, with one result. -/
theorem exec_sameResult {i : Instr} {s s' : State} (h : SameOperands i s s') :
    ∃ t t', exec i s = .next t ∧ exec i s' = .next t' ∧ SameResult t t' := by
  cases i with
  | qenc14 | qenc10 | qenc6 => exact ⟨_, _, rfl, rfl, quantEncode_sameResult _ h⟩
  | qencs8 | qencs9 => exact ⟨_, _, rfl, rfl, quantEncodeSigned_sameResult _ h⟩
  | qdec14 | qdec10 | qdec6 => exact ⟨_, _, rfl, rfl, quantDecode_sameResult _ h⟩
  | qdecs8 | qdecs9 => exact ⟨_, _, rfl, rfl, quantDecodeSigned_sameResult _ h⟩
  | whiten | dewhiten => exact ⟨_, _, rfl, rfl, finish_sameResult rfl rfl (by rw [ibufBlock_congr h]) s s'⟩
  | fecenc => exact ⟨_, _, rfl, rfl, finish_sameResult rfl rfl (computedParity_congr h) s s'⟩
  | fecchk =>
    have hparity : computedParity s = computedParity s' := computedParity_congr fun k hk => h k (by omega)
    have hgiven : ibufBytes s 20 6 = ibufBytes s' 20 6 := ibufBytes_congr fun k hk => h (20 + k) (by omega)
    refine ⟨_, _, rfl, rfl, ?_⟩
    rw [hparity, hgiven]
    split
    · exact finish_sameResult rfl rfl rfl s s'
    · exact fail_sameResult _ s s'
  | manenc len =>
    refine ⟨_, _, rfl, rfl, ?_⟩
    rw [ibufBytes_zero_congr h]
    split
    · exact fail_sameResult _ s s'
    · exact finish_sameResult rfl rfl rfl s s'
  | mandec len =>
    refine ⟨_, _, rfl, rfl, ?_⟩
    rw [ibufBytes_zero_congr h]
    split
    · exact fail_sameResult _ s s'
    · split
      · exact fail_sameResult _ s s'
      · split
        · exact finish_sameResult rfl rfl rfl s s'
        · exact fail_sameResult _ s s'
  | fhsel region slot =>
    have harg : s.arg = s'.arg := h
    refine ⟨_, _, rfl, rfl, ?_⟩
    dsimp only
    rw [harg]
    split
    · exact finish_sameResult rfl rfl rfl s s'
    · exact finish_sameResult rfl rfl rfl s s'

/-- Settles O29: each command ends in `finish` or `fail` of values computed from its operands alone. -/
theorem resultDependsOnlyOnOperands : Obligations.ResultDependsOnlyOnOperands := by
  unfold Obligations.ResultDependsOnlyOnOperands
  intro i s s' t t' hops ht ht'
  obtain ⟨u, u', hu, hu', hsame⟩ := exec_sameResult hops
  obtain rfl : u = t := Host.Outcome.next.inj (hu.symm.trans ht)
  obtain rfl : u' = t' := Host.Outcome.next.inj (hu'.symm.trans ht')
  exact hsame

/-! ### When the completion is due -/

/-- The machine's test for the completion is `Due` (70_reset_and_hazards.md R112). -/
theorem completionDue_iff_due (s : State) : completionDue s = true ↔ Due s := by
  unfold completionDue Due
  rw [Bool.and_eq_true]
  refine and_congr_right fun _ => ?_
  cases s.inputs with
  | nil => simp
  | cons i rest => cases i <;> simp [Input.notReset]

/-- A due completion is the decoded command's meaning and nothing else (30_encoding.md R49). -/
theorem stepBy_of_due {meaning : Instr → State → Host.Outcome State Fault Refusal} {s : State} {i : Instr}
    (hdue : Due s) (hdecode : decode s.cmd = .ok i) : stepBy meaning s = meaning i s := by
  rw [stepBy, if_pos ((completionDue_iff_due s).2 hdue), completeBy, hdecode]

/-- A step that is no due completion takes the first input, whatever the commands mean. -/
theorem stepBy_of_not_due (meaning : Instr → State → Host.Outcome State Fault Refusal) {s : State} (hdue : ¬ Due s) :
    stepBy meaning s = .next (takeInput s) := by
  rw [stepBy, if_neg (mt (completionDue_iff_due s).1 hdue)]

/-! ### The default parameters -/

/-- Only WHITEN, DEWHITEN and FHSEL read a parameter (00_scope.md R7). -/
theorem execWith_eq_exec (p : Params) {i : Instr} (hw : i.opcode ≠ .WHITEN) (hd : i.opcode ≠ .DEWHITEN)
    (hf : i.opcode ≠ .FHSEL) (s : State) : execWith p i s = exec i s := by
  cases i with
  | whiten => exact absurd rfl hw
  | dewhiten => exact absurd rfl hd
  | fhsel => exact absurd rfl hf
  | _ => rfl

/-- At the defaults every arm of `execWith` is `exec`'s: the three that read a parameter by the definition of
`execWhiten`, `execDewhiten` and `execFhsel`. -/
theorem execWith_default : execWith defaultParams = exec := by
  funext i s
  cases i <;> rfl

theorem stepWith_default : stepWith defaultParams = step := by
  funext s
  show stepBy (execWith defaultParams) s = stepBy exec s
  rw [execWith_default]

/-- The block's state and reset under any step. -/
def coreOfStep (f : State → Host.Outcome State Fault Refusal) : Host.Core := { Sys2Proof.core with step := f }

/-- `coreWith p` and `core` differ in the step alone, so equal steps give equal runs. -/
theorem coreWith_default_run (n : Nat) (s : State) : (coreWith defaultParams).run n s = Sys2Proof.core.run n s := by
  show (coreOfStep (stepWith defaultParams)).run n s = (coreOfStep step).run n s
  rw [stepWith_default]

/-- Two rounds that cancel on a word pair cancel on the default pairing. -/
theorem onPairs_halves_cancel {f g : Word × Word → Word × Word} (h : ∀ v, g (f v) = v) (w : Block) :
    onPairs halves g (onPairs halves f w) = w := by
  obtain ⟨a, b, c, d⟩ := w
  rw [onPairs_halves f, onPairs_halves g, h (a, b), h (c, d)]

/-- Every frequency of the default plan, and every channel, fits a word (93_implementation_defined.md I5). -/
theorem plan_frequency_lt (r : Region) {ch : Nat} (h : ch < (plan r).count) : carrier (plan r) ch < 2 ^ 32 := by
  cases r <;> simp only [plan, carrier] at h ⊢ <;> omega

/-- The defaults are admissible: a TEA round has its inverse, and the plan stays below 2^32 Hz. -/
theorem defaultParams_admissible : Admissible defaultParams where
  invFwd s := onPairs_halves_cancel (roundInv_roundFwd teaMix s)
  fwdInv s := onPairs_halves_cancel (roundFwd_roundInv teaMix s)
  frequencyFits r _ h := plan_frequency_lt r h
  channelFits r := by cases r <;> decide

/-- Settles O58: `exec`, `step` and `core` are the parametrised block at the defaults, and the parameters are read by
three commands only. -/
theorem defaultParametersGiveTheMachine : Obligations.DefaultParametersGiveTheMachine := by
  unfold Obligations.DefaultParametersGiveTheMachine
  refine ⟨fun i s => by rw [execWith_default], fun s => by rw [stepWith_default], coreWith_default_run,
    defaultParams_admissible, fun p s => ⟨?due, fun _ hw hd hf => execWith_eq_exec p hw hd hf s, ?notDue⟩⟩
  case due => exact fun i hdue hdecode => stepBy_of_due hdue hdecode
  case notDue =>
    intro hdue
    calc stepWith p s
      _ = .next (takeInput s) := stepBy_of_not_due _ hdue
      _ = step s := (stepBy_of_not_due exec hdue).symm

end Sys2Proof.Proofs
end

section
/-!
PROOFS. The state's statements (10_state.md): the bits of a STATUS read (O5), and every step keeps a state legal (O24).
-/

namespace Sys2Proof.Proofs

open Sys2Proof.Machine Sys2Proof.Claim

/-! ### The STATUS word -/

theorem ecode_code_lt (e : ECode) : e.code < 16 := by cases e <;> decide

/-- The fields of STATUS take 9 bits, so the word's sum does not wrap: each field is its own digit of the word's
number, and nothing stands above OVR (10_state.md R15). -/
theorem status_word_digits (st : Status) :
    st.word.toNat % 2 = st.busy.toNat ∧ st.word.toNat / 2 % 2 = st.done.toNat ∧
      st.word.toNat / 4 % 2 = st.err.toNat ∧ st.word.toNat / 8 % 2 = 0 ∧ st.word.toNat / 16 % 16 = st.ecode.code ∧
      st.word.toNat / 256 % 2 = st.ovr.toNat ∧ st.word.toNat < 512 := by
  have hbusy := st.busy.toNat_lt
  have hdone := st.done.toNat_lt
  have herr := st.err.toNat_lt
  have hovr := st.ovr.toNat_lt
  have hecode := ecode_code_lt st.ecode
  have hword : st.word.toNat =
      st.busy.toNat + 2 * st.done.toNat + 4 * st.err.toNat + 16 * st.ecode.code + 256 * st.ovr.toNat := by
    rw [Status.word, BitVec.toNat_ofNat, Nat.mod_eq_of_lt (by omega)]
  omega

/-- A bit of a word out of the word's number. -/
theorem getLsbD_eq_of_digit {w : Word} {k : Nat} {b : Bool} (h : w.toNat / 2 ^ k % 2 = b.toNat) : w.getLsbD k = b := by
  rw [BitVec.getLsbD, Nat.testBit_eq_decide_div_mod_eq, h]
  cases b <;> rfl

/-- Settles O5: the word's number in base 2 has the fields as its digits. -/
theorem statusWordHasItsFields : Obligations.StatusWordHasItsFields := by
  unfold Obligations.StatusWordHasItsFields
  intro s
  obtain ⟨hbusy, hdone, herr, hzero, hecode, hovr, hlt⟩ := status_word_digits s.status
  refine ⟨getLsbD_eq_of_digit ?_, getLsbD_eq_of_digit hdone, getLsbD_eq_of_digit herr, getLsbD_eq_of_digit hzero,
    getLsbD_eq_of_digit hovr, fun k hk => ?high, hecode.trans ?codes⟩
  · rwa [Nat.pow_zero, Nat.div_one]
  case high => exact Nat.testBit_lt_two_pow (Nat.lt_of_lt_of_le hlt (Nat.pow_le_pow_right Nat.zero_lt_two hk))
  case codes => cases s.status.ecode <;> rfl

/-! ### Legal states -/

/-- A legal state stays legal when all that changes is OVR, ARG, what lies outside the block, and IBUF in canonical
form: of IBUF `Inv` asks no more, and of the others nothing. -/
theorem inv_of_sameResult {s t : State} (h : Inv s) (hr : SameResult s t) (hcmd : s.cmd = t.cmd)
    (hibuf : t.ibuf.wf = true) : Inv t := by
  obtain ⟨hres, hfreq, holen, hobuf, hbusy, hdone, herr, hecode⟩ := hr
  exact
    { busyOrDone := by rw [← hbusy, ← hdone]; exact h.busyOrDone
      errIffEcode := by rw [← herr, ← hecode]; exact h.errIffEcode
      errDone := by rw [← herr, ← hdone]; exact h.errDone
      olenMax := by rw [← holen]; exact h.olenMax
      obufTail := by rw [← holen, ← hobuf]; exact h.obufTail
      errZero := by rw [← herr, ← hres, ← hfreq, ← holen]; exact h.errZero
      noCommandYet := by rw [← hbusy, ← hdone, ← hcmd, ← hres, ← hfreq, ← holen]; exact h.noCommandYet
      ibufWf := hibuf
      obufWf := by rw [← hobuf]; exact h.obufWf }

/-- Acceptance leaves the previous results, now with BUSY in place of DONE or ERR (30_encoding.md R48). -/
theorem inv_accept {s : State} (h : Inv s) (v : Word) : Inv (accept v s) where
  busyOrDone := by simp
  errIffEcode := by simp
  errDone := by simp
  olenMax := h.olenMax
  obufTail := h.obufTail
  errZero := by simp
  noCommandYet := by simp
  ibufWf := h.ibufWf
  obufWf := h.obufWf

/-- `finish` with an output that fits OBUF (30_encoding.md R47). -/
theorem inv_finish {s : State} (h : Inv s) (res freq : Word) {out : List Byte} (hout : out.length ≤ 64) :
    Inv (finish res freq out s) := by
  have holen : (finish res freq out s).olen.toNat = out.length := (finish_finished res freq out s hout).olen
  exact
    { busyOrDone := by simp
      errIffEcode := by simp
      errDone := by simp
      olenMax := by rw [holen]; exact hout
      obufTail := by
        intro i hi
        rw [holen] at hi
        rw [finish_obuf, Memory.read_ofBytes out hout, List.getD_eq_getElem?_getD, List.getElem?_eq_none hi,
          Option.getD_none]
      errZero := by simp
      noCommandYet := by simp
      ibufWf := h.ibufWf
      obufWf := Memory.wf_ofBytes out }

/-- `fail` with an error code (60_exceptions.md R98). -/
theorem inv_fail {s : State} (h : Inv s) {e : ECode} (he : e ≠ .none) : Inv (fail e s) where
  busyOrDone := by simp
  errIffEcode := by simp [he]
  errDone := by simp
  olenMax := by simp
  obufTail _ _ := rfl
  errZero := by simp
  noCommandYet := by simp
  ibufWf := h.ibufWf
  obufWf := Memory.wf_ofBytes []

theorem inv_of_ends {s t : State} (h : Inv s) (hends : Ends s t) : Inv t := by
  obtain ⟨res, freq, out, hout, rfl⟩ | ⟨e, he, rfl⟩ := hends
  · exact inv_finish h res freq hout
  · exact inv_fail h he

/-- Every bus access keeps a state legal (20_memory.md R31, R33). -/
theorem inv_of_busEffect {s t : State} (h : Inv s) (heffect : BusEffect s t) : Inv t := by
  cases heffect with
  | nothing => exact h
  | accepted v _ => exact inv_accept h v
  | dropped _ => exact inv_of_sameResult h ⟨rfl, rfl, rfl, rfl, rfl, rfl, rfl, rfl⟩ rfl h.ibufWf
  | status v =>
    have hr : SameResult s { s with status := s.status.hostWrite v } :=
      ⟨rfl, rfl, rfl, rfl, (Status.hostWrite_busy ..).symm, (Status.hostWrite_done ..).symm,
        (Status.hostWrite_err ..).symm, (Status.hostWrite_ecode ..).symm⟩
    exact inv_of_sameResult h hr rfl h.ibufWf
  | arg v _ => exact inv_of_sameResult h ⟨rfl, rfl, rfl, rfl, rfl, rfl, rfl, rfl⟩ rfl h.ibufWf
  | ibuf i v _ hi =>
    exact inv_of_sameResult h ⟨rfl, rfl, rfl, rfl, rfl, rfl, rfl, rfl⟩ rfl
      (Memory.wf_writeList h.ibufWf (putLe32 v) hi)

/-- Reset's values are legal (70_reset_and_hazards.md R105). -/
theorem inv_reset : Inv State.reset where
  busyOrDone := by decide
  errIffEcode := by decide
  errDone := by decide
  olenMax := by decide
  obufTail _ _ := rfl
  errZero := by decide
  noCommandYet := by decide
  ibufWf := rfl
  obufWf := rfl

/-- Every input from outside keeps a state legal. An access acts on the state with its input taken away, and its
answer is recorded after it: neither touches the block. -/
theorem inv_of_inputEffect {s t : State} (h : Inv s) (heffect : InputEffect s t) : Inv t := by
  cases heffect with
  | idle _ => exact h
  | access rest a _ =>
    have hbefore : Inv { s with inputs := rest, wait := s.wait - 1 } :=
      inv_of_sameResult h ⟨rfl, rfl, rfl, rfl, rfl, rfl, rfl, rfl⟩ rfl h.ibufWf
    have hafter := inv_of_busEffect hbefore (busAccess_effect a _)
    exact inv_of_sameResult hafter ⟨rfl, rfl, rfl, rfl, rfl, rfl, rfl, rfl⟩ rfl hafter.ibufWf
  | reset _ _ _ => exact inv_of_sameResult inv_reset ⟨rfl, rfl, rfl, rfl, rfl, rfl, rfl, rfl⟩ rfl rfl

/-- Settles O24: a step is a completion, which ends in `finish` or `fail`, or one input, which is a bus access or a
reset. -/
theorem stepKeepsStatesLegal : Obligations.StepKeepsStatesLegal := by
  unfold Obligations.StepKeepsStatesLegal
  intro s t h ht
  obtain ⟨u, hu, ⟨_, _, hends⟩ | ⟨_, hinput⟩⟩ := step_effect s
  all_goals obtain rfl : u = t := Host.Outcome.next.inj (hu.symm.trans ht)
  · exact inv_of_ends h hends
  · exact inv_of_inputEffect h hinput

end Sys2Proof.Proofs
end

section
/-!
PROOFS. The memory's statements (20_memory.md): what a host read returns (O3), bus errors (O4), the writes that store
(O8) and those that do not (O9), the order of host accesses (O17), and what no host access changes (O26).
-/

namespace Sys2Proof.Proofs

open Sys2Proof.Machine Sys2Proof.Claim

/-! ### Good and bad accesses -/

theorem badAccess_iff (off : BitVec 8) (width : Nat) :
    badAccess off width = true ↔ off.toNat % 4 ≠ 0 ∨ width ≠ 32 := by
  simp only [badAccess, Bool.or_eq_true, decide_eq_true_eq]

theorem busAccess_read_bad {off : BitVec 8} {width : Nat} (h : off.toNat % 4 ≠ 0 ∨ width ≠ 32) (s : State) :
    busAccess (.read off width) s = (.busError, s) :=
  if_pos ((badAccess_iff off width).2 h)

theorem busAccess_write_bad {off : BitVec 8} {width : Nat} (h : off.toNat % 4 ≠ 0 ∨ width ≠ 32) (v : Word)
    (s : State) : busAccess (.write off width v) s = (.busError, s) :=
  if_pos ((badAccess_iff off width).2 h)

theorem not_badAccess_aligned {off : BitVec 8} (h : off.toNat % 4 = 0) : ¬ badAccess off 32 = true := by
  rw [badAccess_iff]
  omega

theorem busAccess_read_aligned {off : BitVec 8} (h : off.toNat % 4 = 0) (s : State) :
    busAccess (.read off 32) s = (.readData (wordAt s off), s) :=
  if_neg (not_badAccess_aligned h)

theorem busAccess_write_aligned {off : BitVec 8} (h : off.toNat % 4 = 0) (v : Word) (s : State) :
    busAccess (.write off 32 v) s = (.writeOk, writeWord s off v) :=
  if_neg (not_badAccess_aligned h)

/-- Settles O4: an access is either bad, and stops at the test for it, or an aligned one of 32 bits. -/
theorem badAccessGetsBusErrorAndChangesNothing : Obligations.BadAccessGetsBusErrorAndChangesNothing := by
  unfold Obligations.BadAccessGetsBusErrorAndChangesNothing
  intro s off width v
  refine ⟨fun hbad => ⟨busAccess_read_bad hbad s, busAccess_write_bad hbad v s⟩, fun haligned hwidth => ?_⟩
  subst hwidth
  rw [busAccess_read_aligned haligned, busAccess_write_aligned haligned]
  exact ⟨nofun, rfl⟩

/-! ### The register map -/

theorem placeOf_ibuf_range {off : Nat} (h : 0x40 ≤ off ∧ off ≤ 0x7C) : placeOf off = .ibuf (off - 0x40) := by
  unfold placeOf
  iterate 6 rw [if_neg (by omega)]
  exact if_pos h

theorem placeOf_obuf_range {off : Nat} (h : 0x80 ≤ off ∧ off ≤ 0xBC) : placeOf off = .obuf (off - 0x80) := by
  unfold placeOf
  iterate 7 rw [if_neg (by omega)]
  exact if_pos h

theorem placeOf_reserved_range {off : Nat} (h : 0x18 ≤ off ∧ off < 0x40 ∨ 0xC0 ≤ off) : placeOf off = .reserved := by
  unfold placeOf
  iterate 8 rw [if_neg (by omega)]

/-- The offset of word `k` of a buffer fits the window. -/
theorem wordOffset_toNat {base k : Nat} (hbase : base ≤ 0xC0) (hk : k < 16) :
    (BitVec.ofNat 8 (base + 4 * k)).toNat = base + 4 * k := by
  rw [BitVec.toNat_ofNat]
  omega

theorem placeOf_ibufWord {k : Nat} (hk : k < 16) : placeOf (BitVec.ofNat 8 (0x40 + 4 * k)).toNat = .ibuf (4 * k) := by
  rw [wordOffset_toNat (by omega) hk, placeOf_ibuf_range (by omega), Nat.add_sub_cancel_left]

theorem placeOf_obufWord {k : Nat} (hk : k < 16) : placeOf (BitVec.ofNat 8 (0x80 + 4 * k)).toNat = .obuf (4 * k) := by
  rw [wordOffset_toNat (by omega) hk, placeOf_obuf_range (by omega), Nat.add_sub_cancel_left]

theorem wordOffset_aligned {base k : Nat} (hbase : base ≤ 0xC0) (hbase4 : base % 4 = 0) (hk : k < 16) :
    (BitVec.ofNat 8 (base + 4 * k)).toNat % 4 = 0 := by
  rw [wordOffset_toNat hbase hk]
  omega

/-! ### Reads -/

/-- The model's word of four bytes is the spec's, written as a sum (00_scope.md R10). -/
theorem le32_eq_wordNat (b : Nat → Byte) (j : Nat) : le32 b (4 * j) = BitVec.ofNat 32 (wordNat b j) := by
  rw [wordNat, ← le32_toNat, BitVec.ofNat_toNat, BitVec.setWidth_eq]

theorem wordAt_ibufWord (s : State) {k : Nat} (hk : k < 16) :
    wordAt s (BitVec.ofNat 8 (0x40 + 4 * k)) = inWord s k := by
  rw [wordAt, placeOf_ibufWord hk]
  exact le32_eq_wordNat s.ibuf.read k

theorem wordAt_obufWord (s : State) {k : Nat} (hk : k < 16) :
    wordAt s (BitVec.ofNat 8 (0x80 + 4 * k)) = outWord s k := by
  rw [wordAt, placeOf_obufWord hk]
  exact le32_eq_wordNat s.obuf.read k

/-- A reserved offset reads 0 (20_memory.md R32). -/
theorem wordAt_reserved (s : State) {off : BitVec 8} (h : 0x18 ≤ off.toNat ∧ off.toNat < 0x40 ∨ 0xC0 ≤ off.toNat) :
    wordAt s off = 0#32 := by
  rw [wordAt, placeOf_reserved_range h]

/-- Settles O3: the registers' offsets by computing the map, the buffers' and the reserved ones by their ranges. -/
theorem readsFollowTheRegisterMap : Obligations.ReadsFollowTheRegisterMap := by
  unfold Obligations.ReadsFollowTheRegisterMap
  intro s
  refine ⟨rfl, rfl, rfl, rfl, rfl, rfl, fun k hk => ?ibuf, fun k hk => ?obuf, fun off haligned hrange => ?reserved,
    fun off width hbad => busAccess_read_bad hbad s⟩
  case ibuf => rw [busAccess_read_aligned (wordOffset_aligned (by omega) rfl hk), wordAt_ibufWord s hk]
  case obuf => rw [busAccess_read_aligned (wordOffset_aligned (by omega) rfl hk), wordAt_obufWord s hk]
  case reserved => rw [busAccess_read_aligned haligned, wordAt_reserved s hrange]

/-! ### Writes -/

theorem writeWord_ibufWord {s : State} (hidle : s.status.busy = false) {k : Nat} (hk : k < 16) (v : Word) :
    writeWord s (BitVec.ofNat 8 (0x40 + 4 * k)) v = { s with ibuf := s.ibuf.writeList (4 * k) (putLe32 v) } := by
  rw [writeWord, placeOf_ibufWord hk]
  exact if_neg (Bool.eq_false_iff.1 hidle)

theorem writeWord_arg {s : State} (hidle : s.status.busy = false) (v : Word) :
    writeWord s 0x08#8 v = { s with arg := v } :=
  if_neg (Bool.eq_false_iff.1 hidle)

/-- Byte `j` of a stored word is its digit `j` in base 256, the lowest first (20_memory.md R34). -/
theorem getD_putLe32_toNat (v : Word) {j : Nat} (hj : j < 4) :
    ((putLe32 v).getD j 0#8).toNat = v.toNat / 256 ^ j % 256 := by
  match j, hj with
  | 0, _ => exact byteOf_toNat v 0
  | 1, _ => exact byteOf_toNat v 8
  | 2, _ => exact byteOf_toNat v 16
  | 3, _ => exact byteOf_toNat v 24

/-- Settles O8: the new IBUF is the old one with the word's bytes written in turn. -/
theorem idleOperandWritesStore : Obligations.IdleOperandWritesStore := by
  unfold Obligations.IdleOperandWritesStore
  intro s v hidle
  refine ⟨?arg, fun k hk hwf => ⟨s.ibuf.writeList (4 * k) (putLe32 v), ?ibuf, ?wf, fun j hj => ?stored,
    fun i hi => ?kept⟩⟩
  case arg => rw [busAccess_write_aligned rfl, writeWord_arg hidle]
  case ibuf =>
    rw [busAccess_write_aligned (wordOffset_aligned (by omega) rfl hk), writeWord_ibufWord hidle hk]
  all_goals have hfits : 4 * k + (putLe32 v).length ≤ 64 := by rw [length_putLe32]; omega
  case wf => exact Memory.wf_writeList hwf _ hfits
  case stored =>
    rw [Memory.read_writeList hwf _ hfits, if_pos (by rw [length_putLe32]; omega), Nat.add_sub_cancel_left]
    exact getD_putLe32_toNat v hj
  case kept => rw [Memory.read_writeList hwf _ hfits, if_neg (by rw [length_putLe32]; omega)]

/-- Bit 8 of a STATUS write is write-one-to-clear (10_state.md R15). -/
theorem hostWrite_of_bit8 {v : Word} (h : v.getLsbD 8 = true) (st : Status) :
    st.hostWrite v = { st with ovr := false } :=
  if_pos h

theorem hostWrite_of_not_bit8 {v : Word} (h : v.getLsbD 8 = false) (st : Status) : st.hostWrite v = st :=
  if_neg (Bool.eq_false_iff.1 h)

theorem busAccess_write_status (v : Word) (s : State) :
    busAccess (.write 0x04#8 32 v) s = (.writeOk, { s with status := s.status.hostWrite v }) := rfl

/-- The read-only registers, OBUF and the reserved offsets ignore a write (20_memory.md R31, R33). -/
theorem writeWord_ignored (s : State) {off : BitVec 8} (v : Word) (haligned : off.toNat % 4 = 0)
    (h : 0x0C ≤ off.toNat ∧ off.toNat < 0x40 ∨ 0x80 ≤ off.toNat) : writeWord s off v = s := by
  have hplaces : off.toNat = 0x0C ∨ off.toNat = 0x10 ∨ off.toNat = 0x14 ∨
      (0x80 ≤ off.toNat ∧ off.toNat ≤ 0xBC) ∨ (0x18 ≤ off.toNat ∧ off.toNat < 0x40 ∨ 0xC0 ≤ off.toNat) := by omega
  rw [writeWord]
  obtain hres | hfreq | holen | hobuf | hreserved := hplaces
  · rw [hres]; rfl
  · rw [hfreq]; rfl
  · rw [holen]; rfl
  · rw [placeOf_obuf_range hobuf]
  · rw [placeOf_reserved_range hreserved]

/-- Settles O9: a STATUS write by its bit 8, and the ignored writes by their ranges. -/
theorem otherWritesOnlyClearOvr : Obligations.OtherWritesOnlyClearOvr := by
  unfold Obligations.OtherWritesOnlyClearOvr
  intro s v
  refine ⟨fun hbit => ?clears, fun hbit => ?keeps, fun off haligned hrange => ?ignored⟩
  case clears => rw [busAccess_write_status, hostWrite_of_bit8 hbit]
  case keeps => rw [busAccess_write_status, hostWrite_of_not_bit8 hbit]
  case ignored => rw [busAccess_write_aligned haligned, writeWord_ignored s v haligned hrange]

/-! ### Host accesses in order -/

/-- With an input left, `NotDue` rules the completion out: `Due` then asks for a command in flight and `wait` at 0. -/
theorem not_due_of_notDue {s : State} {i : Input} {rest : List Input} (hinputs : s.inputs = i :: rest)
    (hnotDue : NotDue s) : ¬ Due s := by
  rintro ⟨hbusy, hnone | ⟨_, _, _, _, hwait⟩⟩
  · rw [hinputs] at hnone
    exact List.cons_ne_nil _ _ hnone
  · obtain hidle | hlater := hnotDue
    · exact Bool.false_ne_true (hidle.symm.trans hbusy)
    · exact hlater hwait

/-- While no completion is due the step takes the next input (20_memory.md R38). -/
theorem step_of_notDue {s : State} {i : Input} {rest : List Input} (hinputs : s.inputs = i :: rest)
    (hnotDue : NotDue s) : step s = .next (takeInput s) :=
  stepBy_of_not_due exec (not_due_of_notDue hinputs hnotDue)

theorem takeInput_access {s : State} {a : Access} {rest : List Input} (h : s.inputs = .access a :: rest) :
    takeInput s = hostAccess a { s with inputs := rest } := by
  rw [takeInput, h]

/-- Settles O17: the step takes the access, and `hostAccess` is the bus's access and its answer recorded. -/
theorem hostAccessTakesEffectInOrder : Obligations.HostAccessTakesEffectInOrder := by
  unfold Obligations.HostAccessTakesEffectInOrder
  intro s a rest hinputs hnotDue
  refine ⟨_, _, rfl, ?_⟩
  rw [step_of_notDue hinputs hnotDue, takeInput_access hinputs]
  rfl

/-! ### The results under host accesses -/

/-- An input that is no reset acts as one host access; WAIT and COPY leave other inputs behind it. -/
theorem takeInput_of_notReset {s : State} {i : Input} {rest : List Input} (hinputs : s.inputs = i :: rest)
    (hi : i.notReset = true) : ∃ a rest', takeInput s = hostAccess a { s with inputs := rest' } := by
  rw [takeInput, hinputs]
  cases i with
  | access a => exact ⟨a, _, rfl⟩
  | waitIdle => exact ⟨.read 0x04#8 32, _, rfl⟩
  | copyWord src _ => exact ⟨.read src 32, _, rfl⟩
  | reset _ => exact absurd hi Bool.false_ne_true

/-- No bus access writes RES, FREQ, OLEN or OBUF (20_memory.md R31). -/
theorem busEffect_keeps_results {s t : State} (h : BusEffect s t) :
    t.res = s.res ∧ t.freq = s.freq ∧ t.olen = s.olen ∧ t.obuf = s.obuf := by
  cases h with
  | nothing | accepted | dropped | status | arg | ibuf => exact ⟨rfl, rfl, rfl, rfl⟩

/-- A host access is a bus access around fields that lie outside the block. -/
theorem hostAccess_keeps_results (a : Access) (s : State) :
    (hostAccess a s).res = s.res ∧ (hostAccess a s).freq = s.freq ∧ (hostAccess a s).olen = s.olen ∧
      (hostAccess a s).obuf = s.obuf := by
  have hbus := busEffect_keeps_results (busAccess_effect a { s with wait := s.wait - 1 })
  exact hbus

/-- Settles O26: such a step is one host access, and none writes the results. -/
theorem onlyCompletionChangesResults : Obligations.OnlyCompletionChangesResults := by
  unfold Obligations.OnlyCompletionChangesResults
  intro s t i rest hinputs hi hnotDue hstep
  obtain ⟨a, rest', htake⟩ := takeInput_of_notReset hinputs hi
  obtain rfl : takeInput s = t := Host.Outcome.next.inj ((step_of_notDue hinputs hnotDue).symm.trans hstep)
  rw [htake]
  exact hostAccess_keeps_results a { s with inputs := rest' }

end Sys2Proof.Proofs
end

section
/-!
PROOFS. The encoding's statements (30_encoding.md): decoding and encoding (O10 to O13), the assembler (O14), acceptance
and completion (O6, O15, O16, O20, O27), and the pseudo-instructions WAIT, READ and COPY (O18, O19).
-/

namespace Sys2Proof.Proofs

open Sys2Proof.Machine Sys2Proof.Claim

/-! ### The decoder and the encoder -/

/-- The decoder finds the row of the OPCODE field, tests the row's mask, and takes the free fields as operands
(30_encoding.md R45). -/
theorem decode_eq_ok_iff {c : Word} {i : Instr} :
    decode c = .ok i ↔ ∃ o, Opcode.ofField (bits c 0 8) = some o ∧ c &&& o.mask = o.pattern ∧
      o.instr (bits c 8 8) (bits c 16 2) (bits c 18 1) = i := by
  unfold decode
  cases Opcode.ofField (bits c 0 8) with
  | none => simp
  | some o =>
    by_cases hrow : c &&& o.mask = o.pattern
    · simp [hrow]
    · simp [hrow]

/-- The word of a well-formed command matches its own row, whatever the command. -/
theorem encode_and_mask {i : Instr} (h : WellFormed i) : encode i &&& i.opcode.mask = i.opcode.pattern := by
  cases i with
  | qenc14 => exact Laws.EncodedFields.qenc14 h
  | qdec14 => exact Laws.EncodedFields.qdec14 h
  | qenc10 => exact Laws.EncodedFields.qenc10 h
  | qdec10 => exact Laws.EncodedFields.qdec10 h
  | qenc6 => exact Laws.EncodedFields.qenc6 h
  | qdec6 => exact Laws.EncodedFields.qdec6 h
  | qencs8 => exact Laws.EncodedFields.qencs8 h
  | qdecs8 => exact Laws.EncodedFields.qdecs8 h
  | qencs9 => exact Laws.EncodedFields.qencs9 h
  | qdecs9 => exact Laws.EncodedFields.qdecs9 h
  | whiten => exact Laws.EncodedFields.whiten h
  | dewhiten => exact Laws.EncodedFields.dewhiten h
  | fecenc => exact Laws.EncodedFields.fecenc h
  | fecchk => exact Laws.EncodedFields.fecchk h
  | manenc len => exact Laws.EncodedFields.manenc len h
  | mandec len => exact Laws.EncodedFields.mandec len h
  | fhsel region slot => exact Laws.EncodedFields.fhsel region slot h

/-- The fields of the encoded word are the command's, each in its own digits (30_encoding.md R42). -/
theorem bits_encode {i : Instr} (h : WellFormed i) :
    bits (encode i) 0 8 = i.opcode.value ∧ bits (encode i) 8 8 = i.lenField ∧
      bits (encode i) 16 2 = i.regionField ∧ bits (encode i) 18 1 = i.slotField := by
  obtain ⟨hlen, hregion, hslot⟩ := Instr.fields_lt h
  have hopcode := i.opcode.value_lt
  simp only [bits_eq, encode_toNat h]
  omega

/-- A command is its mnemonic with its own fields. -/
@[simp] theorem instr_of_fields (i : Instr) : i.opcode.instr i.lenField i.regionField i.slotField = i := by
  cases i with
  | fhsel region slot => exact congrArg (Instr.fhsel · slot) (Region.ofCode_code region)
  | _ => rfl

theorem decode_encode {i : Instr} (h : WellFormed i) : decode (encode i) = .ok i := by
  obtain ⟨hopcode, hlen, hregion, hslot⟩ := bits_encode h
  refine decode_eq_ok_iff.2 ⟨i.opcode, ?_, encode_and_mask h, ?_⟩
  · rw [hopcode, Opcode.ofField_value]
  · rw [hlen, hregion, hslot, instr_of_fields]

/-- Settles O10: the encoded word has the command's fields, and matches the row of its mnemonic. -/
theorem decodeOfEncodeGivesTheCommand : Obligations.DecodeOfEncodeGivesTheCommand := by
  unfold Obligations.DecodeOfEncodeGivesTheCommand
  exact fun i h => decode_encode h

@[simp] theorem opcode_instr (o : Opcode) (len region slot : Nat) : (o.instr len region slot).opcode = o := by
  cases o <;> rfl

theorem wellFormed_instr (o : Opcode) {len slot : Nat} (region : Nat) (hlen : len < 256) (hslot : slot < 2) :
    WellFormed (o.instr len region slot) := by
  cases o with
  | MANENC | MANDEC => exact decide_eq_true hlen
  | FHSEL => exact decide_eq_true hslot
  | _ => rfl

/-- A word that matches a row is the sum of the row's OPCODE and the fields that the row leaves free: the masks fix
every other bit at 0 (30_encoding.md R45). -/
theorem toNat_of_and_mask {c : Word} {o : Opcode} (h : c &&& o.mask = o.pattern) :
    let i := o.instr (bits c 8 8) (bits c 16 2) (bits c 18 1)
    c.toNat = o.value + 256 * i.lenField + 65536 * i.regionField + 262144 * i.slotField := by
  have hrow : (c &&& o.mask).toNat = o.value := by
    rw [h, Opcode.pattern, BitVec.toNat_ofNat]
    have := o.value_lt
    omega
  cases o with
  | MANENC | MANDEC =>
    rw [Opcode.mask, and_mask_man] at hrow
    simp only [Opcode.instr, Instr.lenField, Instr.regionField, Instr.slotField, Opcode.value, bits_eq] at hrow ⊢
    omega
  | FHSEL =>
    have hregion : bits c 16 2 < 4 := Nat.mod_lt _ (by decide)
    rw [Opcode.mask, and_mask_fhsel] at hrow
    simp only [Opcode.instr, Instr.lenField, Instr.regionField, Instr.slotField, Opcode.value,
      Region.code_ofCode hregion] at hrow ⊢
    simp only [bits_eq]
    omega
  | _ => rwa [Opcode.mask, and_mask_all] at hrow

/-- Settles O11: the operands come out of bounded fields, and the row's mask leaves no other bit of the word. -/
theorem legalWordIsTheEncodedWordOfItsCommand : Obligations.LegalWordIsTheEncodedWordOfItsCommand := by
  unfold Obligations.LegalWordIsTheEncodedWordOfItsCommand
  intro c i h
  obtain ⟨o, _, hrow, rfl⟩ := decode_eq_ok_iff.1 h
  have hwf : WellFormed (o.instr (bits c 8 8) (bits c 16 2) (bits c 18 1)) :=
    wellFormed_instr o _ (Nat.mod_lt _ (by decide)) (Nat.mod_lt _ (by decide))
  refine ⟨hwf, BitVec.eq_of_toNat_eq ?_⟩
  rw [encode_toNat hwf, opcode_instr]
  exact (toNat_of_and_mask hrow).symm

/-! ### Legal words -/

theorem legal_iff (c : Word) : legal c = true ↔ ∃ i, decode c = .ok i := by
  unfold legal
  cases decode c <;> simp

/-- The legal words are the encoded words of the well-formed commands. -/
theorem legal_iff_encode (c : Word) : legal c = true ↔ ∃ i, WellFormed i ∧ encode i = c := by
  rw [legal_iff]
  constructor
  · rintro ⟨i, hi⟩
    exact ⟨i, legalWordIsTheEncodedWordOfItsCommand c i hi⟩
  · rintro ⟨i, hwf, rfl⟩
    exact ⟨i, decode_encode hwf⟩

/-- The commands with no operand in their word. -/
def fixedCommands : List Instr :=
  [.qenc14, .qdec14, .qenc10, .qdec10, .qenc6, .qdec6, .qencs8, .qdecs8, .qencs9, .qdecs9, .whiten, .dewhiten,
    .fecenc, .fecchk]

theorem fixedCommands_words {i : Instr} (h : i ∈ fixedCommands) : WellFormed i ∧ (encode i).toNat = i.opcode.value :=
  (by decide : ∀ i ∈ fixedCommands, WellFormed i ∧ (encode i).toNat = i.opcode.value) i h

theorem legal_of_toNat_encode {c : Word} {i : Instr} (hwf : WellFormed i) (h : c.toNat = (encode i).toNat) :
    legal c = true :=
  (legal_iff_encode c).2 ⟨i, hwf, (BitVec.eq_of_toNat_eq h).symm⟩

theorem encode_manenc_toNat {len : Nat} (h : len < 256) : (encode (.manenc len)).toNat = 0x40 + 256 * len :=
  encode_toNat (i := .manenc len) (decide_eq_true h)

theorem encode_mandec_toNat {len : Nat} (h : len < 256) : (encode (.mandec len)).toNat = 0x41 + 256 * len :=
  encode_toNat (i := .mandec len) (decide_eq_true h)

theorem encode_fhsel_toNat (region : Region) {slot : Nat} (h : slot < 2) :
    (encode (.fhsel region slot)).toNat = 0x50 + 65536 * region.code + 262144 * slot :=
  encode_toNat (i := .fhsel region slot) (decide_eq_true h)

/-- The encoded words are those of the table's rows: OPCODE alone, with LEN, or with REGION and SLOT. -/
theorem encode_mem_table {i : Instr} (hwf : WellFormed i) :
    (encode i).toNat ∈ fixedCommands.map (·.opcode.value) ∨
      ((encode i).toNat % 256 = 0x40 ∨ (encode i).toNat % 256 = 0x41) ∧ (encode i).toNat < 65536 ∨
      (encode i).toNat % 65536 = 0x50 ∧ (encode i).toNat < 524288 := by
  cases i with
  | manenc len =>
    have hlen : len < 256 := of_decide_eq_true hwf
    rw [encode_manenc_toNat hlen]
    exact .inr (.inl (by omega))
  | mandec len =>
    have hlen : len < 256 := of_decide_eq_true hwf
    rw [encode_mandec_toNat hlen]
    exact .inr (.inl (by omega))
  | fhsel region slot =>
    have hslot : slot < 2 := of_decide_eq_true hwf
    have hregion := region.code_lt
    rw [encode_fhsel_toNat region hslot]
    exact .inr (.inr (by omega))
  | _ => exact .inl (by decide)

theorem legal_of_fixed {c : Word} (h : c.toNat ∈ fixedCommands.map (·.opcode.value)) : legal c = true := by
  obtain ⟨i, hi, hvalue⟩ := List.mem_map.1 h
  obtain ⟨hwf, hword⟩ := fixedCommands_words hi
  exact legal_of_toNat_encode hwf (hvalue.symm.trans hword.symm)

theorem legal_of_manchester {c : Word} (hop : c.toNat % 256 = 0x40 ∨ c.toNat % 256 = 0x41) (hc : c.toNat < 65536) :
    legal c = true := by
  have hlen : c.toNat / 256 < 256 := by omega
  obtain henc | hdec := hop
  · refine legal_of_toNat_encode (i := .manenc (c.toNat / 256)) (decide_eq_true hlen) ?_
    rw [encode_manenc_toNat hlen]
    omega
  · refine legal_of_toNat_encode (i := .mandec (c.toNat / 256)) (decide_eq_true hlen) ?_
    rw [encode_mandec_toNat hlen]
    omega

theorem legal_of_fhsel {c : Word} (hop : c.toNat % 65536 = 0x50) (hc : c.toNat < 524288) : legal c = true := by
  have hslot : c.toNat / 262144 < 2 := by omega
  have hregion : c.toNat / 65536 % 4 < 4 := Nat.mod_lt _ (by decide)
  refine legal_of_toNat_encode (i := .fhsel (Region.ofCode (c.toNat / 65536 % 4)) (c.toNat / 262144))
    (decide_eq_true hslot) ?_
  rw [encode_fhsel_toNat _ hslot, Region.code_ofCode hregion]
  omega

/-- The completion of an illegal word is `fail(E_ILLEGAL_CMD)` (30_encoding.md R46). -/
theorem complete_of_illegal {s : State} (h : legal s.cmd = false) : complete s = .next (fail .illegalCmd s) := by
  unfold legal at h
  unfold complete completeBy
  cases hdecode : decode s.cmd with
  | ok i => simp [hdecode] at h
  | error r => rfl

/-- Settles O12: the legal words are the encoded ones, and those the table's. -/
theorem legalWordsAreThoseOfTheTable : Obligations.LegalWordsAreThoseOfTheTable := by
  unfold Obligations.LegalWordsAreThoseOfTheTable
  refine ⟨fun c => ⟨fun h => ?_, ?_⟩, fun s h => ⟨_, complete_of_illegal h, fail_failed _ s⟩⟩
  · obtain ⟨i, hwf, rfl⟩ := (legal_iff_encode c).1 h
    exact encode_mem_table hwf
  · rintro (hfixed | ⟨hop, hc⟩ | ⟨hop, hc⟩)
    · exact legal_of_fixed hfixed
    · exact legal_of_manchester hop hc
    · exact legal_of_fhsel hop hc

/-- Settles O13: the first six words are encoded ones, and the last four are computed. -/
theorem specCommandWordsDecode : Obligations.SpecCommandWordsDecode := by
  unfold Obligations.SpecCommandWordsDecode
  exact ⟨decode_encode (i := .qenc14) rfl, decode_encode (i := .dewhiten) rfl, decode_encode (i := .fecchk) rfl,
    decode_encode (i := .manenc 26) rfl, decode_encode (i := .mandec 52) rfl,
    decode_encode (i := .fhsel .northAmerica 1) rfl, rfl, rfl, rfl, rfl⟩

/-! ### The assembler -/

/-- The value read so far for a key. -/
def fieldOf (f : AsmFields) : Key → Option Nat
  | .len => f.len
  | .region => f.region
  | .slot => f.slot

/-- The fields with one more value read. -/
def setField (f : AsmFields) (k : Key) (v : Nat) : AsmFields :=
  match k with
  | .len => { f with len := some v }
  | .region => { f with region := some v }
  | .slot => { f with slot := some v }

theorem fieldOf_setField (f : AsmFields) (k : Key) (v : Nat) (k' : Key) :
    fieldOf (setField f k v) k' = if k = k' then some v else fieldOf f k' := by
  cases k <;> cases k' <;> rfl

/-- An operand is read when it is allowed and its key is new (30_encoding.md R51, log 14); it then sets its key. -/
theorem asmOperand_eq_some {o : Opcode} {f g : AsmFields} {a : AsmOperand} :
    asmOperand o f a = some g ↔ (okFor o a ∧ fieldOf f (key a) = none) ∧ setField f (key a) (value a) = g := by
  cases a with
  | len n | region n | slot n => simp [asmOperand, okFor, fieldOf, setField, key, value, and_assoc]
  | regionName r => cases r <;> simp [asmOperand, okFor, fieldOf, setField, key, value, Region.code]

/-- The value that a line gives a key, if it gives one: `given` before the default 0. -/
def givenIn (k : Key) (operands : List AsmOperand) : Option Nat :=
  (operands.find? (fun a => decide (key a = k))).map value

/-- The rest of a line, when the values of `f` have been read: every operand is allowed, and its key is new. -/
def TakenAfter (f : AsmFields) (o : Opcode) (operands : List AsmOperand) : Prop :=
  Taken o operands ∧ ∀ a, a ∈ operands → fieldOf f (key a) = none

theorem fieldOf_setField_eq_none {f : AsmFields} {k k' : Key} {v : Nat} :
    fieldOf (setField f k v) k' = none ↔ k' ≠ k ∧ fieldOf f k' = none := by
  rw [fieldOf_setField]
  by_cases h : k = k'
  · simp [h]
  · simp [h, Ne.symm h]

/-- The operands after `a` have keys other than `a`'s, and other than those read before. -/
theorem takenAfter_cons {f : AsmFields} {o : Opcode} {a : AsmOperand} {rest : List AsmOperand} :
    TakenAfter f o (a :: rest) ↔
      (okFor o a ∧ fieldOf f (key a) = none) ∧ TakenAfter (setField f (key a) (value a)) o rest := by
  have hnew : (key a ∉ rest.map key) ↔ ∀ b, b ∈ rest → key b ≠ key a := by simp
  simp only [TakenAfter, Taken, List.forall_mem_cons, List.map_cons, List.nodup_cons, hnew, fieldOf_setField_eq_none,
    forall_and]
  constructor
  · rintro ⟨⟨⟨hok, hoks⟩, hother, hnodup⟩, hfresh, hfreshs⟩
    exact ⟨⟨hok, hfresh⟩, ⟨hoks, hnodup⟩, hother, hfreshs⟩
  · rintro ⟨⟨hok, hfresh⟩, ⟨hoks, hnodup⟩, hother, hfreshs⟩
    exact ⟨⟨⟨hok, hoks⟩, hother, hnodup⟩, hfresh, hfreshs⟩

/-- The assembler reads exactly the lines that are taken. -/
theorem asmOperands_isSome_iff {o : Opcode} {f : AsmFields} {operands : List AsmOperand} :
    (asmOperands o f operands).isSome = true ↔ TakenAfter f o operands := by
  induction operands generalizing f with
  | nil => simp [asmOperands, TakenAfter, Taken]
  | cons a rest ih =>
    rw [takenAfter_cons, asmOperands]
    cases hread : asmOperand o f a with
    | none =>
      have hrefused : ¬ (okFor o a ∧ fieldOf f (key a) = none) := fun hok => by
        rw [asmOperand_eq_some.2 ⟨hok, rfl⟩] at hread
        cases hread
      simp [hrefused]
    | some g =>
      obtain ⟨hok, rfl⟩ := asmOperand_eq_some.1 hread
      simp [hok, ih]

theorem givenIn_cons (k : Key) (a : AsmOperand) (rest : List AsmOperand) :
    givenIn k (a :: rest) = if key a = k then some (value a) else givenIn k rest := by
  by_cases h : key a = k
  · simp [givenIn, h]
  · simp [givenIn, h]

/-- After a line each key has the value read before it, or else the line's. -/
theorem fieldOf_asmOperands {o : Opcode} {f g : AsmFields} {operands : List AsmOperand}
    (h : asmOperands o f operands = some g) (k : Key) : fieldOf g k = (fieldOf f k).or (givenIn k operands) := by
  induction operands generalizing f with
  | nil =>
    obtain rfl : f = g := Option.some.inj h
    exact (Option.or_none ..).symm
  | cons a rest ih =>
    rw [asmOperands] at h
    split at h
    · rename_i f' hread
      obtain ⟨⟨_, hfresh⟩, rfl⟩ := asmOperand_eq_some.1 hread
      rw [ih h, fieldOf_setField, givenIn_cons]
      by_cases hk : key a = k
      · subst hk
        simp [hfresh]
      · simp [hk]
    · cases h

/-- A line that is taken names the mnemonic's command with the values given. -/
theorem assemble_of_taken {o : Opcode} {operands : List AsmOperand} (h : Taken o operands) :
    assemble o operands =
      some (o.instr (given .len operands) (given .region operands) (given .slot operands)) := by
  have hread : (asmOperands o ⟨none, none, none⟩ operands).isSome = true :=
    asmOperands_isSome_iff.2 ⟨h, fun a _ => by cases a <;> rfl⟩
  obtain ⟨g, hg⟩ := Option.isSome_iff_exists.1 hread
  have hlen : g.len = givenIn .len operands := fieldOf_asmOperands hg .len
  have hregion : g.region = givenIn .region operands := fieldOf_asmOperands hg .region
  have hslot : g.slot = givenIn .slot operands := fieldOf_asmOperands hg .slot
  rw [assemble, hg]
  show some (o.instr (g.len.getD 0) (g.region.getD 0) (g.slot.getD 0)) = _
  rw [hlen, hregion, hslot]
  rfl

theorem assemble_of_not_taken {o : Opcode} {operands : List AsmOperand} (h : ¬ Taken o operands) :
    assemble o operands = none := by
  have hread : asmOperands o ⟨none, none, none⟩ operands = none := by
    rw [← Option.not_isSome_iff_eq_none, asmOperands_isSome_iff]
    exact fun htaken => h htaken.1
  rw [assemble, hread]

/-- A key's value is 0 or that of one of the line's operands. -/
theorem given_cases (k : Key) (operands : List AsmOperand) :
    given k operands = 0 ∨ ∃ a, a ∈ operands ∧ key a = k ∧ given k operands = value a := by
  unfold given
  cases hfind : operands.find? (fun a => decide (key a = k)) with
  | none => exact .inl rfl
  | some a => exact .inr ⟨a, List.mem_of_find?_eq_some hfind, by simpa using List.find?_some hfind, rfl⟩

/-- The values that the row of `o` may have: those of 30_encoding.md R51 where the field is used, and 0 elsewhere. -/
structure FieldsFit (o : Opcode) (len region slot : Nat) : Prop where
  len : len = 0 ∨ (o = .MANENC ∨ o = .MANDEC) ∧ len ≤ 255
  region : region = 0 ∨ o = .FHSEL ∧ region ≤ 3
  slot : slot = 0 ∨ o = .FHSEL ∧ slot ≤ 1

/-- The range check of each operand that is taken bounds its field. -/
theorem fieldsFit_of_taken {o : Opcode} {operands : List AsmOperand} (h : Taken o operands) :
    FieldsFit o (given .len operands) (given .region operands) (given .slot operands) := by
  refine ⟨(given_cases .len operands).imp_right ?_, (given_cases .region operands).imp_right ?_,
    (given_cases .slot operands).imp_right ?_⟩
  all_goals
    rintro ⟨a, ha, hkey, hvalue⟩
    have hok := h.1 a ha
    rw [hvalue]
  · cases a with
    | len n => exact hok
    | _ => cases hkey
  · cases a with
    | region code => exact hok
    | regionName r => exact ⟨hok, by cases r <;> decide⟩
    | _ => cases hkey
  · cases a with
    | slot n => exact hok
    | _ => cases hkey

/-- The fields of a command are the values it was made of, when they fit its row. -/
theorem fields_instr {o : Opcode} {len region slot : Nat} (h : FieldsFit o len region slot) :
    (o.instr len region slot).lenField = len ∧ (o.instr len region slot).regionField = region ∧
      (o.instr len region slot).slotField = slot := by
  obtain ⟨hlen, hregion, hslot⟩ := h
  cases o with
  | MANENC | MANDEC =>
    simp only [reduceCtorEq, false_and, or_false] at hregion hslot
    exact ⟨rfl, hregion.symm, hslot.symm⟩
  | FHSEL =>
    simp only [reduceCtorEq, or_self, false_and, or_false] at hlen
    exact ⟨hlen.symm, Region.code_ofCode (by omega), rfl⟩
  | _ =>
    simp only [reduceCtorEq, or_self, false_and, or_false] at hlen hregion hslot
    exact ⟨hlen.symm, hregion.symm, hslot.symm⟩

/-- Settles O14: a line is read operand by operand, and the fields of its command are then its word's. -/
theorem assembledWordsDecodeToTheirCommand : Obligations.AssembledWordsDecodeToTheirCommand := by
  unfold Obligations.AssembledWordsDecodeToTheirCommand
  refine fun o operands => ⟨fun h => ?_, assemble_of_not_taken⟩
  have hfit := fieldsFit_of_taken h
  obtain ⟨hlen, hregion, hslot⟩ := fields_instr hfit
  have hwf : WellFormed (o.instr (given .len operands) (given .region operands) (given .slot operands)) := by
    obtain ⟨hlenFits, _, hslotFits⟩ := hfit
    exact wellFormed_instr o _ (by omega) (by omega)
  refine ⟨_, assemble_of_taken h, hwf, opcode_instr .., hlen, hregion, hslot, decode_encode hwf, ?_⟩
  rw [encode_toNat hwf, opcode_instr, hlen, hregion, hslot]

/-! ### Acceptance -/

theorem busAccess_write_cmd {s : State} (hidle : s.status.busy = false) (v : Word) :
    busAccess (.write 0x00#8 32 v) s = (.writeOk, accept v s) := by
  rw [busAccess_write_aligned rfl]
  exact congrArg (Prod.mk _) (if_neg (Bool.eq_false_iff.1 hidle))

/-- Settles O6: `accept` writes CMD, STATUS and the latency alone, and no bus access writes the results. -/
theorem idleCmdWriteIsAccepted : Obligations.IdleCmdWriteIsAccepted := by
  unfold Obligations.IdleCmdWriteIsAccepted
  refine ⟨fun s v hidle => ⟨accept v s, busAccess_write_cmd hidle v, ?_⟩,
    fun a s => busEffect_keeps_results (busAccess_effect a s)⟩
  exact ⟨rfl, rfl, rfl, rfl, rfl, rfl, rfl, rfl, rfl, rfl⟩

/-! ### The completion step -/

/-- Settles O15: a due completion is the decoded command's meaning. -/
theorem stepRunsTheDecodedCommand : Obligations.StepRunsTheDecodedCommand := by
  unfold Obligations.StepRunsTheDecodedCommand
  exact fun s i hdue hdecode => stepBy_of_due hdue hdecode

/-- Settles O16: a due completion is `complete()`, and that of an illegal word is `fail`. -/
theorem illegalWordFailsWithIllegalCmd : Obligations.IllegalWordFailsWithIllegalCmd := by
  unfold Obligations.IllegalWordFailsWithIllegalCmd
  intro s hdue hillegal
  refine ⟨fail .illegalCmd s, ?_, fail_failed _ s⟩
  rw [step_of_due ((completionDue_iff_due s).2 hdue), complete_of_illegal hillegal]

/-! ### A command in flight -/

/-- While BUSY = 1 a bus access changes nothing in the block but OVR (70_reset_and_hazards.md R108). -/
theorem busEffect_of_busy {s t : State} (h : BusEffect s t) (hbusy : s.status.busy = true) :
    ∃ ovr, t = { s with status := { s.status with ovr := ovr } } := by
  cases h with
  | nothing => exact ⟨s.status.ovr, rfl⟩
  | accepted _ hidle | arg _ hidle | ibuf _ _ hidle _ => exact absurd (hbusy.symm.trans hidle) nofun
  | dropped _ => exact ⟨true, rfl⟩
  | status v =>
    obtain hkept | hcleared := s.status.hostWrite_cases v
    · exact ⟨s.status.ovr, by rw [hkept]⟩
    · exact ⟨false, by rw [hcleared]⟩

/-- While BUSY = 1 a host access is answered and counted, and changes nothing in the block but OVR. -/
theorem hostAccess_of_busy (a : Access) {s : State} (hbusy : s.status.busy = true) :
    ∃ ovr r, hostAccess a s = { s with
      status := { s.status with ovr := ovr }, wait := s.wait - 1, responses := r :: s.responses } := by
  obtain ⟨ovr, hbus⟩ := busEffect_of_busy (busAccess_effect a { s with wait := s.wait - 1 }) hbusy
  refine ⟨ovr, (busAccess a { s with wait := s.wait - 1 }).1, ?_⟩
  rw [hostAccess]
  dsimp only
  rw [hbus]

theorem copyRest_notReset (dst : BitVec 8) (r : Response) : (copyRest dst r).all Input.notReset = true := by
  cases r <;> rfl

/-- An input that is no reset is one host access, and leaves no reset behind it where none was. -/
theorem takeInput_of_all_notReset {s : State} (hinputs : s.inputs ≠ []) (hall : s.inputs.all Input.notReset = true) :
    ∃ a rest, takeInput s = hostAccess a { s with inputs := rest } ∧ rest.all Input.notReset = true := by
  unfold takeInput
  split
  · contradiction
  all_goals
    rename_i hcons
    rw [hcons, List.all_cons, Bool.and_eq_true] at hall
    obtain ⟨hfirst, hrest⟩ := hall
  · exact ⟨_, _, rfl, hrest⟩
  · refine ⟨_, _, rfl, ?_⟩
    split
    · exact hrest
    · exact hrest
  · exact ⟨_, _, rfl, by rw [List.all_append, copyRest_notReset, hrest]; rfl⟩
  · cases hfirst

/-- With a command in flight and no reset ahead, the step completes it or performs one of the accesses that `wait`
still allows (70_reset_and_hazards.md R112). -/
theorem step_of_busy {s : State} (hbusy : s.status.busy = true) (hall : s.inputs.all Input.notReset = true) :
    (∃ t, step s = .next t ∧ Ends s t) ∨
    ∃ t, step s = .next t ∧ 0 < s.wait ∧ t.wait = s.wait - 1 ∧ t.status.busy = true ∧ t.cmd = s.cmd ∧
      t.inputs.all Input.notReset = true ∧ t.responses.length = s.responses.length + 1 := by
  by_cases hdue : completionDue s = true
  · obtain ⟨t, ht, hends⟩ := complete_ends s
    exact .inl ⟨t, (step_of_due hdue).trans ht, hends⟩
  · have hnotDue := mt (completionDue_iff_due s).2 hdue
    have hinputs : s.inputs ≠ [] := fun hnone => hnotDue ⟨hbusy, .inl hnone⟩
    have hwait : s.wait ≠ 0 := by
      intro hzero
      obtain ⟨i, rest, hcons⟩ := List.exists_cons_of_ne_nil hinputs
      have hi : i.notReset = true := List.all_eq_true.1 hall i (by rw [hcons]; exact List.mem_cons_self)
      exact hnotDue ⟨hbusy, .inr ⟨i, rest, hcons, hi, hzero⟩⟩
    obtain ⟨a, rest, htake, hrest⟩ := takeInput_of_all_notReset hinputs hall
    obtain ⟨ovr, r, haccess⟩ := hostAccess_of_busy a (s := { s with inputs := rest }) hbusy
    refine .inr ⟨_, step_of_not_due (Bool.eq_false_iff.2 hdue), ?_⟩
    rw [htake, haccess]
    exact ⟨Nat.pos_of_ne_zero hwait, rfl, hbusy, rfl, hrest, rfl⟩

theorem ends_idle_done {s t : State} (h : Ends s t) : t.status.busy = false ∧ t.status.done = true := by
  obtain ⟨res, freq, out, _, rfl⟩ | ⟨e, _, rfl⟩ := h
  · exact ⟨rfl, rfl⟩
  · exact ⟨rfl, rfl⟩

/-- Settles O20, by induction on the accesses that LATENCY still leaves. -/
theorem commandInFlightCompletes : Obligations.CommandInFlightCompletes := by
  unfold Obligations.CommandInFlightCompletes
  intro s hbusy hall
  induction hw : s.wait using Nat.strongRecOn generalizing s with
  | ind w ih =>
    subst hw
    obtain ⟨t, ht, hends⟩ | ⟨t, ht, hpos, hwait, htbusy, hcmd, htall, hresponses⟩ := step_of_busy hbusy hall
    · obtain ⟨hidle, hdone⟩ := ends_idle_done hends
      refine ⟨1, t, by omega, run_succ ht 0, hidle, hdone, hends.kept.cmd, ?_⟩
      rw [hends.kept.responses]
      exact Nat.le_add_right ..
    · obtain ⟨n, u, hn, hrun, hidle, hdone, hcmd', hlength⟩ := ih t.wait (by omega) t htbusy htall rfl
      exact ⟨n + 1, u, by omega, (run_succ ht n).trans hrun, hidle, hdone, hcmd'.trans hcmd, by omega⟩

/-! ### Every command -/

/-- A completion leaves what the window shows outside STATUS, RES, FREQ, OLEN and OBUF: those offsets are CMD, ARG, IBUF
and the reserved ones (20_memory.md R27). -/
theorem wordAt_of_kept {s t : State} (h : Kept s t) {off : BitVec 8} (haligned : off.toNat % 4 = 0)
    (hoff : ¬ (0x04 ≤ off.toNat ∧ off.toNat < 0x08 ∨ 0x0C ≤ off.toNat ∧ off.toNat < 0x18 ∨
      0x80 ≤ off.toNat ∧ off.toNat < 0xC0)) : wordAt t off = wordAt s off := by
  have hplaces : off.toNat = 0x00 ∨ off.toNat = 0x08 ∨ (0x40 ≤ off.toNat ∧ off.toNat ≤ 0x7C) ∨
      (0x18 ≤ off.toNat ∧ off.toNat < 0x40 ∨ 0xC0 ≤ off.toNat) := by omega
  obtain hcmd | harg | hibuf | hreserved := hplaces
  · rw [wordAt, wordAt, hcmd]
    exact h.cmd
  · rw [wordAt, wordAt, harg]
    exact h.arg
  · rw [wordAt, wordAt, placeOf_ibuf_range hibuf]
    dsimp only
    rw [h.ibuf]
  · rw [wordAt_reserved t hreserved, wordAt_reserved s hreserved]

theorem windowByte_of_kept {s t : State} (h : Kept s t) {off : Nat} (hlt : off < 256)
    (hoff : ¬ (0x04 ≤ off ∧ off < 0x08 ∨ 0x0C ≤ off ∧ off < 0x18 ∨ 0x80 ≤ off ∧ off < 0xC0)) :
    windowByte t off = windowByte s off := by
  have hword : (BitVec.ofNat 8 (off - off % 4)).toNat = off - off % 4 := by
    rw [BitVec.toNat_ofNat]
    omega
  rw [windowByte, windowByte, wordAt_of_kept h (by omega) (by omega)]

/-- The two ends in the terms of Safety.lean. -/
theorem finished_or_failed_of_ends {s t : State} (h : Ends s t) :
    (∃ res freq out, out.length ≤ 64 ∧ Finished s t res freq out) ∨ ∃ e, e ≠ .none ∧ Failed s t e := by
  obtain ⟨res, freq, out, hout, rfl⟩ | ⟨e, he, rfl⟩ := h
  · exact .inl ⟨res, freq, out, hout, finish_finished res freq out s hout⟩
  · exact .inr ⟨e, he, fail_failed e s⟩

/-- Settles O27: both ends keep what the other offsets show, and while BUSY = 1 a bus access changes OVR alone. -/
theorem commandsEndInFinishOrFail : Obligations.CommandsEndInFinishOrFail := by
  unfold Obligations.CommandsEndInFinishOrFail
  refine ⟨fun i s => ?_, fun a s t hbusy haccess => ?_⟩
  · obtain ⟨t, ht, hends⟩ := exec_ends i s
    exact ⟨t, ht, finished_or_failed_of_ends hends, fun off hlt hoff => windowByte_of_kept hends.kept hlt hoff⟩
  · obtain ⟨ovr, hbus⟩ := busEffect_of_busy (busAccess_effect a s) hbusy
    obtain rfl := haccess.symm.trans hbus
    exact ⟨rfl, rfl, rfl, rfl, rfl, rfl, rfl, rfl⟩

/-! ### WAIT -/

theorem takeInput_waitIdle {s : State} {rest : List Input} (h : s.inputs = .waitIdle :: rest) :
    takeInput s =
      hostAccess (.read 0x04#8 32) { s with inputs := if s.status.busy then .waitIdle :: rest else rest } := by
  rw [takeInput, h]

/-- Settles O18: the step is the read of STATUS that WAIT expands to. -/
theorem waitPollsUntilNotBusy : Obligations.WaitPollsUntilNotBusy := by
  unfold Obligations.WaitPollsUntilNotBusy
  intro s rest hinputs hnotDue
  rw [step_of_notDue hinputs hnotDue, takeInput_waitIdle hinputs]
  rfl

/-! ### READ -/

/-- What the bus answers to a 32-bit read. -/
def readAnswer (s : State) (off : BitVec 8) : Response := (busAccess (.read off 32) s).1

theorem readAnswer_aligned (s : State) {off : BitVec 8} (h : off.toNat % 4 = 0) :
    readAnswer s off = .readData (wordAt s off) := by
  rw [readAnswer, busAccess_read_aligned h]

theorem readAnswer_misaligned (s : State) {off : BitVec 8} (h : off.toNat % 4 ≠ 0) : readAnswer s off = .busError := by
  rw [readAnswer, busAccess_read_bad (.inl h)]

/-- An answer depends only on the word that stands at the offset. -/
theorem readAnswer_congr {s t : State} {off : BitVec 8} (h : wordAt s off = wordAt t off) :
    readAnswer s off = readAnswer t off := by
  by_cases haligned : off.toNat % 4 = 0
  · rw [readAnswer_aligned s haligned, readAnswer_aligned t haligned, h]
  · rw [readAnswer_misaligned s haligned, readAnswer_misaligned t haligned]

/-- The state after the reads of `offs`, with `rest` left to do. -/
def afterReads (s : State) (offs : List (BitVec 8)) (rest : List Input) : State :=
  { s with
    inputs := rest
    responses := (offs.map (readAnswer s)).reverse ++ s.responses
    wait := s.wait - offs.length }

/-- A read is answered, and changes nothing in the block (20_memory.md R30). -/
theorem hostAccess_read (off : BitVec 8) (s : State) (rest : List Input) :
    hostAccess (.read off 32) { s with inputs := rest } = afterReads s [off] rest := by
  have hanswer : (busAccess (.read off 32) { s with inputs := rest, wait := s.wait - 1 }).1 = readAnswer s off :=
    readAnswer_congr (s := { s with inputs := rest, wait := s.wait - 1 }) rfl
  rw [hostAccess, hanswer, busAccess_read]
  rfl

/-- Reads one after another are reads all at once: what a read is answered does not depend on those before it. -/
theorem afterReads_afterReads (s : State) (off : BitVec 8) (offs : List (BitVec 8)) (rest rest' : List Input) :
    afterReads (afterReads s [off] rest) offs rest' = afterReads s (off :: offs) rest' := by
  have hanswers : readAnswer (afterReads s [off] rest) = readAnswer s := funext fun _ => readAnswer_congr rfl
  unfold afterReads at hanswers ⊢
  rw [hanswers]
  simp [Nat.sub_sub, Nat.add_comm]

theorem step_of_read {s : State} {off : BitVec 8} {rest : List Input}
    (hinputs : s.inputs = .access (.read off 32) :: rest) (hnotDue : NotDue s) :
    step s = .next (afterReads s [off] rest) := by
  rw [step_of_notDue hinputs hnotDue, takeInput_access hinputs, hostAccess_read]

/-- Reads in a row, none of which finds the completion due, are answered one after another. -/
theorem run_reads (offs : List (BitVec 8)) {s : State} {rest : List Input}
    (hnotDue : s.status.busy = false ∨ offs.length ≤ s.wait)
    (hinputs : s.inputs = offs.map (fun off => .access (.read off 32)) ++ rest) :
    Sys2Proof.core.run offs.length s = .next (afterReads s offs rest) := by
  induction offs generalizing s with
  | nil =>
    obtain rfl : s.inputs = rest := hinputs
    exact run_zero s
  | cons off offs ih =>
    rw [List.length_cons] at hnotDue ⊢
    have hfirst : NotDue s := hnotDue.imp_right (by omega)
    have hlater : s.status.busy = false ∨ offs.length ≤ s.wait - 1 := hnotDue.imp_right (by omega)
    rw [run_succ (step_of_read hinputs hfirst), ih hlater rfl, afterReads_afterReads]

/-- The offsets that `READ OBUF+k, n` reads (30_encoding.md R52). -/
def readOffsets (k n : Nat) : List (BitVec 8) :=
  (List.range (wordsFor n)).map (fun j => (HostReg.obuf (k + 4 * j)).off)

@[simp] theorem length_readOffsets (k n : Nat) : (readOffsets k n).length = wordsFor n := by
  simp [readOffsets]

theorem expand_read (k n : Nat) :
    (HostStmt.read k n).expand = (readOffsets k n).map (fun off => .access (.read off 32)) := by
  simp [HostStmt.expand, readOffsets, rdInput]

/-- The result of a READ whose answers are the newest. -/
theorem readResultAt_of_responses {n : Nat} {t : State} {answers earlier : List Response}
    (hlength : answers.length = wordsFor n) (h : t.responses = answers.reverse ++ earlier) :
    readResultAt n t = readResult n answers := by
  rw [readResultAt, h, List.take_left' (by rw [List.length_reverse, hlength]), List.reverse_reverse]

/-- Every offset of a READ has the alignment of `k`. -/
theorem readOffset_mod (k j : Nat) : (HostReg.obuf (k + 4 * j)).off.toNat % 4 = k % 4 := by
  rw [HostReg.off, BitVec.toNat_ofNat]
  omega

/-- Byte `i` of the words that an aligned READ reads is byte 0x80 + k + i of the window (log 20). -/
theorem readByte_eq_windowByte (s : State) {k : Nat} (hk : k % 4 = 0) (i : Nat) :
    (wordAt s (HostReg.obuf (k + 4 * (i / 4))).off).extractLsb' (8 * (i % 4)) 8 =
      windowByte s ((0x80 + k + i) % 256) := by
  have hbyte : (0x80 + k + i) % 256 % 4 = i % 4 := by omega
  have hword : (HostReg.obuf (k + 4 * (i / 4))).off =
      BitVec.ofNat 8 ((0x80 + k + i) % 256 - (0x80 + k + i) % 256 % 4) := by
    rw [HostReg.off, ← BitVec.toNat_inj, BitVec.toNat_ofNat, BitVec.toNat_ofNat]
    omega
  rw [windowByte, ← hword, hbyte]

/-- The result of an aligned READ: all its answers are words. -/
theorem readResult_aligned (s : State) {k : Nat} (hk : k % 4 = 0) (n : Nat) :
    readResult n ((readOffsets k n).map (readAnswer s)) =
      some ((List.range n).map (fun i => windowByte s ((0x80 + k + i) % 256))) := by
  refine readResult_eq_some.2 ⟨(readOffsets k n).map (wordAt s), by simp, ?_, ?_⟩
  · rw [List.map_map]
    refine List.map_congr_left fun off hoff => ?_
    obtain ⟨j, _, rfl⟩ := List.mem_map.1 hoff
    exact readAnswer_aligned s ((readOffset_mod k j).trans hk)
  · refine List.ext_getElem? fun i => ?_
    rw [List.getElem?_take]
    by_cases hi : i < n
    · have hj : i / 4 < wordsFor n := by unfold wordsFor; omega
      rw [if_pos hi, flatMap_putLe32_getElem?]
      simp [readOffsets, hi, hj, readByte_eq_windowByte s hk]
    · simp [hi]

/-- A misaligned READ has no result: its first answer is a bus error. -/
theorem readResult_misaligned (s : State) {k n : Nat} (hk : k % 4 ≠ 0) (hn : 0 < n) :
    readResult n ((readOffsets k n).map (readAnswer s)) = none := by
  have herror : Response.busError ∈ (readOffsets k n).map (readAnswer s) := by
    have hfirst : (HostReg.obuf (k + 4 * 0)).off ∈ readOffsets k n :=
      List.mem_map.2 ⟨0, List.mem_range.2 (by unfold wordsFor; omega), rfl⟩
    rw [← readAnswer_misaligned s (by rwa [readOffset_mod k 0])]
    exact List.mem_map_of_mem hfirst
  refine Option.eq_none_iff_forall_ne_some.2 fun bytes hbytes => ?_
  obtain ⟨ws, _, hwords, _⟩ := readResult_eq_some.1 hbytes
  rw [hwords] at herror
  obtain ⟨w, _, hw⟩ := List.mem_map.1 herror
  cases hw

/-- A byte cut out of a word of a buffer. -/
theorem extractLsb'_le32 (b : Nat → Byte) (i : Nat) {j : Nat} (hj : j < 4) :
    (le32 b i).extractLsb' (8 * j) 8 = b (i + j) := by
  have hbytes := putLe32_le32 b i
  simp only [putLe32, List.cons.injEq, and_true] at hbytes
  obtain ⟨h0, h1, h2, h3⟩ := hbytes
  match j, hj with
  | 0, _ => exact h0
  | 1, _ => exact h1
  | 2, _ => exact h2
  | 3, _ => exact h3

/-- The window shows OBUF from 0x80 on (20_memory.md R27, R34). -/
theorem windowByte_obuf (s : State) {i : Nat} (hi : i < 64) : windowByte s (0x80 + i) = s.obuf.read i := by
  have hoff : 0x80 + i - (0x80 + i) % 4 = 0x80 + 4 * (i / 4) := by omega
  have hbyte : (0x80 + i) % 4 = i % 4 := by omega
  rw [windowByte, hoff, hbyte, wordAt, placeOf_obufWord (by omega)]
  dsimp only
  rw [extractLsb'_le32 _ _ (Nat.mod_lt _ (by decide)), Nat.div_add_mod]

/-- Within the buffer, READ's bytes are OBUF's. -/
theorem map_windowByte_obuf (s : State) {k n : Nat} (h : k + n ≤ 64) :
    (List.range n).map (fun i => windowByte s ((0x80 + k + i) % 256)) =
      (List.range n).map (fun i => s.obuf.read (k + i)) := by
  refine List.map_congr_left fun i hi => ?_
  have hlt : i < n := List.mem_range.1 hi
  rw [Nat.mod_eq_of_lt (by omega), Nat.add_assoc, windowByte_obuf s (by omega)]

/-! ### COPY -/

theorem takeInput_copyWord {s : State} {src dst : BitVec 8} {rest : List Input}
    (h : s.inputs = .copyWord src dst :: rest) :
    takeInput s = hostAccess (.read src 32) { s with inputs := copyRest dst (readAnswer s src) ++ rest } := by
  rw [takeInput, h]
  rfl

/-- The first step of a COPY word reads, and leaves the write of the word read. -/
theorem step_of_copyWord {s : State} {src dst : BitVec 8} {rest : List Input} (hidle : s.status.busy = false)
    (hinputs : s.inputs = .copyWord src dst :: rest) (hsrc : src.toNat % 4 = 0) :
    step s = .next (afterReads s [src] (.access (.write dst 32 (wordAt s src)) :: rest)) := by
  rw [step_of_notDue hinputs (.inl hidle), takeInput_copyWord hinputs, hostAccess_read, readAnswer_aligned s hsrc]
  rfl

theorem busAccess_write_ibufWord {s : State} (hidle : s.status.busy = false) {m : Nat} (hm : m < 16) (v : Word) :
    busAccess (.write (BitVec.ofNat 8 (0x40 + 4 * m)) 32 v) s =
      (.writeOk, { s with ibuf := s.ibuf.writeList (4 * m) (putLe32 v) }) := by
  rw [busAccess_write_aligned (wordOffset_aligned (by omega) rfl hm), writeWord_ibufWord hidle hm]

/-- The step that writes a word of IBUF, with no command in flight. -/
theorem step_of_write_ibufWord {s : State} {m : Nat} {v : Word} {rest : List Input} (hidle : s.status.busy = false)
    (hinputs : s.inputs = .access (.write (BitVec.ofNat 8 (0x40 + 4 * m)) 32 v) :: rest) (hm : m < 16) :
    step s = .next { s with
      inputs := rest
      ibuf := s.ibuf.writeList (4 * m) (putLe32 v)
      responses := .writeOk :: s.responses
      wait := s.wait - 1 } := by
  rw [step_of_notDue hinputs (.inl hidle), takeInput_access hinputs, hostAccess,
    busAccess_write_ibufWord (s := { s with inputs := rest, wait := s.wait - 1 }) hidle hm]

/-- The word written to a buffer reads back. -/
theorem le32_writeList {b : Memory} (hwf : b.wf = true) {m : Nat} (hm : m < 16) (v : Word) :
    le32 (b.writeList (4 * m) (putLe32 v)).read (4 * m) = v := by
  refine le32_putLe32 _ _ v fun k hk => ?_
  rw [Memory.read_writeList hwf _ (by rw [length_putLe32]; omega), if_pos (by rw [length_putLe32]; omega),
    Nat.add_sub_cancel_left]

/-- The two steps of a COPY word, from OBUF to IBUF. -/
theorem run_copyWord {s : State} {k m : Nat} {rest : List Input} (hidle : s.status.busy = false) (hk : k < 16)
    (hm : m < 16)
    (hinputs : s.inputs = .copyWord (BitVec.ofNat 8 (0x80 + 4 * k)) (BitVec.ofNat 8 (0x40 + 4 * m)) :: rest) :
    Sys2Proof.core.run 2 s = .next { s with
      inputs := rest
      ibuf := s.ibuf.writeList (4 * m) (putLe32 (outWord s k))
      responses := .writeOk :: .readData (outWord s k) :: s.responses
      wait := s.wait - 1 - 1 } := by
  have hsrc := wordOffset_aligned (base := 0x80) (by omega) rfl hk
  have hanswer := readAnswer_aligned s hsrc
  have hread := step_of_copyWord hidle hinputs hsrc
  rw [wordAt_obufWord s hk] at hanswer hread
  have hwrite := step_of_write_ibufWord (s := afterReads s [BitVec.ofNat 8 (0x80 + 4 * k)]
    (.access (.write (BitVec.ofNat 8 (0x40 + 4 * m)) 32 (outWord s k)) :: rest)) hidle rfl hm
  rw [run_succ hread, run_succ hwrite, run_zero]
  simp [afterReads, hanswer]

/-- Settles O19: READ's run gives `afterReads`, whose newest answers are all words or, when misaligned, bus errors; a
COPY word is one read and one write of four bytes. -/
theorem readAndCopyTakeTheOutput : Obligations.ReadAndCopyTakeTheOutput := by
  unfold Obligations.ReadAndCopyTakeTheOutput
  refine ⟨fun s k n rest hnotDue hinputs => ?read, fun s k m rest hidle hwf hk hm hinputs => ?copy⟩
  case read =>
    have hlength : ((readOffsets k n).map (readAnswer s)).length = wordsFor n := by simp
    have hrun := run_reads (readOffsets k n) (s := s) (rest := rest) (by rwa [length_readOffsets])
      (by rw [hinputs, expand_read])
    rw [length_readOffsets] at hrun
    have hresult := readResultAt_of_responses (t := afterReads s (readOffsets k n) rest) hlength rfl
    refine ⟨_, _, hrun, rfl, hlength, rfl, fun hk => ?_, fun hk hfits => ?_, fun hk hn => ?_, ?_, rfl, rfl, rfl, rfl,
      rfl, rfl, rfl, rfl⟩
    · rw [hresult, readResult_aligned s hk]
    · rw [hresult, readResult_aligned s hk, map_windowByte_obuf s hfits]
    · rw [hresult, readResult_misaligned s hk hn]
    · rw [hresult, programResults_read, List.take_of_length_le (Nat.le_of_eq hlength)]
  case copy =>
    refine ⟨_, run_copyWord hidle hk hm hinputs, rfl, ?_, fun i hi => ?_, rfl, rfl, rfl, rfl, rfl, rfl, rfl, rfl⟩
    · rw [inWord, ← le32_eq_wordNat, le32_writeList hwf hm]
    · dsimp only
      rw [Memory.read_writeList hwf _ (by rw [length_putLe32]; omega), if_neg (by rw [length_putLe32]; omega)]

end Sys2Proof.Proofs
end

section
/-!
PROOFS. The quantiser's statements (40_quantizer.md): what its commands give (O30 to O33), and the laws of R68 (O34 to
O37). The laws are proved of the closed forms, and carried over to the commands by the RES that each pair leaves.
-/

namespace Sys2Proof.Proofs

open Sys2Proof.Machine Sys2Proof.Claim

/-! ### The closed forms, band by band -/

/-- The band of a value, with its distance `d` from the band's lower bound (40_quantizer.md R53). -/
inductive ValueBand (u : Nat) : Nat → Prop
  | band0 {d : Nat} (h : d < u) : ValueBand u d
  | band1 {d : Nat} (h : d < 2 * u) : ValueBand u (u + d)
  | band2 {d : Nat} (h : d < 4 * u) : ValueBand u (3 * u + d)
  | band3 {d : Nat} (h : d < 8 * u) : ValueBand u (7 * u + d)
  | saturated {d : Nat} : ValueBand u (15 * u + d)

theorem valueBand (u v : Nat) : ValueBand u v := by
  by_cases h0 : v < u
  · exact .band0 h0
  by_cases h1 : v < 3 * u
  · obtain ⟨d, rfl⟩ := Nat.exists_eq_add_of_le (show u ≤ v by omega)
    exact .band1 (by omega)
  by_cases h2 : v < 7 * u
  · obtain ⟨d, rfl⟩ := Nat.exists_eq_add_of_le (show 3 * u ≤ v by omega)
    exact .band2 (by omega)
  by_cases h3 : v < 15 * u
  · obtain ⟨d, rfl⟩ := Nat.exists_eq_add_of_le (show 7 * u ≤ v by omega)
    exact .band3 (by omega)
  obtain ⟨d, rfl⟩ := Nat.exists_eq_add_of_le (show 15 * u ≤ v by omega)
  exact .saturated

/-- The band bits `k` and the mantissa `r` of a code (40_quantizer.md R55). -/
inductive CodeBand (u : Nat) : Nat → Prop
  | band0 {r : Nat} (h : r < u) : CodeBand u r
  | band1 {r : Nat} (h : r < u) : CodeBand u (u + r)
  | band2 {r : Nat} (h : r < u) : CodeBand u (2 * u + r)
  | band3 {r : Nat} (h : r < u) : CodeBand u (3 * u + r)

theorem codeBand {u c : Nat} (hc : c < 4 * u) : CodeBand u c := by
  by_cases h0 : c < u
  · exact .band0 h0
  by_cases h1 : c < 2 * u
  · obtain ⟨r, rfl⟩ := Nat.exists_eq_add_of_le (show u ≤ c by omega)
    exact .band1 (by omega)
  by_cases h2 : c < 3 * u
  · obtain ⟨r, rfl⟩ := Nat.exists_eq_add_of_le (show 2 * u ≤ c by omega)
    exact .band2 (by omega)
  obtain ⟨r, rfl⟩ := Nat.exists_eq_add_of_le (show 3 * u ≤ c by omega)
  exact .band3 (by omega)

theorem bandedEncode_band0 {u d : Nat} (h : d < u) : bandedEncode u d = d := if_pos h

theorem bandedEncode_band1 {u d : Nat} (h : d < 2 * u) : bandedEncode u (u + d) = u + d / 2 := by
  rw [bandedEncode, if_neg (by omega), if_pos (by omega), Nat.add_sub_cancel_left]

theorem bandedEncode_band2 {u d : Nat} (h : d < 4 * u) : bandedEncode u (3 * u + d) = 2 * u + d / 4 := by
  rw [bandedEncode, if_neg (by omega), if_neg (by omega), if_pos (by omega), Nat.add_sub_cancel_left]

theorem bandedEncode_band3 {u d : Nat} (h : d < 8 * u) : bandedEncode u (7 * u + d) = 3 * u + d / 8 := by
  rw [bandedEncode, if_neg (by omega), if_neg (by omega), if_neg (by omega), if_pos (by omega), Nat.add_sub_cancel_left]

theorem bandedEncode_saturated (u d : Nat) : bandedEncode u (15 * u + d) = 4 * u - 1 := by
  rw [bandedEncode, if_neg (by omega), if_neg (by omega), if_neg (by omega), if_neg (by omega)]

theorem bandedDecode_band0 {u r : Nat} (h : r < u) : bandedDecode u r = r := if_pos h

theorem bandedDecode_band1 {u r : Nat} (h : r < u) : bandedDecode u (u + r) = u + (1 + 2 * r) := by
  rw [bandedDecode, if_neg (by omega), if_pos (by omega), Nat.add_sub_cancel_left, Nat.add_assoc]

theorem bandedDecode_band2 {u r : Nat} (h : r < u) : bandedDecode u (2 * u + r) = 3 * u + (2 + 4 * r) := by
  rw [bandedDecode, if_neg (by omega), if_neg (by omega), if_pos (by omega), Nat.add_sub_cancel_left, Nat.add_assoc]

theorem bandedDecode_band3 (u r : Nat) : bandedDecode u (3 * u + r) = 7 * u + (4 + 8 * r) := by
  rw [bandedDecode, if_neg (by omega), if_neg (by omega), if_neg (by omega), Nat.add_sub_cancel_left, Nat.add_assoc]

/-! ### The laws of R68, of the closed forms -/

theorem bandedEncode_lt {u : Nat} (hu : 0 < u) (v : Nat) : bandedEncode u v < 4 * u := by
  cases valueBand u v with
  | band0 h => rw [bandedEncode_band0 h]; omega
  | band1 h => rw [bandedEncode_band1 h]; omega
  | band2 h => rw [bandedEncode_band2 h]; omega
  | band3 h => rw [bandedEncode_band3 h]; omega
  | saturated => rw [bandedEncode_saturated]; omega

/-- The next value has the same code or the next one, also where a band ends. -/
theorem bandedEncode_le_succ (u v : Nat) : bandedEncode u v ≤ bandedEncode u (v + 1) := by
  unfold bandedEncode
  repeat' split
  all_goals omega

/-- Law 2. -/
theorem bandedEncode_mono (u : Nat) {v w : Nat} (h : v ≤ w) : bandedEncode u v ≤ bandedEncode u w := by
  induction h with
  | refl => exact Nat.le_refl _
  | step _ ih => exact Nat.le_trans ih (bandedEncode_le_succ u _)

/-- Law 3: the last code of band 3 is already the all-ones code. -/
theorem bandedEncode_of_saturating {u v : Nat} (hu : 0 < u) (h : 15 * u - 8 ≤ v) : bandedEncode u v = 4 * u - 1 := by
  cases valueBand u v with
  | band0 | band1 | band2 => omega
  | band3 hd => rw [bandedEncode_band3 hd]; omega
  | saturated => exact bandedEncode_saturated u _

/-- Law 4: a band's offset is half its step, so decoding lands in the middle of the values of one code. -/
theorem withinBandError_bandedEncode {u : Nat} (hu : 0 < u) (v : Nat) :
    WithinBandError u v (bandedDecode u (bandedEncode u v)) := by
  unfold WithinBandError
  cases valueBand u v with
  | band0 h => rw [bandedEncode_band0 h, bandedDecode_band0 h]; omega
  | band1 h => rw [bandedEncode_band1 h, bandedDecode_band1 (by omega)]; omega
  | band2 h => rw [bandedEncode_band2 h, bandedDecode_band2 (by omega)]; omega
  | band3 h => rw [bandedEncode_band3 h, bandedDecode_band3]; omega
  | saturated => omega

/-- Law 5: a decoded value lies in the band of its code, less than one step above it. -/
theorem bandedEncode_bandedDecode {u c : Nat} (hc : c < 4 * u) : bandedEncode u (bandedDecode u c) = c := by
  cases codeBand hc with
  | band0 h => rw [bandedDecode_band0 h, bandedEncode_band0 h]
  | band1 h => rw [bandedDecode_band1 h, bandedEncode_band1 (by omega)]; omega
  | band2 h => rw [bandedDecode_band2 h, bandedEncode_band2 (by omega)]; omega
  | band3 h => rw [bandedDecode_band3, bandedEncode_band3 (by omega)]; omega

/-- Law 6: the all-ones code decodes to 15u - 4. -/
theorem bandedDecode_le {u c : Nat} (hc : c < 4 * u) : bandedDecode u c ≤ 15 * u - 4 := by
  cases codeBand hc with
  | band0 h => rw [bandedDecode_band0 h]; omega
  | band1 h => rw [bandedDecode_band1 h]; omega
  | band2 h => rw [bandedDecode_band2 h]; omega
  | band3 h => rw [bandedDecode_band3]; omega

theorem bandedEncode_zero {u : Nat} (hu : 0 < u) : bandedEncode u 0 = 0 := bandedEncode_band0 hu

theorem bandedDecode_zero {u : Nat} (hu : 0 < u) : bandedDecode u 0 = 0 := bandedDecode_band0 hu

/-- Only code 0 decodes to 0: the decoder is injective. -/
theorem bandedDecode_eq_zero {u c : Nat} (hc : c < 4 * u) : bandedDecode u c = 0 ↔ c = 0 := by
  have hu : 0 < u := by omega
  refine ⟨fun h => ?_, fun h => h ▸ bandedDecode_zero hu⟩
  rw [← bandedEncode_bandedDecode hc, h, bandedEncode_zero hu]

/-- Only 0 has code 0. -/
theorem bandedEncode_eq_zero {u : Nat} (hu : 0 < u) {v : Nat} : bandedEncode u v = 0 ↔ v = 0 := by
  refine ⟨fun h => ?_, fun h => h ▸ bandedEncode_zero hu⟩
  cases valueBand u v with
  | band0 hd => rwa [bandedEncode_band0 hd] at h
  | band1 hd => rw [bandedEncode_band1 hd] at h; omega
  | band2 hd => rw [bandedEncode_band2 hd] at h; omega
  | band3 hd => rw [bandedEncode_band3 hd] at h; omega
  | saturated => rw [bandedEncode_saturated] at h; omega

/-! ### The signed closed forms -/

theorem signedEncode_lt {u : Nat} (hu : 0 < u) (v : Int) : signedEncode u v < 8 * u := by
  have hmag := bandedEncode_lt hu v.natAbs
  unfold signedEncode
  split
  · omega
  · omega

/-- No value gives negative zero (40_quantizer.md R56). -/
theorem signedEncode_ne_negativeZero {u : Nat} (hu : 0 < u) (v : Int) : signedEncode u v ≠ 4 * u := by
  have hzero := bandedEncode_eq_zero hu (v := v.natAbs)
  have hmag := bandedEncode_lt hu v.natAbs
  by_cases hneg : v < 0
  · rw [signedEncode, if_pos hneg]
    omega
  · rw [signedEncode, if_neg hneg]
    omega

theorem signedDecode_low {u c : Nat} (hc : c < 4 * u) : signedDecode u c = bandedDecode u c := if_pos hc

theorem signedDecode_high (u c : Nat) : signedDecode u (4 * u + c) = -bandedDecode u c := by
  rw [signedDecode, if_neg (by omega), Nat.add_sub_cancel_left]

theorem natAbs_signedDecode_le {u c : Nat} (hc : c < 8 * u) : (signedDecode u c).natAbs ≤ 15 * u - 4 := by
  by_cases hlow : c < 4 * u
  · rw [signedDecode_low hlow, Int.natAbs_natCast]
    exact bandedDecode_le hlow
  · obtain ⟨c, rfl⟩ := Nat.exists_eq_add_of_le (Nat.le_of_not_lt hlow)
    rw [signedDecode_high, Int.natAbs_neg, Int.natAbs_natCast]
    exact bandedDecode_le (by omega)

/-- The magnitude comes back as in the unsigned variants, under the sign of the value: 0 has sign 0, and gives 0. -/
theorem signedDecode_signedEncode {u : Nat} (hu : 0 < u) (v : Int) :
    signedDecode u (signedEncode u v) = v.sign * bandedDecode u (bandedEncode u v.natAbs) := by
  have hmag := bandedEncode_lt hu v.natAbs
  rw [signedEncode]
  rcases Int.lt_trichotomy v 0 with hneg | rfl | hpos
  · rw [if_pos hneg, signedDecode_high, Int.sign_eq_neg_one_of_neg hneg, Int.neg_one_mul]
  · rw [if_neg (by decide), Nat.zero_add, signedDecode_low hmag, Int.natAbs_zero, bandedEncode_zero hu,
      bandedDecode_zero hu]
    rfl
  · rw [if_neg (by omega), Nat.zero_add, signedDecode_low hmag, Int.sign_eq_one_of_pos hpos, Int.one_mul]

theorem natAbs_signedDecode_signedEncode {u : Nat} (hu : 0 < u) (v : Int) :
    (signedDecode u (signedEncode u v)).natAbs = bandedDecode u (bandedEncode u v.natAbs) := by
  rw [signedDecode_signedEncode hu, Int.natAbs_mul, Int.natAbs_natCast, Int.natAbs_sign]
  by_cases hzero : v = 0
  · rw [hzero, Int.natAbs_zero, bandedEncode_zero hu, bandedDecode_zero hu, Nat.mul_zero]
  · rw [if_neg hzero, Nat.one_mul]

/-- Law 4: the sign comes back. -/
theorem signedDecode_signedEncode_neg_iff {u : Nat} (hu : 0 < u) (v : Int) :
    signedDecode u (signedEncode u v) < 0 ↔ v < 0 := by
  have hlt := bandedEncode_lt hu v.natAbs
  have hmag : bandedDecode u (bandedEncode u v.natAbs) = 0 ↔ v.natAbs = 0 :=
    (bandedDecode_eq_zero hlt).trans (bandedEncode_eq_zero hu)
  rw [signedDecode_signedEncode hu]
  rcases Int.lt_trichotomy v 0 with hneg | rfl | hpos
  · rw [Int.sign_eq_neg_one_of_neg hneg]
    omega
  · simp
  · rw [Int.sign_eq_one_of_pos hpos]
    omega

/-- Law 7: only the sign of the value changes. -/
theorem signedDecode_signedEncode_neg {u : Nat} (hu : 0 < u) (v : Int) :
    signedDecode u (signedEncode u (-v)) = -signedDecode u (signedEncode u v) := by
  rw [signedDecode_signedEncode hu, signedDecode_signedEncode hu, Int.sign_neg, Int.natAbs_neg, Int.neg_mul]

/-- Law 5 for the signed variants: negative zero decodes to 0, which is encoded without a sign. -/
theorem signedEncode_signedDecode {u c : Nat} (hc : c < 8 * u) :
    signedEncode u (signedDecode u c) = if c = 4 * u then 0 else c := by
  by_cases hlow : c < 4 * u
  · rw [signedDecode_low hlow, signedEncode, if_neg (by omega), if_neg (by omega), Int.natAbs_natCast,
      bandedEncode_bandedDecode hlow, Nat.zero_add]
  · obtain ⟨c, rfl⟩ := Nat.exists_eq_add_of_le (Nat.le_of_not_lt hlow)
    have hmag : c < 4 * u := by omega
    have hzero := bandedDecode_eq_zero hmag
    rw [signedDecode_high, signedEncode, Int.natAbs_neg, Int.natAbs_natCast, bandedEncode_bandedDecode hmag]
    by_cases hc0 : c = 0
    · rw [if_neg (by omega), if_pos (by omega), hc0]
    · rw [if_pos (by omega), if_neg (by omega)]

/-! ### The model's functions are the closed forms -/

/-- `V` is the row of the table of 40_quantizer.md R53 whose mantissa has `u` = 2^m codes. -/
structure IsVariant (V : Variant) (u : Nat) : Prop where
  mant : 2 ^ V.mantBits = u
  mag : 2 ^ V.magBits = 4 * u
  band0 : V.band0 = ⟨u, 0, 0⟩
  band1 : V.band1 = ⟨3 * u, u, u + 1⟩
  band2 : V.band2 = ⟨7 * u, 3 * u, 3 * u + 2⟩
  band3 : V.band3 = ⟨15 * u, 7 * u, 7 * u + 4⟩
  fits : u ≤ 0x1000

theorem isVariant_u14 : IsVariant u14 0x1000 := ⟨rfl, rfl, rfl, rfl, rfl, rfl, by decide⟩

theorem isVariant_u10 : IsVariant u10 0x100 := ⟨rfl, rfl, rfl, rfl, rfl, rfl, by decide⟩

theorem isVariant_u6 : IsVariant u6 0x10 := ⟨rfl, rfl, rfl, rfl, rfl, rfl, by decide⟩

theorem isVariant_s8 : IsVariant s8 0x20 := ⟨rfl, rfl, rfl, rfl, rfl, rfl, by decide⟩

theorem isVariant_s9 : IsVariant s9 0x40 := ⟨rfl, rfl, rfl, rfl, rfl, rfl, by decide⟩

section
variable {V : Variant} {u : Nat} (h : IsVariant V u)
include h

theorem IsVariant.pos : 0 < u := h.mant ▸ Nat.two_pow_pos _

/-- The sign bit stands above the magnitude. -/
theorem IsVariant.signed : 2 ^ (V.magBits + 1) = 8 * u := by
  rw [Nat.pow_succ, h.mag]
  omega

theorem IsVariant.bandCode_eq {k v : Nat} {b : Band} (hv : v - b.low < 2 ^ k * u) :
    bandCode V k b v = k * u + (v - b.low) / 2 ^ k := by
  rw [Machine.bandCode_eq (h.mant ▸ Nat.div_lt_of_lt_mul hv), h.mant, Nat.mul_comm]

theorem uqEnc_eq_bandedEncode (v : Nat) : uqEnc V v = bandedEncode u v := by
  rw [uqEnc, bandedEncode, h.band0, h.band1, h.band2, h.band3, h.mag]
  dsimp only
  by_cases h0 : v < u
  · rw [if_pos h0, if_pos h0, h.bandCode_eq (by dsimp only; omega), Nat.zero_mul, Nat.zero_add, Nat.pow_zero,
      Nat.div_one, Nat.sub_zero]
  rw [if_neg h0, if_neg h0]
  by_cases h1 : v < 3 * u
  · rw [if_pos h1, if_pos h1, h.bandCode_eq (by dsimp only; omega), Nat.one_mul, Nat.pow_one]
  rw [if_neg h1, if_neg h1]
  by_cases h2 : v < 7 * u
  · rw [if_pos h2, if_pos h2]
    exact h.bandCode_eq (k := 2) (by dsimp only; omega)
  rw [if_neg h2, if_neg h2]
  by_cases h3 : v < 15 * u
  · rw [if_pos h3, if_pos h3]
    exact h.bandCode_eq (k := 3) (by dsimp only; omega)
  · rw [if_neg h3, if_neg h3]

/-- The decoder at band bits `k` and mantissa `r` (40_quantizer.md R55). -/
theorem uqDec_eq {c k r : Nat} (hk : k < 4) (hr : r < u) (hc : c = u * k + r) :
    uqDec V c = (V.band k).base + r * 2 ^ k := by
  subst hc
  have hband : (u * k + r) / u = k := by rw [Nat.mul_add_div h.pos, Nat.div_eq_of_lt hr, Nat.add_zero]
  simp only [uqDec, Nat.shiftRight_eq_div_pow, Nat.shiftLeft_eq, h.mant, hband, Nat.mod_eq_of_lt hk,
    Nat.mul_add_mod, Nat.mod_eq_of_lt hr]

theorem uqDec_eq_bandedDecode {c : Nat} (hc : c < 4 * u) : uqDec V c = bandedDecode u c := by
  cases codeBand hc with
  | band0 hr =>
    have hbase : (V.band 0).base = 0 := congrArg Band.base h.band0
    rw [uqDec_eq h (k := 0) (by decide) hr (by omega), hbase, bandedDecode_band0 hr]
    omega
  | band1 hr =>
    have hbase : (V.band 1).base = u + 1 := congrArg Band.base h.band1
    rw [uqDec_eq h (k := 1) (by decide) hr (by omega), hbase, bandedDecode_band1 hr]
    omega
  | band2 hr =>
    have hbase : (V.band 2).base = 3 * u + 2 := congrArg Band.base h.band2
    rw [uqDec_eq h (k := 2) (by decide) hr (by omega), hbase, bandedDecode_band2 hr]
    omega
  | band3 hr =>
    have hbase : (V.band 3).base = 7 * u + 4 := congrArg Band.base h.band3
    rw [uqDec_eq h (k := 3) (by decide) hr (by omega), hbase, bandedDecode_band3]
    omega

theorem sqEnc_eq_signedEncode (v : Int) : sqEnc V v = signedEncode u v := by
  have hmag : uqEnc V v.natAbs < 2 ^ V.magBits := by
    rw [uqEnc_eq_bandedEncode h, h.mag]
    exact bandedEncode_lt h.pos _
  rw [sqEnc, signedEncode, ← Nat.shiftLeft_add_eq_or_of_lt hmag, Nat.shiftLeft_eq, h.mag, uqEnc_eq_bandedEncode h]
  by_cases hneg : v < 0
  · rw [if_pos hneg, if_pos hneg, Nat.one_mul]
  · rw [if_neg hneg, if_neg hneg, Nat.zero_mul]

theorem sqDec_eq_signedDecode {c : Nat} (hc : c < 8 * u) : sqDec V c = signedDecode u c := by
  rw [sqDec, Nat.shiftRight_eq_div_pow, h.mag]
  by_cases hlow : c < 4 * u
  · rw [Nat.div_eq_of_lt hlow, Nat.mod_eq_of_lt hlow, signedDecode_low hlow, uqDec_eq_bandedDecode h hlow]
    rfl
  · obtain ⟨c, rfl⟩ := Nat.exists_eq_add_of_le (Nat.le_of_not_lt hlow)
    have hmag : c < 4 * u := by omega
    rw [Nat.add_div_left _ (by omega), Nat.div_eq_of_lt hmag, Nat.add_mod_left, Nat.mod_eq_of_lt hmag,
      signedDecode_high, uqDec_eq_bandedDecode h hmag]
    rfl

/-! ### What the commands leave -/

theorem quantEncode_finished (s : State) :
    Finished s (quantEncode V s) (BitVec.ofNat 32 (bandedEncode u s.arg.toNat)) 0#32 [] := by
  rw [quantEncode, uqEnc_eq_bandedEncode h, argU32]
  exact finish_finished _ _ _ s (by decide)

theorem quantDecode_finished (s : State) :
    Finished s (quantDecode V s) (BitVec.ofNat 32 (bandedDecode u (s.arg.toNat % (4 * u)))) 0#32 [] := by
  have hu := h.pos
  rw [quantDecode, argCode, h.mag, uqDec_eq_bandedDecode h (Nat.mod_lt _ (by omega))]
  exact finish_finished _ _ _ s (by decide)

theorem quantEncodeSigned_finished (s : State) :
    Finished s (quantEncodeSigned V s) (BitVec.ofNat 32 (signedEncode u s.arg.toInt)) 0#32 [] := by
  rw [quantEncodeSigned, sqEnc_eq_signedEncode h, argI32]
  exact finish_finished _ _ _ s (by decide)

theorem quantDecodeSigned_finished (s : State) :
    Finished s (quantDecodeSigned V s) (BitVec.ofInt 32 (signedDecode u (s.arg.toNat % (8 * u)))) 0#32 [] := by
  have hu := h.pos
  rw [quantDecodeSigned, argCode, h.signed, sqDec_eq_signedDecode h (Nat.mod_lt _ (by omega))]
  exact finish_finished _ _ _ s (by decide)

theorem quantEncode_res (s : State) : (quantEncode V s).res.toNat = bandedEncode u s.arg.toNat := by
  have hlt := bandedEncode_lt h.pos s.arg.toNat
  have hfits := h.fits
  rw [(quantEncode_finished h s).res, BitVec.toNat_ofNat, Nat.mod_eq_of_lt (by omega)]

theorem quantDecode_res (s : State) : (quantDecode V s).res.toNat = bandedDecode u (s.arg.toNat % (4 * u)) := by
  have hu := h.pos
  have hfits := h.fits
  have hle := bandedDecode_le (Nat.mod_lt s.arg.toNat (show 0 < 4 * u by omega))
  rw [(quantDecode_finished h s).res, BitVec.toNat_ofNat, Nat.mod_eq_of_lt (by omega)]

theorem quantEncodeSigned_res (s : State) : (quantEncodeSigned V s).res.toNat = signedEncode u s.arg.toInt := by
  have hlt := signedEncode_lt h.pos s.arg.toInt
  have hfits := h.fits
  rw [(quantEncodeSigned_finished h s).res, BitVec.toNat_ofNat, Nat.mod_eq_of_lt (by omega)]

/-- RES of a signed encoder is not negative zero, 4u as a word. -/
theorem quantEncodeSigned_res_ne (s : State) {w : Word} (hw : w.toNat = 4 * u) : (quantEncodeSigned V s).res ≠ w :=
  fun hres => signedEncode_ne_negativeZero h.pos s.arg.toInt (by rw [← quantEncodeSigned_res h, hres, hw])

theorem quantDecodeSigned_res (s : State) :
    (quantDecodeSigned V s).res.toInt = signedDecode u (s.arg.toNat % (8 * u)) := by
  have hu := h.pos
  have hfits := h.fits
  have hle := natAbs_signedDecode_le (Nat.mod_lt s.arg.toNat (show 0 < 8 * u by omega))
  rw [(quantDecodeSigned_finished h s).res, BitVec.toInt_ofInt_eq_self (by decide) (by omega) (by omega)]

end

/-- An unsigned encoder and its decoder are those of one variant. -/
theorem exec_of_unsignedPair {enc dec : Instr} {u : Nat} (h : (enc, dec, u) ∈ unsignedPairs) :
    ∃ V, IsVariant V u ∧ ∀ s, exec enc s = .next (quantEncode V s) ∧ exec dec s = .next (quantDecode V s) := by
  simp only [unsignedPairs, List.mem_cons, List.not_mem_nil, or_false, Prod.mk.injEq] at h
  obtain ⟨rfl, rfl, rfl⟩ | ⟨rfl, rfl, rfl⟩ | ⟨rfl, rfl, rfl⟩ := h
  · exact ⟨u14, isVariant_u14, fun _ => ⟨rfl, rfl⟩⟩
  · exact ⟨u10, isVariant_u10, fun _ => ⟨rfl, rfl⟩⟩
  · exact ⟨u6, isVariant_u6, fun _ => ⟨rfl, rfl⟩⟩

/-- A signed encoder and its decoder are those of one variant. -/
theorem exec_of_signedPair {enc dec : Instr} {u : Nat} (h : (enc, dec, u) ∈ signedPairs) :
    ∃ V, IsVariant V u ∧
      ∀ s, exec enc s = .next (quantEncodeSigned V s) ∧ exec dec s = .next (quantDecodeSigned V s) := by
  simp only [signedPairs, List.mem_cons, List.not_mem_nil, or_false, Prod.mk.injEq] at h
  obtain ⟨rfl, rfl, rfl⟩ | ⟨rfl, rfl, rfl⟩ := h
  · exact ⟨s8, isVariant_s8, fun _ => ⟨rfl, rfl⟩⟩
  · exact ⟨s9, isVariant_s9, fun _ => ⟨rfl, rfl⟩⟩

/-- RES of the unsigned commands of a pair, as a number. -/
theorem res_of_unsignedPair {enc dec : Instr} {u : Nat} (h : (enc, dec, u) ∈ unsignedPairs) :
    0 < u ∧ (∀ s t, exec enc s = .next t → t.res.toNat = bandedEncode u s.arg.toNat) ∧
      ∀ s t, exec dec s = .next t → t.res.toNat = bandedDecode u (s.arg.toNat % (4 * u)) := by
  obtain ⟨V, hV, hexec⟩ := exec_of_unsignedPair h
  refine ⟨hV.pos, fun s t ht => ?_, fun s t ht => ?_⟩
  · obtain rfl := Host.Outcome.next.inj ((hexec s).1.symm.trans ht)
    exact quantEncode_res hV s
  · obtain rfl := Host.Outcome.next.inj ((hexec s).2.symm.trans ht)
    exact quantDecode_res hV s

/-- RES of the signed commands of a pair: the code as a number, the value as an i32. -/
theorem res_of_signedPair {enc dec : Instr} {u : Nat} (h : (enc, dec, u) ∈ signedPairs) :
    0 < u ∧ (∀ s t, exec enc s = .next t → t.res.toNat = signedEncode u s.arg.toInt) ∧
      ∀ s t, exec dec s = .next t → t.res.toInt = signedDecode u (s.arg.toNat % (8 * u)) := by
  obtain ⟨V, hV, hexec⟩ := exec_of_signedPair h
  refine ⟨hV.pos, fun s t ht => ?_, fun s t ht => ?_⟩
  · obtain rfl := Host.Outcome.next.inj ((hexec s).1.symm.trans ht)
    exact quantEncodeSigned_res hV s
  · obtain rfl := Host.Outcome.next.inj ((hexec s).2.symm.trans ht)
    exact quantDecodeSigned_res hV s

/-- Encoding, and decoding the code, through an unsigned pair. -/
theorem decodeOfEncode_of_unsignedPair {enc dec : Instr} {u : Nat} (h : (enc, dec, u) ∈ unsignedPairs)
    {s t r : State} (ht : exec enc s = .next t) (hr : exec dec { t with arg := t.res } = .next r) :
    r.res.toNat = bandedDecode u (bandedEncode u s.arg.toNat) := by
  obtain ⟨hu, henc, hdec⟩ := res_of_unsignedPair h
  rw [hdec _ _ hr, henc _ _ ht, Nat.mod_eq_of_lt (bandedEncode_lt hu _)]

/-- Encoding, and decoding the code, through a signed pair. -/
theorem decodeOfEncode_of_signedPair {enc dec : Instr} {u : Nat} (h : (enc, dec, u) ∈ signedPairs)
    {s t r : State} (ht : exec enc s = .next t) (hr : exec dec { t with arg := t.res } = .next r) :
    r.res.toInt = signedDecode u (signedEncode u s.arg.toInt) := by
  obtain ⟨hu, henc, hdec⟩ := res_of_signedPair h
  rw [hdec _ _ hr, henc _ _ ht, Nat.mod_eq_of_lt (signedEncode_lt hu _)]

/-! ### What the commands give (R58 to R67), and the laws of R68 through them -/

/-- Settles O30: U14, U10 and U6 finish with the closed form's code. -/
theorem unsignedEncodersGiveTheBandCode : Obligations.UnsignedEncodersGiveTheBandCode := by
  unfold Obligations.UnsignedEncodersGiveTheBandCode
  exact ⟨decode_encode (i := .qenc14) rfl, decode_encode (i := .qenc10) rfl, decode_encode (i := .qenc6) rfl,
    fun s => ⟨⟨_, rfl, quantEncode_finished isVariant_u14 s⟩, ⟨_, rfl, quantEncode_finished isVariant_u10 s⟩,
      ⟨_, rfl, quantEncode_finished isVariant_u6 s⟩⟩⟩

/-- Settles O31: U14, U10 and U6 finish with the closed form's value. -/
theorem unsignedDecodersGiveTheBandValue : Obligations.UnsignedDecodersGiveTheBandValue := by
  unfold Obligations.UnsignedDecodersGiveTheBandValue
  exact ⟨decode_encode (i := .qdec14) rfl, decode_encode (i := .qdec10) rfl, decode_encode (i := .qdec6) rfl,
    fun s => ⟨⟨_, rfl, quantDecode_finished isVariant_u14 s⟩, ⟨_, rfl, quantDecode_finished isVariant_u10 s⟩,
      ⟨_, rfl, quantDecode_finished isVariant_u6 s⟩⟩⟩

/-- Settles O32: S8 and S9 finish with the closed form's code, which is never 4u. -/
theorem signedEncodersGiveSignAndMagnitude : Obligations.SignedEncodersGiveSignAndMagnitude := by
  unfold Obligations.SignedEncodersGiveSignAndMagnitude
  exact ⟨decode_encode (i := .qencs8) rfl, decode_encode (i := .qencs9) rfl, fun s =>
    ⟨⟨_, rfl, quantEncodeSigned_finished isVariant_s8 s, quantEncodeSigned_res_ne isVariant_s8 s rfl⟩,
      ⟨_, rfl, quantEncodeSigned_finished isVariant_s9 s, quantEncodeSigned_res_ne isVariant_s9 s rfl⟩⟩⟩

/-- Settles O33: S8 and S9 finish with the closed form's value. -/
theorem signedDecodersGiveTheSignedValue : Obligations.SignedDecodersGiveTheSignedValue := by
  unfold Obligations.SignedDecodersGiveTheSignedValue
  exact ⟨decode_encode (i := .qdecs8) rfl, decode_encode (i := .qdecs9) rfl,
    fun s => ⟨⟨_, rfl, quantDecodeSigned_finished isVariant_s8 s⟩,
      ⟨_, rfl, quantDecodeSigned_finished isVariant_s9 s⟩⟩⟩

/-- Settles O34, by laws 2 and 3 of the closed form. -/
theorem unsignedEncodersAreMonotonicAndSaturate : Obligations.UnsignedEncodersAreMonotonicAndSaturate := by
  unfold Obligations.UnsignedEncodersAreMonotonicAndSaturate
  intro enc dec u hpair s s' t t' ht ht'
  obtain ⟨hu, henc, -⟩ := res_of_unsignedPair hpair
  rw [henc s t ht, henc s' t' ht']
  exact ⟨bandedEncode_mono u, bandedEncode_of_saturating hu⟩

/-- Settles O35, by law 4 of the closed forms. -/
theorem quantiserErrorIsBounded : Obligations.QuantiserErrorIsBounded := by
  unfold Obligations.QuantiserErrorIsBounded
  refine ⟨fun enc dec u hpair s t r ht hr => ?_, fun enc dec u hpair s t r ht hr => ?_⟩
  · rw [decodeOfEncode_of_unsignedPair hpair ht hr]
    exact withinBandError_bandedEncode (res_of_unsignedPair hpair).1 _
  · obtain ⟨hu, -⟩ := res_of_signedPair hpair
    rw [decodeOfEncode_of_signedPair hpair ht hr, natAbs_signedDecode_signedEncode hu]
    exact ⟨withinBandError_bandedEncode hu _, (signedDecode_signedEncode_neg_iff hu _).symm⟩

/-- Settles O36, by law 5 of the closed forms. -/
theorem codesAreFixpoints : Obligations.CodesAreFixpoints := by
  unfold Obligations.CodesAreFixpoints
  refine ⟨fun enc dec u hpair s t r ht hr => ?_, fun enc dec u hpair s t r ht hr => ?_⟩
  · obtain ⟨hu, henc, hdec⟩ := res_of_unsignedPair hpair
    rw [henc _ _ hr, hdec _ _ ht, bandedEncode_bandedDecode (Nat.mod_lt _ (by omega))]
  · obtain ⟨hu, henc, hdec⟩ := res_of_signedPair hpair
    rw [henc _ _ hr, hdec _ _ ht, signedEncode_signedDecode (Nat.mod_lt _ (by omega))]

/-- Settles O37, by laws 6 and 7 of the closed forms. -/
theorem signedQuantiserIsSymmetric : Obligations.SignedQuantiserIsSymmetric := by
  unfold Obligations.SignedQuantiserIsSymmetric
  intro enc dec u hpair s s' t t' r r' hmin hneg ht hr ht' hr'
  obtain ⟨hu, -⟩ := res_of_signedPair hpair
  have harg : s'.arg.toInt = -s.arg.toInt := by
    rw [hneg]
    exact BitVec.toInt_neg_of_ne_intMin fun h => hmin (by rw [h]; rfl)
  rw [decodeOfEncode_of_signedPair hpair ht hr, decodeOfEncode_of_signedPair hpair ht' hr', harg]
  exact ⟨signedDecode_signedEncode_neg hu _, natAbs_signedDecode_le (signedEncode_lt hu _)⟩

end Sys2Proof.Proofs
end

section
/-!
PROOFS. The whitener's statements (41_whitener.md): what WHITEN and DEWHITEN give (O38, O39), that they undo each other
(O40, and O59 for every WHITEN_ROUND), that the halves do not mix (O42), and that the eight inverse rounds undo the
eight forward rounds (O41). Both commands end in `finish` of a function of the payload (`finishPayload`), so each
statement about bytes becomes one about that function.
-/

namespace Sys2Proof.Proofs

open Sys2Proof.Machine Sys2Proof.Claim

/-! ### The sums, and rounds counted from the last one -/

/-- The sum of 41_whitener.md R71 after `n` rounds from `sum`. -/
def sumAfter (sum : Word) (n : Nat) : Word := sum + whitenDelta * BitVec.ofNat 32 n

@[simp] theorem sumAfter_zero (sum : Word) : sumAfter sum 0 = sum := by
  rw [sumAfter, BitVec.mul_zero, BitVec.add_zero]

theorem sumAfter_succ (sum : Word) (n : Nat) : sumAfter sum (n + 1) = sumAfter sum n + whitenDelta := by
  rw [sumAfter, sumAfter, BitVec.ofNat_add, BitVec.mul_add, BitVec.mul_one, BitVec.add_assoc]

theorem sumAfter_add_delta (sum : Word) (n : Nat) : sumAfter (sum + whitenDelta) n = sumAfter sum (n + 1) := by
  rw [sumAfter_succ, sumAfter, sumAfter, BitVec.add_assoc, BitVec.add_comm whitenDelta, BitVec.add_assoc]

@[simp] theorem sumAfter_succ_sub (sum : Word) (n : Nat) : sumAfter sum (n + 1) - whitenDelta = sumAfter sum n := by
  rw [sumAfter_succ, BitVec.add_sub_cancel]

/-- The sums of the forward rounds are delta, 2 delta, … -/
theorem sumAfter_zero_succ (n : Nat) : sumAfter 0#32 (n + 1) = roundSum n := BitVec.zero_add _

/-- The end sum of 41_whitener.md R69 is the sum after the eight forward rounds. -/
theorem whitenSumEnd_eq : whitenSumEnd = sumAfter 0#32 whitenRounds := by decide

/-- Inverse round `i` + 1 has the sum of forward round 8 - `i`. -/
theorem whitenSumEnd_eq_sumAfter : ∀ i, i < 8 → whitenSumEnd = sumAfter (roundSum (7 - i)) i := by decide

section
variable {α : Type}

theorem roundsFwd_succ (round : Word → α → α) (n : Nat) (sum : Word) (v : α) :
    roundsFwd round (n + 1) sum v = round (sumAfter sum (n + 1)) (roundsFwd round n sum v) := by
  induction n generalizing sum v with
  | zero => rw [sumAfter_succ, sumAfter_zero]; rfl
  | succ n ih =>
    calc roundsFwd round (n + 2) sum v
      _ = roundsFwd round (n + 1) (sum + whitenDelta) (round (sum + whitenDelta) v) := rfl
      _ = round (sumAfter sum (n + 2)) (roundsFwd round (n + 1) sum v) := by rw [ih, sumAfter_add_delta]; rfl

theorem roundsInv_sumAfter_succ (round : Word → α → α) (n : Nat) (sum : Word) (v : α) :
    roundsInv round (n + 1) (sumAfter sum (n + 1)) v =
      roundsInv round n (sumAfter sum n) (round (sumAfter sum (n + 1)) v) := by
  rw [roundsInv, sumAfter_succ_sub]

theorem roundsInv_succ (round : Word → α → α) (n : Nat) (sum : Word) (v : α) :
    roundsInv round (n + 1) (sumAfter sum n) v = round sum (roundsInv round n (sumAfter sum n) v) := by
  induction n generalizing v with
  | zero => rw [sumAfter_zero]; rfl
  | succ n ih => rw [roundsInv, sumAfter_succ_sub, ih, roundsInv_sumAfter_succ]

/-! ### Inverse rounds undo forward rounds -/

/-- The inverse rounds begin with the sum that the forward rounds ended with, so the rounds cancel from the inside. -/
theorem roundsInv_roundsFwd {fwd inv : Word → α → α} (h : ∀ s v, inv s (fwd s v) = v) (n : Nat) (sum : Word) (v : α) :
    roundsInv inv n (sumAfter sum n) (roundsFwd fwd n sum v) = v := by
  induction n with
  | zero => rfl
  | succ n ih => rw [roundsFwd_succ, roundsInv_sumAfter_succ, h, ih]

theorem roundsFwd_roundsInv {fwd inv : Word → α → α} (h : ∀ s v, fwd s (inv s v) = v) (n : Nat) (sum : Word) (v : α) :
    roundsFwd fwd n sum (roundsInv inv n (sumAfter sum n) v) = v := by
  induction n generalizing v with
  | zero => rfl
  | succ n ih => rw [roundsInv_sumAfter_succ, roundsFwd_succ, ih, h]

end

/-- Settles O41: the rounds of R72 are the inverse rounds of R70, whatever the mixing function. -/
theorem inverseRoundsUndoForwardRounds : Obligations.InverseRoundsUndoForwardRounds := by
  unfold Obligations.InverseRoundsUndoForwardRounds
  intro f v0 v1
  simp only [teaInv, teaFwd, whitenSumEnd_eq]
  exact ⟨roundsInv_roundsFwd (roundInv_roundFwd f) _ _ _, roundsFwd_roundsInv (roundFwd_roundInv f) _ _ _⟩

theorem dewhitenBlock_whitenBlock {p : Params} (h : Admissible p) (w : Block) :
    dewhitenBlock p.whitenRound (whitenBlock p.whitenRound w) = w := by
  rw [dewhitenBlock, whitenBlock, whitenSumEnd_eq]
  exact roundsInv_roundsFwd h.invFwd _ _ _

theorem whitenBlock_dewhitenBlock {p : Params} (h : Admissible p) (w : Block) :
    whitenBlock p.whitenRound (dewhitenBlock p.whitenRound w) = w := by
  rw [dewhitenBlock, whitenBlock, whitenSumEnd_eq]
  exact roundsFwd_roundsInv h.fwdInv _ _ _

/-! ### How both commands end -/

/-- The end of a whitener command that puts `F` of the payload out (41_whitener.md R73, R74). -/
def finishPayload (F : Block → Block) (s : State) : State := finish 0#32 0#32 (blockBytes (F (ibufBlock s))) s

theorem execWith_whiten (p : Params) (s : State) :
    execWith p .whiten s = .next (finishPayload (whitenBlock p.whitenRound) s) := rfl

theorem execWith_dewhiten (p : Params) (s : State) :
    execWith p .dewhiten s = .next (finishPayload (dewhitenBlock p.whitenRound) s) := rfl

/-- TEA_FWD (41_whitener.md R71) of a word pair, under the default round. -/
def teaFwdPair (v : Word × Word) : Word × Word := teaFwd teaMix v.1 v.2

/-- TEA_INV (41_whitener.md R72) of a word pair, under the default round. -/
def teaInvPair (v : Word × Word) : Word × Word := teaInv teaMix v.1 v.2

theorem exec_whiten (s : State) : exec .whiten s = .next (finishPayload (onPairs halves teaFwdPair) s) :=
  congrArg (fun w => Host.Outcome.next (finish 0#32 0#32 (blockBytes w) s)) (whitenBlock_default (ibufBlock s))

theorem exec_dewhiten (s : State) : exec .dewhiten s = .next (finishPayload (onPairs halves teaInvPair) s) :=
  congrArg (fun w => Host.Outcome.next (finish 0#32 0#32 (blockBytes w) s)) (dewhitenBlock_default (ibufBlock s))

/-- Under the defaults both commands work on each half alone. -/
theorem exec_whitener {i : Instr} (h : i = .whiten ∨ i = .dewhiten) :
    ∃ g, ∀ s, exec i s = .next (finishPayload (onPairs halves g) s) := by
  obtain rfl | rfl := h
  · exact ⟨_, exec_whiten⟩
  · exact ⟨_, exec_dewhiten⟩

section
variable (F : Block → Block) (s : State)

theorem finishPayload_finished :
    Finished s (finishPayload F s) 0#32 0#32 (blockBytes (F (ibufBlock s))) :=
  finish_finished _ _ _ s (by rw [length_blockBytes]; decide)

theorem finishPayload_obuf (k : Nat) :
    (finishPayload F s).obuf.read k = (blockBytes (F (ibufBlock s))).getD k 0#8 :=
  Memory.read_ofBytes _ (by rw [length_blockBytes]; decide) k

/-- Byte `k` of word `j` of the output. -/
theorem finishPayload_obuf_word (j : Fin 4) {k : Nat} (hk : k < 4) :
    (finishPayload F s).obuf.read (4 * j + k) = (putLe32 (blockWord (F (ibufBlock s)) j)).getD k 0#8 := by
  rw [finishPayload_obuf, getD_blockBytes _ j k hk]

theorem outWord_finishPayload (j : Fin 4) : outWord (finishPayload F s) j = blockWord (F (ibufBlock s)) j := by
  rw [outWord, ← le32_eq_wordNat]
  exact le32_putLe32 _ _ _ fun k hk => finishPayload_obuf_word F s j hk

end

theorem inWord_eq_blockWord (s : State) (j : Fin 4) : inWord s j = blockWord (ibufBlock s) j := by
  rw [blockWord_ibufBlock, inWord, ← le32_eq_wordNat]
  rfl

/-- The payload's bytes are IBUF[0..15]. -/
theorem blockBytes_ibufBlock (s : State) : blockBytes (ibufBlock s) = ibufBytes s 0 16 := by
  simp only [blockBytes, ibufBlock, ibufWord, putLe32_le32]
  rfl

/-- An output read as the next payload. -/
theorem ibufBlock_of_output {F : Block → Block} {s s' : State}
    (h : ∀ k, k < 16 → s'.ibuf.read k = (finishPayload F s).obuf.read k) : ibufBlock s' = F (ibufBlock s) := by
  refine block_ext fun j => ?_
  rw [blockWord_ibufBlock]
  exact le32_putLe32 _ _ _ fun k hk => (h _ (by omega)).trans (finishPayload_obuf_word F s j hk)

/-- Where `G` undoes `F`, the command of `G` on the output of `F` gives the payload's bytes back. -/
theorem finishPayload_undoes {F G : Block → Block} (hGF : ∀ w, G (F w) = w) {s s' : State}
    (h : ∀ k, k < 16 → s'.ibuf.read k = (finishPayload F s).obuf.read k) {k : Nat} (hk : k < 16) :
    (finishPayload G s').obuf.read k = s.ibuf.read k := by
  rw [finishPayload_obuf, ibufBlock_of_output h, hGF, blockBytes_ibufBlock, getD_ibufBytes s 0 16 k hk, Nat.zero_add]

/-! ### The rounds of R71 and R72, word by word -/

theorem whitened_teaFwdPair (v0 v1 : Word) : Whitened v0 v1 (teaFwdPair (v0, v1)).1 (teaFwdPair (v0, v1)).2 := by
  refine ⟨fun i => (roundsFwd (roundFwd mix) i 0#32 (v0, v1)).1, fun i => (roundsFwd (roundFwd mix) i 0#32 (v0, v1)).2,
    rfl, rfl, fun i _ => ?_, rfl, rfl⟩
  dsimp only
  rw [roundsFwd_succ, sumAfter_zero_succ]
  exact ⟨rfl, rfl⟩

theorem dewhitened_teaInvPair (v0 v1 : Word) : Dewhitened v0 v1 (teaInvPair (v0, v1)).1 (teaInvPair (v0, v1)).2 := by
  refine ⟨fun i => (roundsInv (roundInv mix) i whitenSumEnd (v0, v1)).1,
    fun i => (roundsInv (roundInv mix) i whitenSumEnd (v0, v1)).2, rfl, rfl, fun i hi => ?_, rfl, rfl⟩
  dsimp only
  rw [whitenSumEnd_eq_sumAfter i hi, roundsInv_succ]
  exact ⟨rfl, rfl⟩

/-- What relates each word pair to its image under `g` relates both halves of the payload to those of the output. -/
theorem finishPayload_halves {R : Word → Word → Word → Word → Prop} {g : Word × Word → Word × Word}
    (h : ∀ v0 v1, R v0 v1 (g (v0, v1)).1 (g (v0, v1)).2) (s : State) :
    let t := finishPayload (onPairs halves g) s
    R (inWord s 0) (inWord s 1) (outWord t 0) (outWord t 1) ∧
      R (inWord s 2) (inWord s 3) (outWord t 2) (outWord t 3) := by
  intro t
  have hin := inWord_eq_blockWord s
  have hout : ∀ j : Fin 4, outWord t j = blockWord (onPairs halves g (ibufBlock s)) j := outWord_finishPayload _ s
  constructor
  · show R (inWord s (0 : Fin 4)) (inWord s (1 : Fin 4)) (outWord t (0 : Fin 4)) (outWord t (1 : Fin 4))
    rw [hin, hin, hout, hout]
    exact h _ _
  · show R (inWord s (2 : Fin 4)) (inWord s (3 : Fin 4)) (outWord t (2 : Fin 4)) (outWord t (3 : Fin 4))
    rw [hin, hin, hout, hout]
    exact h _ _

/-- Settles O38: WHITEN's words are those of TEA_FWD, whose rounds, counted from the last one, are those of R71. -/
theorem whitenRunsEightRoundsOnBothPairs : Obligations.WhitenRunsEightRoundsOnBothPairs := by
  unfold Obligations.WhitenRunsEightRoundsOnBothPairs
  exact fun s => ⟨_, _, exec_whiten s, finishPayload_finished _ s, rfl, finishPayload_halves whitened_teaFwdPair s⟩

/-- Settles O39: DEWHITEN's words are those of TEA_INV, whose rounds, counted from the last one, are those of R72. -/
theorem dewhitenRunsTheInverseRounds : Obligations.DewhitenRunsTheInverseRounds := by
  unfold Obligations.DewhitenRunsTheInverseRounds
  exact fun s => ⟨_, _, exec_dewhiten s, finishPayload_finished _ s, rfl, finishPayload_halves dewhitened_teaInvPair s⟩

/-! ### Each half alone -/

/-- Under the default pairing a word after a round depends on its own half only; word `j` is in half `j / 2`. -/
theorem onPairs_halves_congr (g : Word × Word → Word × Word) {v w : Block} {j : Fin 4}
    (h : ∀ i : Fin 4, i.val / 2 = j.val / 2 → blockWord v i = blockWord w i) :
    blockWord (onPairs halves g v) j = blockWord (onPairs halves g w) j := by
  obtain ⟨v0, v1, v2, v3⟩ := v
  obtain ⟨w0, w1, w2, w3⟩ := w
  rw [onPairs_halves, onPairs_halves]
  match j with
  | 0 | 1 =>
    obtain rfl : v0 = w0 := h 0 rfl
    obtain rfl : v1 = w1 := h 1 rfl
    rfl
  | 2 | 3 =>
    obtain rfl : v2 = w2 := h 2 rfl
    obtain rfl : v3 = w3 := h 3 rfl
    rfl

/-- The same for the bytes of an output; byte `k` is in half `k / 8`. -/
theorem finishPayload_halves_congr (g : Word × Word → Word × Word) {s s' : State} {k : Nat} (hk : k < 16)
    (h : ∀ m, m / 8 = k / 8 → s.ibuf.read m = s'.ibuf.read m) :
    (finishPayload (onPairs halves g) s).obuf.read k = (finishPayload (onPairs halves g) s').obuf.read k := by
  obtain ⟨j, r, hr, rfl⟩ : ∃ (j : Fin 4) (r : Nat), r < 4 ∧ k = 4 * j + r :=
    ⟨⟨k / 4, by omega⟩, k % 4, Nat.mod_lt _ (by decide), (Nat.div_add_mod k 4).symm⟩
  have hword : blockWord (onPairs halves g (ibufBlock s)) j = blockWord (onPairs halves g (ibufBlock s')) j := by
    refine onPairs_halves_congr g fun i hi => ?_
    rw [blockWord_ibufBlock, blockWord_ibufBlock]
    exact ibufWord_congr fun m _ _ => h m (by omega)
  rw [finishPayload_obuf_word _ s j hr, finishPayload_obuf_word _ s' j hr, hword]

/-- Settles O42: both commands apply one function to each half. -/
theorem whitenerHalvesAreIndependent : Obligations.WhitenerHalvesAreIndependent := by
  unfold Obligations.WhitenerHalvesAreIndependent
  intro i hi s s' t t' ht ht'
  obtain ⟨g, hg⟩ := exec_whitener hi
  obtain rfl := Host.Outcome.next.inj ((hg s).symm.trans ht)
  obtain rfl := Host.Outcome.next.inj ((hg s').symm.trans ht')
  refine ⟨fun h k hk => ?first, fun h k hlow hk => ?second⟩
  case first => exact finishPayload_halves_congr g (by omega) fun m hm => h m (by omega)
  case second => exact finishPayload_halves_congr g hk fun m hm => h m (by omega) (by omega)

/-! ### Every word pairing -/

/-- A pairing that holds each word once holds every word. -/
theorem fourWords_cases {p : Pairing} (h : FourWords p) (j : Fin 4) :
    j = p.a0 ∨ j = p.a1 ∨ j = p.b0 ∨ j = p.b1 := by
  simp only [FourWords, List.nodup_cons, List.mem_cons, List.not_mem_nil, not_or] at h
  omega

/-- A round over a pairing that holds each word once gives each pair its own image. -/
theorem blockWord_onPairs {p : Pairing} (h : FourWords p) (g : Word × Word → Word × Word) (w : Block) :
    (blockWord (onPairs p g w) p.a0, blockWord (onPairs p g w) p.a1) = g (blockWord w p.a0, blockWord w p.a1) ∧
      (blockWord (onPairs p g w) p.b0, blockWord (onPairs p g w) p.b1) = g (blockWord w p.b0, blockWord w p.b1) := by
  simp only [FourWords, List.nodup_cons, List.mem_cons, List.not_mem_nil, not_or, or_false] at h
  obtain ⟨⟨ha0a1, ha0b0, ha0b1⟩, ⟨ha1b0, ha1b1⟩, hb0b1, -⟩ := h
  simp [onPairs, blockWord_setBlockWord, ha0a1, ha0b0, ha0b1, ha1b0, ha1b1, hb0b1, Ne.symm]

/-- Two rounds that cancel on a word pair cancel on every pairing that holds each word once. -/
theorem onPairs_cancel {p : Pairing} (h : FourWords p) {f g : Word × Word → Word × Word} (hgf : ∀ v, g (f v) = v)
    (w : Block) : onPairs p g (onPairs p f w) = w := by
  obtain ⟨hfa, hfb⟩ := blockWord_onPairs h f w
  obtain ⟨hga, hgb⟩ := blockWord_onPairs h g (onPairs p f w)
  rw [hfa, hgf, Prod.mk.injEq] at hga
  rw [hfb, hgf, Prod.mk.injEq] at hgb
  refine block_ext fun j => ?_
  obtain rfl | rfl | rfl | rfl := fourWords_cases h j
  · exact hga.1
  · exact hga.2
  · exact hgb.1
  · exact hgb.2

/-! ### Each command undoes the other -/

/-- The two commands of an admissible block, in either order: the second one's function undoes the first one's. -/
theorem execWith_whitenerPair {p : Params} (hp : Admissible p) {i j : Instr}
    (h : i = .whiten ∧ j = .dewhiten ∨ i = .dewhiten ∧ j = .whiten) :
    ∃ F G, (∀ s, execWith p i s = .next (finishPayload F s)) ∧ (∀ s, execWith p j s = .next (finishPayload G s)) ∧
      ∀ w, G (F w) = w := by
  obtain ⟨rfl, rfl⟩ | ⟨rfl, rfl⟩ := h
  · exact ⟨_, _, execWith_whiten p, execWith_dewhiten p, dewhitenBlock_whitenBlock hp⟩
  · exact ⟨_, _, execWith_dewhiten p, execWith_whiten p, whitenBlock_dewhitenBlock hp⟩

/-- Settles O59: the rounds cancel from the inside, for any round with its inverse; and word by word for any pairing. -/
theorem whiteningIsInvertibleForEveryRound : Obligations.WhiteningIsInvertibleForEveryRound := by
  unfold Obligations.WhiteningIsInvertibleForEveryRound
  refine ⟨fun p hp i j hij s => ?commands, fun pairing f hfour sum w => ⟨?invFwd, ?fwdInv⟩⟩
  case commands =>
    obtain ⟨F, G, hi, hj, hGF⟩ := execWith_whitenerPair hp hij
    exact ⟨_, _, hi s, finishPayload_finished F s, rfl, fun s' hs' =>
      ⟨_, _, hj s', finishPayload_finished G s', rfl, fun _ hk => finishPayload_undoes hGF hs' hk⟩⟩
  case invFwd => exact onPairs_cancel hfour (roundInv_roundFwd f sum) w
  case fwdInv => exact onPairs_cancel hfour (roundFwd_roundInv f sum) w

/-- Settles O40: the default parameters are admissible. -/
theorem whitenAndDewhitenAreInverse : Obligations.WhitenAndDewhitenAreInverse := by
  unfold Obligations.WhitenAndDewhitenAreInverse
  intro i j hij s t s' t' ht hs' ht' k hk
  obtain ⟨F, G, hi, hj, hGF⟩ := execWith_whitenerPair defaultParams_admissible hij
  rw [execWith_default] at hi hj
  obtain rfl := Host.Outcome.next.inj ((hi s).symm.trans ht)
  obtain rfl := Host.Outcome.next.inj ((hj s').symm.trans ht')
  exact finishPayload_undoes hGF hs' hk

end Sys2Proof.Proofs
end

section
/-!
PROOFS. The FEC's statements (42_fec.md): what FECENC writes (O43), that FECCHK compares all six bytes (O44), the golden
vector and its bits (O45, O47), the laws of R81 for every FEC_PARITY (O46, O48), and the linear form of R77 (O49). Both
commands turn on the bytes of `computedParity`: FECENC writes them, and FECCHK finishes exactly where `ParityMatches`.
-/

namespace Sys2Proof.Proofs

open Sys2Proof.Machine Sys2Proof.Claim

/-! ### Parity bytes and their bits (R76) -/

theorem getLsbD_parityBytes (p : BitVec 48) {i : Nat} (hi : i < 48) :
    ((parityBytes p).getD (i / 8) 0#8).getLsbD (i % 8) = p.getLsbD i := by
  rw [getD_parityBytes p _ (by omega), BitVec.getLsbD_extractLsb', Nat.div_add_mod,
    decide_eq_true (Nat.mod_lt i (by decide)), Bool.true_and]

/-- The bytes that hold the parity bits are `parityBytes`. -/
theorem isParity_iff (p : BitVec 48) (b : Nat → Byte) :
    IsParity p b ↔ ∀ k, k < 6 → b k = (parityBytes p).getD k 0#8 := by
  constructor
  · intro h k hk
    refine BitVec.eq_of_getLsbD_eq fun m hm => ?_
    have hdiv : (8 * k + m) / 8 = k := by omega
    have hmod : (8 * k + m) % 8 = m := by omega
    have hbit := (h (8 * k + m) (by omega)).trans (getLsbD_parityBytes p (by omega)).symm
    rwa [hdiv, hmod] at hbit
  · intro h i hi
    rw [h _ (by omega), getLsbD_parityBytes p hi]

theorem parityBytes_injective : Function.Injective parityBytes := fun p q h =>
  BitVec.eq_of_getLsbD_eq fun i hi => by rw [← getLsbD_parityBytes p hi, h, getLsbD_parityBytes q hi]

theorem parityBytes_goldenParityBits : parityBytes goldenParityBits = goldenParity := by decide

/-- The data bits of IBUF[0..19] are those of the 20 bytes. -/
theorem dataBits_of_isDataBlock {s : State} {d : BitVec 160} (h : IsDataBlock s d) :
    dataBits (ibufBytes s 0 20) = d :=
  BitVec.eq_of_getLsbD_eq fun j hj => (getLsbD_dataBits s j hj).trans (h j hj).symm

theorem computedParity_of_isDataBlock {s : State} {d : BitVec 160} (h : IsDataBlock s d) :
    computedParity s = parityBytes (fecParity d) := by
  rw [computedParity, dataBits_of_isDataBlock h]

/-! ### What the commands leave (R79, R80) -/

/-- FECENC's state after its completion. -/
def fecencDone (s : State) : State := finish 0#32 0#32 (computedParity s) s

theorem exec_fecenc (s : State) : exec .fecenc s = .next (fecencDone s) := rfl

theorem fecencDone_finished (s : State) : Finished s (fecencDone s) 0#32 0#32 (computedParity s) :=
  finish_finished _ _ _ s (by rw [length_computedParity]; decide)

theorem fecencDone_obuf (s : State) (k : Nat) : (fecencDone s).obuf.read k = (computedParity s).getD k 0#8 :=
  Memory.read_ofBytes _ (by rw [length_computedParity]; decide) k

/-- IBUF[20..25] hold the parity bytes that the block computes over IBUF[0..19]. -/
def ParityMatches (s : State) : Prop := ∀ k, k < 6 → s.ibuf.read (20 + k) = (computedParity s).getD k 0#8

/-- Lists of six bytes are equal byte by byte. -/
theorem eq_of_six_bytes {bs cs : List Byte} (hbs : bs.length = 6) (hcs : cs.length = 6)
    (h : ∀ k, k < 6 → bs.getD k 0#8 = cs.getD k 0#8) : bs = cs := by
  refine List.ext_getElem (hbs.trans hcs.symm) fun k hk hk' => ?_
  rw [List.getElem_eq_getD 0#8, List.getElem_eq_getD 0#8]
  exact h k (hbs ▸ hk)

/-- `ParityMatches` is FECCHK's test. -/
theorem parityMatches_iff (s : State) : ParityMatches s ↔ computedParity s = ibufBytes s 20 6 := by
  constructor
  · intro h
    refine eq_of_six_bytes (length_computedParity s) (length_ibufBytes s 20 6) fun k hk => ?_
    rw [getD_ibufBytes s 20 6 k hk, h k hk]
  · intro h k hk
    rw [h, getD_ibufBytes s 20 6 k hk]

theorem exec_fecchk_of_match {s : State} (h : ParityMatches s) : exec .fecchk s = .next (finish 1#32 0#32 [] s) :=
  congrArg Host.Outcome.next (if_pos ((parityMatches_iff s).1 h))

theorem exec_fecchk_of_mismatch {s : State} (h : ¬ ParityMatches s) :
    exec .fecchk s = .next (fail .fecMismatch s) :=
  congrArg Host.Outcome.next (if_neg (mt (parityMatches_iff s).2 h))

theorem fecchk_finishes {s : State} (h : ParityMatches s) :
    ∃ t, exec .fecchk s = .next t ∧ Finished s t 1#32 0#32 [] :=
  ⟨_, exec_fecchk_of_match h, finish_finished _ _ _ s (by decide)⟩

theorem fecchk_fails {s : State} (h : ¬ ParityMatches s) :
    ∃ t, exec .fecchk s = .next t ∧ Failed s t .fecMismatch :=
  ⟨_, exec_fecchk_of_mismatch h, fail_failed _ s⟩

/-- RES tells a match. -/
theorem parityMatches_of_res {s t : State} (ht : exec .fecchk s = .next t) (hres : t.res = 1#32) :
    ParityMatches s := by
  refine Classical.byContradiction fun h => ?_
  obtain rfl := Host.Outcome.next.inj ((exec_fecchk_of_mismatch h).symm.trans ht)
  exact absurd hres (by rw [(fail_failed _ s).res]; decide)

theorem parityMatches_iff_isParity {s : State} {d : BitVec 160} (h : IsDataBlock s d) :
    ParityMatches s ↔ IsParity (fecParity d) (fun k => s.ibuf.read (20 + k)) := by
  rw [isParity_iff, ParityMatches, computedParity_of_isDataBlock h]

/-- Settles O43: the bytes that FECENC writes are those of the parity bits. -/
theorem fecencWritesTheParity : Obligations.FecencWritesTheParity := by
  unfold Obligations.FecencWritesTheParity
  intro s d hd
  refine ⟨_, _, exec_fecenc s, fecencDone_finished s, length_computedParity s, (isParity_iff _ _).2 fun k _ => ?_⟩
  rw [fecencDone_obuf, computedParity_of_isDataBlock hd]

/-- Settles O44: FECCHK's test is that the six bytes hold the parity bits. -/
theorem fecchkComparesTheParity : Obligations.FecchkComparesTheParity := by
  unfold Obligations.FecchkComparesTheParity
  refine ⟨decode_encode (i := .fecchk) rfl, fun s d hd => ?_⟩
  rw [← parityMatches_iff_isParity hd]
  by_cases h : ParityMatches s
  · obtain ⟨t, ht, hfinished⟩ := fecchk_finishes h
    exact ⟨t, ht, fun _ => hfinished, fun hno => absurd h hno⟩
  · obtain ⟨t, ht, hfailed⟩ := fecchk_fails h
    exact ⟨t, ht, fun hyes => absurd hyes h, fun _ => hfailed⟩

/-! ### Laws 2 and 3 of R81: the same block in two states -/

/-- Settles O46: the parity of equal blocks is the same. -/
theorem fecchkAcceptsFecencOutput : Obligations.FecchkAcceptsFecencOutput := by
  unfold Obligations.FecchkAcceptsFecencOutput
  intro s t s' ht hblock hparity
  obtain rfl := Host.Outcome.next.inj ((exec_fecenc s).symm.trans ht)
  refine fecchk_finishes fun k hk => ?_
  rw [hparity k hk, fecencDone_obuf, computedParity_congr hblock]

/-- Settles O48: at most one choice of the six bytes matches a block. -/
theorem fecchkDetectsChangedParity : Obligations.FecchkDetectsChangedParity := by
  unfold Obligations.FecchkDetectsChangedParity
  rintro s t s' ht hres hblock ⟨k, hk, hchanged⟩
  have hmatch := parityMatches_of_res ht hres
  refine fecchk_fails fun hmatch' => hchanged ?_
  rw [hmatch k hk, hmatch' k hk, computedParity_congr hblock]

/-! ### The golden block (R78) -/

/-- Twenty bytes of IBUF are five words. -/
theorem ibufBytes_eq_words (s : State) :
    ibufBytes s 0 20 = putLe32 (inWord s 0) ++ putLe32 (inWord s 1) ++ putLe32 (inWord s 2) ++ putLe32 (inWord s 3) ++
      putLe32 (inWord s 4) := by
  simp only [inWord, ← le32_eq_wordNat, putLe32_le32]
  rfl

theorem ibufBytes_of_holdsGoldenBlock {s : State} (h : HoldsGoldenBlock s) : ibufBytes s 0 20 = goldenBlock := by
  obtain ⟨h0, h1, h2, h3, h4⟩ := h
  rw [ibufBytes_eq_words, h0, h1, h2, h3, h4]
  decide

theorem getD_computedParity_golden {s : State} (h : HoldsGoldenBlock s) (k : Nat) :
    (computedParity s).getD k 0#8 = goldenByte k := by
  rw [computedParity_golden (ibufBytes_of_holdsGoldenBlock h)]
  rfl

/-- The bits of the block of the one bit `j`. -/
theorem getLsbD_singleBit {j : Nat} (hj : j < 160) (i : Nat) :
    (BitVec.ofNat 160 (2 ^ j)).getLsbD i = decide (i = j) := by
  rw [BitVec.getLsbD_ofNat, Nat.testBit_two_pow, ← Bool.decide_and]
  exact decide_eq_decide.2 (by omega)

theorem getLsbD_flipBit (d : BitVec 160) {j : Nat} (hj : j < 160) (i : Nat) :
    (flipBit d j).getLsbD i = (d.getLsbD i ^^ decide (i = j)) := by
  rw [flipBit, BitVec.getLsbD_xor, getLsbD_singleBit hj]

/-- Constraint 2 of R78. -/
theorem fecParity_flipBit_golden {j : Nat} (hj : j < 160) :
    fecParity (flipBit (dataBits goldenBlock) j) ≠ goldenParityBits := by
  have hadmissible := fecParity_admissible
  rw [fecAdmissible, Bool.and_eq_true, List.all_eq_true] at hadmissible
  exact of_decide_eq_true (hadmissible.2 j (List.mem_range.2 hj))

/-- The parity of the golden block with one bit flipped differs from the golden parity in some byte. -/
theorem exists_computedParity_ne_golden {s s' : State} {j : Nat} (hs : HoldsGoldenBlock s) (hj : j < 160)
    (hflip : ∀ i, i < 160 → (s'.ibuf.read (i / 8)).getLsbD (i % 8) =
      ((s.ibuf.read (i / 8)).getLsbD (i % 8) ^^ decide (i = j))) :
    ∃ k, k < 6 ∧ (computedParity s').getD k 0#8 ≠ goldenByte k := by
  have hdata : IsDataBlock s' (flipBit (dataBits goldenBlock) j) := fun i hi => by
    rw [hflip i hi, getLsbD_flipBit _ hj, ← ibufBytes_of_holdsGoldenBlock hs, getLsbD_dataBits s i hi]
  refine Classical.byContradiction fun hsame => ?_
  have hgolden : computedParity s' = goldenParity := eq_of_six_bytes (length_computedParity s') rfl
    fun k hk => Classical.byContradiction fun hne => hsame ⟨k, hk, hne⟩
  rw [computedParity_of_isDataBlock hdata, ← parityBytes_goldenParityBits] at hgolden
  exact fecParity_flipBit_golden hj (parityBytes_injective hgolden)

/-- Settles O45, by constraints 1 and 2 of R78. -/
theorem fecGoldenVectorAndSensitivity : Obligations.FecGoldenVectorAndSensitivity := by
  unfold Obligations.FecGoldenVectorAndSensitivity
  refine fun s hs => ⟨⟨_, exec_fecenc s, fun k _ => ?golden⟩, fun j s' t' hj hflip ht' => ?flipped⟩
  case golden => rw [fecencDone_obuf, getD_computedParity_golden hs]
  case flipped =>
    obtain rfl := Host.Outcome.next.inj ((exec_fecenc s').symm.trans ht')
    obtain ⟨k, hk, hne⟩ := exists_computedParity_ne_golden hs hj hflip
    exact ⟨k, hk, by rwa [fecencDone_obuf]⟩

/-- Settles O47: a match would make the golden parity that of the flipped block. -/
theorem fecchkDetectsAFlippedGoldenBit : Obligations.FecchkDetectsAFlippedGoldenBit := by
  unfold Obligations.FecchkDetectsAFlippedGoldenBit
  refine fun s hs hparity => ⟨fecchk_finishes fun k hk => ?golden, fun j s' hj hflip hparity' => fecchk_fails ?flipped⟩
  case golden => rw [hparity k hk, getD_computedParity_golden hs]
  case flipped =>
    intro hmatch
    obtain ⟨k, hk, hne⟩ := exists_computedParity_ne_golden hs hj hflip
    exact hne ((hmatch k hk).symm.trans (hparity' k hk))

/-! ### The linear form (R77) -/

theorem linearParityFrom_cons (d : BitVec 160) (j : Nat) (col : BitVec 48) (rest : List (BitVec 48)) :
    linearParityFrom d j (col :: rest) =
      (if d.getLsbD j then col else 0#48) ^^^ linearParityFrom d (j + 1) rest := rfl

theorem linearParityFrom_zero (columns : List (BitVec 48)) (j : Nat) : linearParityFrom 0#160 j columns = 0#48 := by
  induction columns generalizing j with
  | nil => rfl
  | cons col rest ih => rw [linearParityFrom_cons, ih, BitVec.getLsbD_zero, if_neg Bool.false_ne_true, BitVec.xor_zero]

/-- One column's share is linear in the bit that selects it. -/
theorem selected_xor (x y : Bool) (col : BitVec 48) :
    (if x ^^ y then col else 0#48) = (if x then col else 0#48) ^^^ (if y then col else 0#48) := by
  match x, y with
  | false, false => exact BitVec.xor_zero.symm
  | false, true => exact BitVec.zero_xor.symm
  | true, false => exact BitVec.xor_zero.symm
  | true, true => exact BitVec.xor_self.symm

theorem linearParityFrom_xor (columns : List (BitVec 48)) (a b : BitVec 160) (j : Nat) :
    linearParityFrom (a ^^^ b) j columns = linearParityFrom a j columns ^^^ linearParityFrom b j columns := by
  induction columns generalizing j with
  | nil => exact BitVec.xor_self.symm
  | cons col rest ih =>
    rw [linearParityFrom_cons, linearParityFrom_cons, linearParityFrom_cons, ih, BitVec.getLsbD_xor, selected_xor]
    ac_rfl

/-- From column `k` on, the block of the one bit `j` selects column `j`, or none where `j` is below `k`. -/
theorem linearParityFrom_singleBit (columns : List (BitVec 48)) {j : Nat} (hj : j < 160) (k : Nat) :
    linearParityFrom (BitVec.ofNat 160 (2 ^ j)) k columns = if k ≤ j then columns.getD (j - k) 0#48 else 0#48 := by
  induction columns generalizing k with
  | nil =>
    rw [List.getD_nil, ite_self]
    rfl
  | cons col rest ih =>
    rw [linearParityFrom_cons, ih, getLsbD_singleBit hj]
    rcases Nat.lt_trichotomy k j with hlt | rfl | hgt
    · rw [decide_eq_false (by omega), if_neg Bool.false_ne_true, BitVec.zero_xor, if_pos (Nat.succ_le_of_lt hlt),
        if_pos (Nat.le_of_lt hlt), show j - k = j - (k + 1) + 1 by omega, List.getD_cons_succ]
    · rw [decide_eq_true rfl, if_pos rfl, if_neg (by omega), BitVec.xor_zero, if_pos (Nat.le_refl k), Nat.sub_self,
        List.getD_cons_zero]
    · rw [decide_eq_false (by omega), if_neg Bool.false_ne_true, BitVec.zero_xor, if_neg (by omega),
        if_neg (by omega)]

/-- Flipping bit `j` adds column `j` to the parity. -/
theorem linearParity_flipBit (columns : List (BitVec 48)) (d : BitVec 160) {j : Nat} (hj : j < 160) :
    linearParity columns (flipBit d j) = linearParity columns d ^^^ columns.getD j 0#48 := by
  rw [linearParity, linearParity, flipBit, linearParityFrom_xor, linearParityFrom_singleBit columns hj,
    if_pos (Nat.zero_le j), Nat.sub_zero]

/-- Settles O49: a flipped bit adds its column, which is not zero. -/
theorem linearParityFormIsLinearAndSensitive : Obligations.LinearParityFormIsLinearAndSensitive := by
  unfold Obligations.LinearParityFormIsLinearAndSensitive
  refine fun columns => ⟨linearParityFrom_zero columns 0, fun a b => linearParityFrom_xor columns a b 0, ?_⟩
  intro hlength hnonzero d j hj hsame
  have hj' : j < columns.length := by omega
  have hcolumn : columns.getD j 0#48 = 0#48 := by
    rw [linearParity_flipBit columns d hj] at hsame
    exact (BitVec.xor_right_inj _).1 (hsame.trans BitVec.xor_zero.symm)
  rw [← List.getElem_eq_getD (h := hj')] at hcolumn
  exact hnonzero _ (List.getElem_mem hj') hcolumn

end Sys2Proof.Proofs
end

section
/-!
PROOFS. The line coder's statements (43_manchester.md): the nibble table and its inverse (O52), what MANENC and MANDEC
give (O50, O51), and that MANDEC undoes MANENC (O53). A coded byte is read pair by pair: it decodes exactly when each of
its four pairs has two different symbols, and the lower symbol of a pair is its data bit.
-/

namespace Sys2Proof.Proofs

open Sys2Proof.Machine Sys2Proof.Claim

/-! ### Nibbles and their bits -/

/-- The number of four bits, the highest first. -/
def nibble (b3 b2 b1 b0 : Bool) : Nat := 8 * b3.toNat + 4 * b2.toNat + 2 * b1.toNat + b0.toNat

theorem nibble_lt (b3 b2 b1 b0 : Bool) : nibble b3 b2 b1 b0 < 16 := by
  revert b3 b2 b1 b0
  decide

theorem testBit_nibble (b3 b2 b1 b0 : Bool) :
    (nibble b3 b2 b1 b0).testBit 3 = b3 ∧ (nibble b3 b2 b1 b0).testBit 2 = b2 ∧
      (nibble b3 b2 b1 b0).testBit 1 = b1 ∧ (nibble b3 b2 b1 b0).testBit 0 = b0 := by
  revert b3 b2 b1 b0
  decide

theorem nibble_of_testBits {n : Nat} (hn : n < 16) :
    nibble (n.testBit 3) (n.testBit 2) (n.testBit 1) (n.testBit 0) = n := by
  simp only [nibble, Nat.toNat_testBit]
  omega

/-! ### The symbol pairs of a byte (R82) -/

/-- A pair is its two symbols as a number. -/
theorem symbolPair_eq (c : Byte) (p : Nat) :
    symbolPair c p = 2 * (c.getLsbD (2 * p + 1)).toNat + (c.getLsbD (2 * p)).toNat := by
  rw [symbolPair, Nat.shiftRight_eq_div_pow, BitVec.getLsbD, BitVec.getLsbD, Nat.toNat_testBit, Nat.toNat_testBit,
    Nat.pow_succ, ← Nat.div_div_eq_div_mul]
  omega

/-- A pair of two different symbols has its lower symbol as its data bit; any other is a violation. -/
theorem pairBit_symbolPair (c : Byte) (p : Nat) :
    pairBit (symbolPair c p) =
      if c.getLsbD (2 * p + 1) = !c.getLsbD (2 * p) then some (c.getLsbD (2 * p)).toNat else none := by
  rw [symbolPair_eq]
  generalize c.getLsbD (2 * p + 1) = upper, c.getLsbD (2 * p) = lower
  revert upper lower
  decide

/-- The nibble of a byte's four data bits. -/
def dataNibble (c : Byte) : Nat :=
  nibble (c.getLsbD (2 * 3)) (c.getLsbD (2 * 2)) (c.getLsbD (2 * 1)) (c.getLsbD (2 * 0))

theorem dataNibble_lt (c : Byte) : dataNibble c < 16 := nibble_lt ..

theorem testBit_dataNibble (c : Byte) {p : Nat} (hp : p < 4) : (dataNibble c).testBit p = c.getLsbD (2 * p) := by
  obtain ⟨h3, h2, h1, h0⟩ :=
    testBit_nibble (c.getLsbD (2 * 3)) (c.getLsbD (2 * 2)) (c.getLsbD (2 * 1)) (c.getLsbD (2 * 0))
  match p, hp with
  | 0, _ => exact h0
  | 1, _ => exact h1
  | 2, _ => exact h2
  | 3, _ => exact h3

/-- A byte without a violation is the code of its own data bits. -/
theorem isCoded_dataNibble {c : Byte} (h : Coded c) : IsCoded (dataNibble c) c := fun p hp => by
  rw [testBit_dataNibble c hp]
  exact ⟨rfl, h p hp⟩

theorem coded_of_isCoded {n : Nat} {c : Byte} (h : IsCoded n c) : Coded c := fun p hp => by
  obtain ⟨hlower, hupper⟩ := h p hp
  rw [hupper, hlower]

/-- A byte is the code of no other nibble. -/
theorem dataNibble_of_isCoded {n : Nat} {c : Byte} (hn : n < 16) (h : IsCoded n c) : dataNibble c = n := by
  have hlower : ∀ p, p < 4 → c.getLsbD (2 * p) = n.testBit p := fun p hp => (h p hp).1
  rw [dataNibble, hlower 3 (by decide), hlower 2 (by decide), hlower 1 (by decide), hlower 0 (by decide),
    nibble_of_testBits hn]

/-- A nibble has one code. -/
theorem eq_of_isCoded {n : Nat} {c d : Byte} (hc : IsCoded n c) (hd : IsCoded n d) : c = d := by
  refine BitVec.eq_of_getLsbD_eq fun i hi => ?_
  obtain ⟨hclower, hcupper⟩ := hc (i / 2) (by omega)
  obtain ⟨hdlower, hdupper⟩ := hd (i / 2) (by omega)
  rcases Nat.mod_two_eq_zero_or_one i with heven | hodd
  · rw [show i = 2 * (i / 2) by omega, hclower, hdlower]
  · rw [show i = 2 * (i / 2) + 1 by omega, hcupper, hdupper]

/-! ### The nibble table and its inverse (R83, R85) -/

theorem isCoded_manT {n : Nat} (hn : n < 16) : IsCoded n (manT n) := by
  revert n
  unfold IsCoded
  decide

theorem manDecNib_of_coded {c : Byte} (h : Coded c) : manDecNib c = some (dataNibble c) := by
  have hpair : ∀ p, p < 4 → pairBit (symbolPair c p) = some (c.getLsbD (2 * p)).toNat := fun p hp => by
    rw [pairBit_symbolPair, if_pos (h p hp)]
  rw [manDecNib, hpair 3 (by decide), hpair 2 (by decide), hpair 1 (by decide), hpair 0 (by decide)]
  rfl

theorem coded_of_manDecNib {c : Byte} {n : Nat} (h : manDecNib c = some n) : Coded c := by
  have hdiffer : ∀ {p b}, pairBit (symbolPair c p) = some b → c.getLsbD (2 * p + 1) = !c.getLsbD (2 * p) :=
    fun {p b} hb => Classical.byContradiction fun hne => by
      rw [pairBit_symbolPair, if_neg hne] at hb
      cases hb
  unfold manDecNib at h
  split at h
  next h3 h2 h1 h0 =>
    intro p hp
    match p, hp with
    | 0, _ => exact hdiffer h0
    | 1, _ => exact hdiffer h1
    | 2, _ => exact hdiffer h2
    | 3, _ => exact hdiffer h3
  next => cases h

theorem manDecNib_eq_some_iff {c : Byte} {n : Nat} : manDecNib c = some n ↔ n < 16 ∧ IsCoded n c := by
  constructor
  · intro h
    have hc := coded_of_manDecNib h
    obtain rfl : dataNibble c = n := Option.some.inj ((manDecNib_of_coded hc).symm.trans h)
    exact ⟨dataNibble_lt c, isCoded_dataNibble hc⟩
  · rintro ⟨hn, h⟩
    rw [manDecNib_of_coded (coded_of_isCoded h), dataNibble_of_isCoded hn h]

theorem manDecNib_manT {n : Nat} (hn : n < 16) : manDecNib (manT n) = some n :=
  manDecNib_eq_some_iff.2 ⟨hn, isCoded_manT hn⟩

/-- Settles O52: the bytes that decode are the coded ones, and the table's entry is the one code of its nibble. -/
theorem nibbleTableAndItsInverse : Obligations.NibbleTableAndItsInverse := by
  unfold Obligations.NibbleTableAndItsInverse
  refine ⟨rfl, rfl, fun n hn => isCoded_manT hn, fun c n => ⟨fun h => ?_, ?_⟩⟩
  · obtain ⟨hn, hcoded⟩ := manDecNib_eq_some_iff.1 h
    exact ⟨hn, eq_of_isCoded (isCoded_manT hn) hcoded⟩
  · rintro ⟨hn, rfl⟩
    exact manDecNib_manT hn

/-! ### The bytes of IBUF -/

theorem getD_ibufBytes_zero (s : State) {n k : Nat} (h : k < n) : (ibufBytes s 0 n).getD k 0#8 = s.ibuf.read k := by
  rw [getD_ibufBytes s 0 n k h, Nat.zero_add]

theorem mem_ibufBytes_zero {s : State} {n : Nat} {c : Byte} :
    c ∈ ibufBytes s 0 n ↔ ∃ k, k < n ∧ s.ibuf.read k = c := by
  simp [ibufBytes, Memory.slice]

theorem ibufBytes_zero_eq {s : State} {n : Nat} {bs : List Byte} (hlength : bs.length = n)
    (h : ∀ k, k < n → s.ibuf.read k = bs.getD k 0#8) : ibufBytes s 0 n = bs := by
  refine List.ext_getElem ((length_ibufBytes s 0 n).trans hlength.symm) fun k _ hk => ?_
  rw [List.getElem_eq_getD 0#8, List.getElem_eq_getD 0#8, getD_ibufBytes_zero s (hlength ▸ hk), h k (hlength ▸ hk)]

/-! ### MANENC (R86) -/

theorem decode_of_encode_toNat {i : Instr} {n : Nat} (hwf : WellFormed i) (h : (encode i).toNat = n) :
    decode (BitVec.ofNat 32 n) = .ok i := by
  rw [← h, BitVec.ofNat_toNat, BitVec.setWidth_eq]
  exact decode_encode hwf

/-- MANENC's state after its completion, for a LEN that it takes. -/
def manencDone (len : Nat) (s : State) : State := finish 0#32 0#32 (manEncode (ibufBytes s 0 len)) s

theorem exec_manenc_of_le {len : Nat} (h : len ≤ 32) (s : State) : exec (.manenc len) s = .next (manencDone len s) :=
  congrArg Host.Outcome.next (if_neg (Nat.not_lt.2 h))

theorem exec_manenc_of_gt {len : Nat} (h : 32 < len) (s : State) :
    exec (.manenc len) s = .next (fail .badLength s) :=
  congrArg Host.Outcome.next (if_pos h)

theorem length_manEncode_ibufBytes (s : State) (len : Nat) : (manEncode (ibufBytes s 0 len)).length = 2 * len := by
  rw [length_manEncode, length_ibufBytes]

theorem manencDone_finished {len : Nat} (h : len ≤ 32) (s : State) :
    Finished s (manencDone len s) 0#32 0#32 (manEncode (ibufBytes s 0 len)) :=
  finish_finished _ _ _ s (by rw [length_manEncode_ibufBytes]; omega)

theorem manencDone_obuf {len : Nat} (h : len ≤ 32) (s : State) (k : Nat) :
    (manencDone len s).obuf.read k = (manEncode (ibufBytes s 0 len)).getD k 0#8 :=
  Memory.read_ofBytes _ (by rw [length_manEncode_ibufBytes]; omega) k

/-- Settles O50: MANENC writes the table's entries of each byte's two nibbles. -/
theorem manencCodesEveryByte : Obligations.ManencCodesEveryByte := by
  unfold Obligations.ManencCodesEveryByte
  refine ⟨fun _ h => decode_of_encode_toNat (decide_eq_true h) (encode_manenc_toNat h), fun s len =>
    ⟨fun h => ?short, fun h => ?long⟩⟩
  case short =>
    refine ⟨_, _, exec_manenc_of_le h s, manencDone_finished h s, length_manEncode_ibufBytes s len, fun i hi => ?_⟩
    obtain ⟨hhigh, hlow⟩ := getD_manEncode (ibufBytes s 0 len) i (by rwa [length_ibufBytes])
    rw [getD_ibufBytes_zero s hi] at hhigh hlow
    rw [manencDone_obuf h, manencDone_obuf h, hhigh, hlow]
    have hbyte := (s.ibuf.read i).isLt
    exact ⟨isCoded_manT (by omega), isCoded_manT (by omega)⟩
  case long => exact ⟨_, exec_manenc_of_gt h s, fail_failed _ s⟩

/-! ### The decoding of coded bytes two by two (R87) -/

/-- The data byte of two coded bytes, the high nibble first. -/
def dataByte (ch cl : Byte) : Byte := BitVec.ofNat 8 (16 * dataNibble ch + dataNibble cl)

theorem getLsbD_dataByte (ch cl : Byte) {p : Nat} (hp : p < 4) :
    (dataByte ch cl).getLsbD (4 + p) = ch.getLsbD (2 * p) ∧ (dataByte ch cl).getLsbD p = cl.getLsbD (2 * p) := by
  have hbit : ∀ i, i < 8 → (dataByte ch cl).getLsbD i =
      if i < 4 then (dataNibble cl).testBit i else (dataNibble ch).testBit (i - 4) := fun i hi => by
    rw [dataByte, BitVec.getLsbD_ofNat, show 16 = 2 ^ 4 from rfl, Nat.testBit_two_pow_mul_add _ (dataNibble_lt cl),
      decide_eq_true hi, Bool.true_and]
  constructor
  · rw [hbit _ (by omega), if_neg (by omega), Nat.add_sub_cancel_left, testBit_dataNibble ch hp]
  · rw [hbit _ (by omega), if_pos hp, testBit_dataNibble cl hp]

theorem manDecode_cons_cons {ch cl : Byte} {h l : Nat} (hch : manDecNib ch = some h) (hcl : manDecNib cl = some l)
    {rest out : List Byte} (hrest : manDecode rest = some out) :
    manDecode (ch :: cl :: rest) = some (BitVec.ofNat 8 (16 * h + l) :: out) := by
  rw [manDecode, hch, hcl, hrest]

/-- Bytes that decode hold no violation. -/
theorem coded_of_manDecode : ∀ {bs out : List Byte}, manDecode bs = some out → ∀ c ∈ bs, Coded c
  | [], _, _ => fun _ hc => by cases hc
  | [_], _, h => by cases h
  | ch :: cl :: rest, out, h => by
    unfold manDecode at h
    split at h
    next hch hcl =>
      split at h
      next hrest =>
        exact List.forall_mem_cons.2 ⟨coded_of_manDecNib hch,
          List.forall_mem_cons.2 ⟨coded_of_manDecNib hcl, coded_of_manDecode hrest⟩⟩
      next => cases h
    next => cases h

/-- Coded bytes, even in number, decode two by two. -/
theorem manDecode_of_coded : ∀ {bs : List Byte}, bs.length % 2 = 0 → (∀ c ∈ bs, Coded c) →
    ∃ out, manDecode bs = some out ∧
      ∀ i, 2 * i < bs.length → out.getD i 0#8 = dataByte (bs.getD (2 * i) 0#8) (bs.getD (2 * i + 1) 0#8)
  | [], _, _ => ⟨[], rfl, fun _ hi => absurd hi (Nat.not_lt_zero _)⟩
  | [_], heven, _ => absurd heven Nat.one_ne_zero
  | ch :: cl :: rest, heven, hcoded => by
    rw [List.forall_mem_cons, List.forall_mem_cons] at hcoded
    obtain ⟨hch, hcl, hrest⟩ := hcoded
    rw [List.length_cons, List.length_cons] at heven
    obtain ⟨out, hout, hbytes⟩ := manDecode_of_coded (bs := rest) (by omega) hrest
    refine ⟨_, manDecode_cons_cons (manDecNib_of_coded hch) (manDecNib_of_coded hcl) hout, fun i hi => ?_⟩
    cases i with
    | zero => rfl
    | succ i =>
      rw [List.length_cons, List.length_cons] at hi
      exact hbytes i (by omega)

/-- The decoder undoes the encoder (R88 law 1). -/
theorem manDecode_manEncode (bs : List Byte) : manDecode (manEncode bs) = some bs := by
  induction bs with
  | nil => rfl
  | cons b rest ih =>
    have hb := b.isLt
    have hbyte : BitVec.ofNat 8 (16 * (b.toNat / 16) + b.toNat % 16) = b := by
      rw [Nat.div_add_mod, BitVec.ofNat_toNat, BitVec.setWidth_eq]
    calc manDecode (manEncode (b :: rest))
        = some (BitVec.ofNat 8 (16 * (b.toNat / 16) + b.toNat % 16) :: rest) :=
          manDecode_cons_cons (manDecNib_manT (by omega)) (manDecNib_manT (by omega)) ih
      _ = some (b :: rest) := by rw [hbyte]

/-! ### MANDEC (R87) -/

theorem exec_mandec_badLength {len : Nat} (h : len % 2 = 1 ∨ 64 < len) (s : State) :
    exec (.mandec len) s = .next (fail .badLength s) := by
  refine congrArg Host.Outcome.next ?_
  by_cases hodd : len % 2 = 1
  · exact if_pos hodd
  · exact (if_neg hodd).trans (if_pos (h.resolve_left hodd))

theorem exec_mandec_of_decoded {len : Nat} (heven : len % 2 = 0) (h : len ≤ 64) {s : State} {out : List Byte}
    (hout : manDecode (ibufBytes s 0 len) = some out) :
    exec (.mandec len) s = .next (finish 0#32 0#32 out s) := by
  refine congrArg Host.Outcome.next ((if_neg (by omega)).trans ((if_neg (Nat.not_lt.2 h)).trans ?_))
  rw [hout]

theorem exec_mandec_of_violation {len : Nat} (heven : len % 2 = 0) (h : len ≤ 64) {s : State}
    (hnone : manDecode (ibufBytes s 0 len) = none) : exec (.mandec len) s = .next (fail .lineViolation s) := by
  refine congrArg Host.Outcome.next ((if_neg (by omega)).trans ((if_neg (Nat.not_lt.2 h)).trans ?_))
  rw [hnone]

theorem mandec_finishes {len : Nat} (heven : len % 2 = 0) (h : len ≤ 64) {s : State} {out : List Byte}
    (hout : manDecode (ibufBytes s 0 len) = some out) :
    ∃ t, exec (.mandec len) s = .next t ∧ Finished s t 0#32 0#32 out ∧ out.length = len / 2 := by
  have hlength := length_manDecode hout
  rw [length_ibufBytes] at hlength
  exact ⟨_, exec_mandec_of_decoded heven h hout, finish_finished _ _ out s (by omega), by omega⟩

/-- Settles O51: bytes decode exactly when they are coded, and then each data byte has the bits of its two codes. -/
theorem mandecDecodesOrRejects : Obligations.MandecDecodesOrRejects := by
  unfold Obligations.MandecDecodesOrRejects
  refine ⟨fun _ h => decode_of_encode_toNat (decide_eq_true h) (encode_mandec_toNat h), fun s len =>
    ⟨fun h => ⟨_, exec_mandec_badLength h s, fail_failed _ s⟩, ?violation, fun heven h hcoded => ?decoded⟩⟩
  case violation =>
    rintro heven h ⟨i, hi, hbad⟩
    have hnone : manDecode (ibufBytes s 0 len) = none := Option.eq_none_iff_forall_ne_some.2 fun out hout =>
      hbad (coded_of_manDecode hout _ (mem_ibufBytes_zero.2 ⟨i, hi, rfl⟩))
    exact ⟨_, exec_mandec_of_violation heven h hnone, fail_failed _ s⟩
  case decoded =>
    have hmem : ∀ c ∈ ibufBytes s 0 len, Coded c := fun c hc => by
      obtain ⟨k, hk, rfl⟩ := mem_ibufBytes_zero.1 hc
      exact hcoded k hk
    obtain ⟨out, hout, hbytes⟩ := manDecode_of_coded (by rwa [length_ibufBytes]) hmem
    obtain ⟨t, ht, hfinished, hlength⟩ := mandec_finishes heven h hout
    refine ⟨t, out, ht, hfinished, hlength, fun i p hi hp => ?_⟩
    rw [hfinished.obuf i (by omega), hbytes i (by rw [length_ibufBytes]; omega), getD_ibufBytes_zero s (by omega),
      getD_ibufBytes_zero s (by omega)]
    exact getLsbD_dataByte _ _ hp

/-- Settles O53: IBUF then holds the encoder's output, which the decoder undoes. -/
theorem manchesterRoundTrip : Obligations.ManchesterRoundTrip := by
  unfold Obligations.ManchesterRoundTrip
  intro n s t s' hn ht hs'
  obtain rfl := Host.Outcome.next.inj ((exec_manenc_of_le hn s).symm.trans ht)
  have hcodes : ibufBytes s' 0 (2 * n) = manEncode (ibufBytes s 0 n) :=
    ibufBytes_zero_eq (length_manEncode_ibufBytes s n) fun k hk => by rw [hs' k hk, manencDone_obuf hn]
  obtain ⟨t', ht', hfinished, _⟩ := mandec_finishes (s := s') (Nat.mul_mod_right 2 n) (by omega)
    (show _ = some (ibufBytes s 0 n) by rw [hcodes, manDecode_manEncode])
  refine ⟨t', _, ht', hfinished, length_ibufBytes s 0 n, fun k hk => ?_⟩
  rw [hfinished.obuf k (by omega), getD_ibufBytes_zero s hk]

end Sys2Proof.Proofs
end

section
/-!
PROOFS. The hop selector's statements (44_freqhop.md): the laws of the channel selection (O56), what FHSEL gives under
any parameters (O60) and under the defaults (O54, O55), and that two slots do not share a frequency (O57).
-/

namespace Sys2Proof.Proofs

open Sys2Proof.Machine Sys2Proof.Claim

/-! ### The channel selection (R91), for every hash and both readings of slot 1 -/

/-- The collision check of slot 1: a candidate equal to the slot-0 channel is incremented and wrapped. -/
def avoidChannel (n c0 c : Nat) : Nat := if c = c0 then hopWrap n (c + 1) else c

theorem avoidChannel_lt_and_ne {n c : Nat} (c0 : Nat) (hn : 3 ≤ n) (hc : c < n) :
    avoidChannel n c0 c < n ∧ avoidChannel n c0 c ≠ c0 := by
  unfold avoidChannel
  split
  next h => exact h ▸ hopWrap_succ hn hc
  next h => exact ⟨hc, h⟩

theorem xor_one_of_lt_two {slot : Nat} (h : slot < 2) : slot ^^^ 1 = 1 - slot := by
  obtain rfl | rfl : slot = 0 ∨ slot = 1 := by omega
  · rfl
  · rfl

section
variable (hash : Word → Word) (plus1 : Bool) {n : Nat} (t : Word)

theorem chan_one_channel (slot : Nat) : chan hash plus1 1 slot t = 0 := rfl

theorem chan_two_channels {slot : Nat} (h : slot < 2) : chan hash plus1 2 slot t = 1 - slot :=
  xor_one_of_lt_two h

theorem chan_slot0 (hn : 3 ≤ n) : chan hash plus1 n 0 t = chanSlot0 hash n t := by
  rw [chan, if_neg (by omega), if_neg (by omega), if_pos rfl]

theorem chan_slot1 (hn : 3 ≤ n) {slot : Nat} (hslot : slot ≠ 0) :
    chan hash plus1 n slot t = avoidChannel n (chanSlot0 hash n t) (chanSlot1Start hash plus1 n t) := by
  rw [chan, if_neg (by omega), if_neg (by omega), if_neg hslot, avoidChannel]

/-- The channel is in range (R94 law 3). -/
theorem chan_lt (hn : 0 < n) {slot : Nat} (hslot : slot < 2) : chan hash plus1 n slot t < n := by
  obtain rfl | rfl | hn : n = 1 ∨ n = 2 ∨ 3 ≤ n := by omega
  · exact Nat.one_pos
  · rw [chan_two_channels hash plus1 t hslot]
    omega
  · by_cases h : slot = 0
    · rw [h, chan_slot0 hash plus1 t hn]
      exact chanSlot0_lt hash t hn
    · rw [chan_slot1 hash plus1 t hn h]
      exact (avoidChannel_lt_and_ne _ hn (chanSlot1Start_lt hash plus1 t hn)).1

/-- The two slots never meet (R94 law 2). -/
theorem chan_slots_ne (hn : 2 ≤ n) : chan hash plus1 n 0 t ≠ chan hash plus1 n 1 t := by
  obtain rfl | hn : n = 2 ∨ 3 ≤ n := by omega
  · exact Nat.one_ne_zero
  · rw [chan_slot0 hash plus1 t hn, chan_slot1 hash plus1 t hn Nat.one_ne_zero]
    exact (avoidChannel_lt_and_ne _ hn (chanSlot1Start_lt hash plus1 t hn)).2.symm

/-- Slot 0 leaves the channel of its hash (R94 law 4). -/
theorem chan_slot0_ne_legacy (hn : 3 ≤ n) : chan hash plus1 n 0 t ≠ (hash (t <<< 1)).toNat % n := by
  rw [chan_slot0 hash plus1 t hn]
  exact (hopWrap_succ hn (Nat.mod_lt _ (by omega))).2

/-- The timestamp enters by `shl32(t, 1)` alone. -/
theorem chan_congr {t t' : Word} (h : t' <<< 1 = t <<< 1) (n slot : Nat) :
    chan hash plus1 n slot t' = chan hash plus1 n slot t := by
  unfold chan chanSlot0 chanSlot1Start
  rw [h]

end

/-- Settles O56: the increment moves slot 0 off its hash, and the collision check moves slot 1 off slot 0. -/
theorem channelsInRangeAndNeverMeet : Obligations.ChannelsInRangeAndNeverMeet := by
  unfold Obligations.ChannelsInRangeAndNeverMeet
  intro hop plus1 n t hn
  exact ⟨chan_lt hop plus1 t (by omega) (by decide), chan_lt hop plus1 t (by omega) (by decide),
    chan_slots_ne hop plus1 t hn, chan_slot0_ne_legacy hop plus1 t⟩

/-! ### FHSEL under any parameters (R92, R93) -/

/-- The channel of R91 in a block with parameters `p`. -/
def hopChannel (p : Params) (r : Region) (slot : Nat) (t : Word) : Nat :=
  chan p.hopHash p.hopSlot1Plus1 (p.plan r).count slot t

section
variable {p : Params} {r : Region} {slot : Nat} {s t : State}

theorem fhsel_unsupported (h : (p.plan r).count = 0) (slot : Nat) (s : State) :
    execWith p (.fhsel r slot) s = .next (finish 0#32 0#32 [] s) :=
  congrArg Host.Outcome.next (if_pos h)

theorem fhsel_supported (h : 0 < (p.plan r).count) (slot : Nat) (s : State) :
    execWith p (.fhsel r slot) s = .next (finish (BitVec.ofNat 32 (hopChannel p r slot s.arg))
      (BitVec.ofNat 32 (carrier (p.plan r) (hopChannel p r slot s.arg))) [] s) :=
  congrArg Host.Outcome.next (if_neg (Nat.ne_of_gt h))

theorem fhsel_finished (h : 0 < (p.plan r).count) (ht : execWith p (.fhsel r slot) s = .next t) :
    Finished s t (BitVec.ofNat 32 (hopChannel p r slot s.arg))
      (BitVec.ofNat 32 (carrier (p.plan r) (hopChannel p r slot s.arg))) [] := by
  obtain rfl := Host.Outcome.next.inj ((fhsel_supported h slot s).symm.trans ht)
  exact finish_finished _ _ [] s (Nat.zero_le _)

/-- Under admissible parameters neither RES nor FREQ wraps. -/
theorem fhsel_toNat (hp : Admissible p) (h : 0 < (p.plan r).count) (hslot : slot < 2)
    (ht : execWith p (.fhsel r slot) s = .next t) :
    t.res.toNat = hopChannel p r slot s.arg ∧ t.freq.toNat = carrier (p.plan r) (hopChannel p r slot s.arg) := by
  have hch : hopChannel p r slot s.arg < (p.plan r).count := chan_lt _ _ _ h hslot
  have hfinished := fhsel_finished h ht
  rw [hfinished.res, hfinished.freq, BitVec.toNat_ofNat, BitVec.toNat_ofNat]
  exact ⟨Nat.mod_eq_of_lt (Nat.lt_of_lt_of_le hch (hp.channelFits r)), Nat.mod_eq_of_lt (hp.frequencyFits r _ hch)⟩

/-- R94 law 2 in RES: the two channels differ as words too, since neither wraps. -/
theorem fhsel_slots_res_ne {t0 t1 : State} (hp : Admissible p) (h : 2 ≤ (p.plan r).count)
    (ht0 : execWith p (.fhsel r 0) s = .next t0) (ht1 : execWith p (.fhsel r 1) s = .next t1) : t0.res ≠ t1.res := by
  obtain ⟨hres0, _⟩ := fhsel_toNat hp (by omega) (by decide) ht0
  obtain ⟨hres1, _⟩ := fhsel_toNat hp (by omega) (by decide) ht1
  intro heq
  exact chan_slots_ne _ _ s.arg h (hres0.symm.trans ((congrArg BitVec.toNat heq).trans hres1))

end

/-- Settles O60: FHSEL finishes with the channel of R91 and its carrier, which fit their registers. -/
theorem fhselFollowsEveryPlan : Obligations.FhselFollowsEveryPlan := by
  unfold Obligations.FhselFollowsEveryPlan
  intro p hp r s
  refine ⟨fun h slot => ⟨_, fhsel_unsupported h slot s, finish_finished _ _ [] s (Nat.zero_le _)⟩,
    fun h slot hslot => ?supported, fun h _ _ => fhsel_slots_res_ne hp h⟩
  case supported =>
    obtain ⟨hres, hfreq⟩ := fhsel_toNat hp h hslot (fhsel_supported h slot s)
    refine ⟨_, fhsel_supported h slot s, finish_finished _ _ [] s (Nat.zero_le _), ?_, hres, ?_, fun h1 => ?_,
      fun h2 => ?_⟩
    · rw [hres]
      exact chan_lt _ _ _ h hslot
    · rw [hfreq, hres, carrier]
    · refine BitVec.eq_of_toNat_eq (hres.trans ?_)
      rw [hopChannel, h1]
      exact chan_one_channel _ _ _ slot
    · rw [hres, hopChannel, h2]
      exact chan_two_channels _ _ _ hslot

/-! ### FHSEL under the default parameters -/

/-- `shl32(t, 1)` drops bit 31 (R93). -/
theorem add_two_pow_31_shiftLeft_one (t : Word) : (t + 0x80000000#32) <<< 1 = t <<< 1 := by
  rw [BitVec.shiftLeft_add_distrib, show 0x80000000#32 <<< 1 = 0#32 by decide, BitVec.add_zero]

theorem plan_of_ne_asia {r : Region} (h : r ≠ .asia) : 2 ≤ (plan r).count ∧ 0 < (plan r).spacing := by
  cases r with
  | europe | northAmerica | australia => decide
  | asia => exact absurd rfl h

/-- Two channels of one region have two frequencies. -/
theorem carrier_inj {p : Plan} (h : 0 < p.spacing) {ch ch' : Nat} (heq : carrier p ch = carrier p ch') : ch = ch' :=
  Nat.eq_of_mul_eq_mul_left h (Nat.add_left_cancel heq)

/-- Settles O57: FREQ is the carrier of RES, whose channels differ by R94 law 2; and bit 31 of the timestamp is not
hashed. -/
theorem slotsOfARegionNeverShareAFrequency : Obligations.SlotsOfARegionNeverShareAFrequency := by
  unfold Obligations.SlotsOfARegionNeverShareAFrequency
  intro r s t0 t1 hr ht0 ht1
  rw [← execWith_default] at ht0 ht1 ⊢
  obtain ⟨hcount, hspacing⟩ := plan_of_ne_asia hr
  have hpos : 0 < (defaultParams.plan r).count := Nat.lt_of_lt_of_le Nat.two_pos hcount
  refine ⟨fun hfreq => ?frequencies, fhsel_slots_res_ne defaultParams_admissible hcount ht0 ht1, ?timestamps⟩
  case frequencies =>
    obtain ⟨_, hfreq0⟩ := fhsel_toNat defaultParams_admissible hpos (by decide) ht0
    obtain ⟨_, hfreq1⟩ := fhsel_toNat defaultParams_admissible hpos (by decide) ht1
    rw [hfreq, hfreq1] at hfreq0
    exact chan_slots_ne _ _ s.arg hcount (carrier_inj hspacing hfreq0).symm
  case timestamps =>
    intro slot s' t t' harg ht ht'
    have hfinished := fhsel_finished hpos ht
    have hfinished' := fhsel_finished hpos ht'
    have hch : hopChannel defaultParams r slot s'.arg = hopChannel defaultParams r slot s.arg :=
      chan_congr _ _ (by rw [harg, add_two_pow_31_shiftLeft_one]) _ slot
    rw [hch] at hfinished'
    exact ⟨hfinished'.res.trans hfinished.res.symm, hfinished'.freq.trans hfinished.freq.symm⟩

/-- The first line of HOP_HASH (R90) is a multiplication. -/
theorem shiftLeft_15_add_not (x : Word) : (x <<< 15) + ~~~x = x * 32767#32 - 1#32 := by
  apply BitVec.eq_of_toNat_eq
  simp only [BitVec.toNat_add, BitVec.toNat_sub, BitVec.toNat_mul, BitVec.toNat_not, BitVec.toNat_shiftLeft,
    BitVec.toNat_ofNat, Nat.shiftLeft_eq]
  omega

/-- The third line of HOP_HASH (R90) is a multiplication. -/
theorem add_shiftLeft_2 (x : Word) : x + (x <<< 2) = x * 5#32 := by
  apply BitVec.eq_of_toNat_eq
  simp only [BitVec.toNat_add, BitVec.toNat_mul, BitVec.toNat_shiftLeft, BitVec.toNat_ofNat, Nat.shiftLeft_eq]
  omega

theorem hopHash_eq_hashed (x : Word) : hopHash x = hashed x := by
  rw [hopHash, shiftLeft_15_add_not, add_shiftLeft_2, hashed]

theorem shiftLeft_one_eq_ofNat (t : Word) : t <<< 1 = BitVec.ofNat 32 (2 * t.toNat) := by
  apply BitVec.eq_of_toNat_eq
  rw [BitVec.toNat_shiftLeft, BitVec.toNat_ofNat, Nat.shiftLeft_eq, Nat.mul_comm]

theorem shiftLeft_one_add_one_eq_ofNat (t : Word) : (t <<< 1) + 1#32 = BitVec.ofNat 32 (2 * t.toNat + 1) := by
  rw [shiftLeft_one_eq_ofNat, BitVec.ofNat_add]

theorem hopWrap_eq_nextChannel {n h : Nat} (hh : h < n) : hopWrap n (h + 1) = nextChannel n h := by
  unfold hopWrap nextChannel
  split <;> split <;> omega

/-- The model's selection at the defaults is the closed form of R90 and R91. -/
theorem chan_eq_channel {n : Nat} (hn : 3 ≤ n) (slot : Nat) (t : Word) :
    chan hopHash hopSlot1Plus1 n slot t = channel n slot t.toNat := by
  have hpos : 0 < n := by omega
  have h0 : chanSlot0 hopHash n t = nextChannel n ((hashed (BitVec.ofNat 32 (2 * t.toNat))).toNat % n) := by
    rw [chanSlot0, hopHash_eq_hashed, shiftLeft_one_eq_ofNat, hopWrap_eq_nextChannel (Nat.mod_lt _ hpos)]
  have h1 : chanSlot1Start hopHash hopSlot1Plus1 n t =
      nextChannel n ((hashed (BitVec.ofNat 32 (2 * t.toNat + 1))).toNat % n) := by
    rw [chanSlot1Start, hopHash_eq_hashed, shiftLeft_one_add_one_eq_ofNat, hopSlot1Plus1, if_pos rfl,
      hopWrap_eq_nextChannel (Nat.mod_lt _ hpos)]
  by_cases hslot : slot = 0
  · rw [hslot, chan_slot0 _ _ _ hn, h0, channel, if_pos rfl]
  · have hlt := chanSlot1Start_lt hopHash hopSlot1Plus1 t hn
    rw [chan_slot1 _ _ _ hn hslot, avoidChannel, hopWrap_eq_nextChannel hlt, h0, h1, channel, if_neg hslot]

/-- FHSEL in a default region that hops by the hash. -/
theorem fhsel_default_finishes {r : Region} (h : 3 ≤ (plan r).count) (slot : Nat) (s : State) :
    ∃ t, exec (.fhsel r slot) s = .next t ∧
      Finished s t (BitVec.ofNat 32 (channel (plan r).count slot s.arg.toNat))
        (BitVec.ofNat 32 ((plan r).base + (plan r).spacing * channel (plan r).count slot s.arg.toNat)) [] := by
  rw [← execWith_default, ← chan_eq_channel h]
  have hcount : 0 < (defaultParams.plan r).count := Nat.zero_lt_of_lt h
  have hdone := fhsel_supported hcount slot s
  exact ⟨_, hdone, fhsel_finished hcount hdone⟩

/-- Settles O55: 65 and 24 channels take the hash, and the defaults' selection is the closed form. -/
theorem fhselHopsByTheHash : Obligations.FhselHopsByTheHash := by
  unfold Obligations.FhselHopsByTheHash
  intro s slot _
  exact ⟨fhsel_default_finishes (r := .northAmerica) (by decide) slot s,
    fhsel_default_finishes (r := .australia) (by decide) slot s⟩

/-- The two channels of Europe, whatever the timestamp. -/
theorem fhsel_europe_finishes {slot : Nat} (h : slot < 2) (s : State) :
    ∃ t, exec (.fhsel .europe slot) s = .next t ∧
      Finished s t (BitVec.ofNat 32 (1 - slot)) (BitVec.ofNat 32 (carrier (plan .europe) (1 - slot))) [] := by
  rw [← execWith_default, ← chan_two_channels hopHash hopSlot1Plus1 s.arg h]
  have hcount : 0 < (defaultParams.plan .europe).count := Nat.two_pos
  have hdone := fhsel_supported hcount slot s
  exact ⟨_, hdone, fhsel_finished hcount hdone⟩

/-- Settles O54: two channels give slot xor 1 and none gives 0, for every timestamp. -/
theorem fhselWithoutTheHash : Obligations.FhselWithoutTheHash := by
  unfold Obligations.FhselWithoutTheHash
  intro s
  refine ⟨fhsel_europe_finishes Nat.two_pos s, fhsel_europe_finishes Nat.one_lt_two s, fun slot => ?asia⟩
  case asia =>
    rw [← execWith_default]
    exact ⟨_, fhsel_unsupported rfl slot s, finish_finished _ _ [] s (Nat.zero_le _)⟩

end Sys2Proof.Proofs
end

section
/-!
PROOFS. The exceptions' statements (60_exceptions.md): no run stops (O22), what sets and clears OVR (O25), and the error
codes that each command can end with (O28).
-/

namespace Sys2Proof.Proofs

open Sys2Proof.Machine Sys2Proof.Claim

/-! ### No run stops (R98, R100) -/

/-- Settles O22, by induction on the steps: `step_effect` gives each a next state. -/
theorem runsNeverStop : Obligations.RunsNeverStop := by
  unfold Obligations.RunsNeverStop
  intro s n
  induction n generalizing s with
  | zero => exact ⟨s, run_zero s⟩
  | succ n ih =>
    obtain ⟨t, hstep, _⟩ := step_effect s
    obtain ⟨u, hrun⟩ := ih t
    exact ⟨u, (run_succ hstep n).trans hrun⟩

/-! ### What clears OVR (R101) -/

/-- STATUS stands at one offset (20_memory.md R27). -/
theorem placeOf_status {off : Nat} (h : placeOf off = .status) : off = 0x04 := by
  unfold placeOf at h
  split at h
  · cases h
  · split at h
    · assumption
    · repeat' split at h
      all_goals cases h

/-- A write elsewhere than to STATUS leaves OVR set: it is dropped, it is ignored, or it stores without touching OVR. -/
theorem writeWord_keeps_ovr_set {s : State} {off : BitVec 8} (v : Word) (hoff : placeOf off.toNat ≠ .status)
    (hset : s.status.ovr = true) : (writeWord s off v).status.ovr = true := by
  have hprotected : ∀ t : State, t.status.ovr = true →
      (if s.status.busy = true then dropWrite s else t).status.ovr = true := by
    intro t ht
    split
    · rfl
    · exact ht
  unfold writeWord
  cases hplace : placeOf off.toNat with
  | status => exact absurd hplace hoff
  | cmd => exact hprotected (accept v s) hset
  | arg => exact hprotected { s with arg := v } hset
  | ibuf i => exact hprotected { s with ibuf := s.ibuf.writeList i (putLe32 v) } hset
  | res | freq | olen | obuf | reserved => exact hset

theorem writeWord_clears_ovr {s : State} {off : BitVec 8} {v : Word} (hset : s.status.ovr = true)
    (hclear : (writeWord s off v).status.ovr = false) : off = 0x04#8 ∧ v.getLsbD 8 = true := by
  have hplace : placeOf off.toNat = .status := Classical.byContradiction fun hoff =>
    Bool.eq_false_iff.1 hclear (writeWord_keeps_ovr_set v hoff hset)
  have hoff : off = 0x04#8 := BitVec.eq_of_toNat_eq (placeOf_status hplace)
  have hwrite : (s.status.hostWrite v).ovr = false := by
    rwa [writeWord, hplace] at hclear
  refine ⟨hoff, Bool.of_not_eq_false fun hbit => ?_⟩
  rw [hostWrite_of_not_bit8 hbit] at hwrite
  exact Bool.eq_false_iff.1 hwrite hset

/-- Reads and accesses with a bus error change nothing, so an access that clears OVR is an aligned write. -/
theorem busAccess_clears_ovr {s : State} {a : Access} (hset : s.status.ovr = true)
    (hclear : (busAccess a s).2.status.ovr = false) : ∃ v, a = .write 0x04#8 32 v ∧ v.getLsbD 8 = true := by
  cases a with
  | read off width =>
    rw [busAccess_read] at hclear
    exact absurd hset (Bool.eq_false_iff.1 hclear)
  | write off width v =>
    by_cases hbad : off.toNat % 4 ≠ 0 ∨ width ≠ 32
    · rw [busAccess_write_bad hbad] at hclear
      exact absurd hset (Bool.eq_false_iff.1 hclear)
    · obtain ⟨haligned, rfl⟩ : off.toNat % 4 = 0 ∧ width = 32 := by omega
      rw [busAccess_write_aligned haligned] at hclear
      obtain ⟨rfl, hbit⟩ := writeWord_clears_ovr hset hclear
      exact ⟨v, rfl, hbit⟩

theorem hostAccess_clears_ovr {s : State} {a : Access} {rest : List Input} (hset : s.status.ovr = true)
    (hclear : (hostAccess a { s with inputs := rest }).status.ovr = false) :
    ∃ v, a = .write 0x04#8 32 v ∧ v.getLsbD 8 = true :=
  busAccess_clears_ovr (s := { s with inputs := rest, wait := s.wait - 1 }) hset hclear

/-- WAIT and COPY start with a read, so an input that clears OVR is the STATUS write itself, or a reset. -/
theorem takeInput_clears_ovr {s : State} (hset : s.status.ovr = true) (hclear : (takeInput s).status.ovr = false) :
    (∃ v rest, s.inputs = .access (.write 0x04#8 32 v) :: rest ∧ v.getLsbD 8 = true) ∨
      ∃ overlapping rest, s.inputs = .reset overlapping :: rest := by
  cases hinputs : s.inputs with
  | nil =>
    rw [takeInput, hinputs] at hclear
    exact absurd hset (Bool.eq_false_iff.1 hclear)
  | cons i rest =>
    cases i with
    | access a =>
      rw [takeInput_access hinputs] at hclear
      obtain ⟨v, rfl, hbit⟩ := hostAccess_clears_ovr hset hclear
      exact .inl ⟨v, rest, rfl, hbit⟩
    | waitIdle =>
      rw [takeInput_waitIdle hinputs] at hclear
      obtain ⟨_, hread, _⟩ := hostAccess_clears_ovr hset hclear
      cases hread
    | copyWord src dst =>
      rw [takeInput_copyWord hinputs] at hclear
      obtain ⟨_, hread, _⟩ := hostAccess_clears_ovr hset hclear
      cases hread
    | reset overlapping => exact .inr ⟨overlapping, rest, rfl⟩

/-! ### What sets OVR (R101) -/

/-- Of a bus access's effects only the dropped write sets OVR, and it needs BUSY = 1. -/
theorem busy_of_busEffect_sets_ovr {s t : State} (h : BusEffect s t) (hunset : s.status.ovr = false)
    (hset : t.status.ovr = true) : s.status.busy = true := by
  have hchanged : t.status.ovr ≠ s.status.ovr := fun heq => Bool.eq_false_iff.1 hunset (heq.symm.trans hset)
  cases h with
  | dropped hbusy => exact hbusy
  | nothing | accepted | arg | ibuf => exact absurd rfl hchanged
  | status v =>
    obtain hkept | hcleared := s.status.hostWrite_cases v
    · exact absurd (congrArg Status.ovr hkept) hchanged
    · exact absurd hset (Bool.eq_false_iff.1 (congrArg Status.ovr hcleared))

theorem busy_of_inputEffect_sets_ovr {s t : State} (h : InputEffect s t) (hunset : s.status.ovr = false)
    (hset : t.status.ovr = true) : s.status.busy = true := by
  cases h with
  | idle => exact absurd hset (Bool.eq_false_iff.1 hunset)
  | access rest a =>
    have hbus := busAccess_effect a { s with inputs := rest, wait := s.wait - 1 }
    exact busy_of_busEffect_sets_ovr (s := { s with inputs := rest, wait := s.wait - 1 }) hbus hunset hset
  | reset => cases hset

/-- Settles O25: a completion keeps OVR, and an input changes it only in these ways. -/
theorem ovrIsSticky : Obligations.OvrIsSticky := by
  unfold Obligations.OvrIsSticky
  intro s t hstep
  by_cases hdue : completionDue s = true
  · obtain ⟨u, hu, hends⟩ := complete_ends s
    obtain rfl : u = t := Host.Outcome.next.inj (hu.symm.trans ((step_of_due hdue).symm.trans hstep))
    have hkept := hends.kept.ovr
    exact ⟨fun hset hclear => absurd (hkept.trans hset) (Bool.eq_false_iff.1 hclear),
      fun hunset hset => absurd (hkept.symm.trans hset) (Bool.eq_false_iff.1 hunset)⟩
  · obtain rfl : takeInput s = t :=
      Host.Outcome.next.inj ((step_of_not_due (Bool.eq_false_iff.2 hdue)).symm.trans hstep)
    exact ⟨takeInput_clears_ovr, busy_of_inputEffect_sets_ovr (takeInput_effect s)⟩

/-! ### The code of each command (R96) -/

/-- FHSEL has no way to fail: a region without channels finishes too. -/
theorem exec_fhsel_finishes (r : Region) (slot : Nat) (s : State) :
    ∃ res freq, exec (.fhsel r slot) s = .next (finish res freq [] s) := by
  rw [← execWith_default]
  obtain hnone | hsome := Nat.eq_zero_or_pos (defaultParams.plan r).count
  · exact ⟨_, _, fhsel_unsupported hnone slot s⟩
  · exact ⟨_, _, fhsel_supported hsome slot s⟩

/-- Asia's plan has no channels, so FHSEL answers a FREQ of 0 (44_freqhop.md R93). -/
theorem exec_fhsel_asia (slot : Nat) (s : State) : exec (.fhsel .asia slot) s = .next (finish 0#32 0#32 [] s) := by
  rw [← execWith_default]
  exact fhsel_unsupported rfl slot s

/-- Every command completes with a code of its row. -/
theorem exec_mayEndWith (i : Instr) (s : State) : ∃ t, exec i s = .next t ∧ mayEndWith i t.status.ecode := by
  cases i with
  | qenc14 | qdec14 | qenc10 | qdec10 | qenc6 | qdec6 | qencs8 | qdecs8 | qencs9 | qdecs9 => exact ⟨_, rfl, rfl⟩
  | whiten | dewhiten | fecenc => exact ⟨_, rfl, rfl⟩
  | fecchk =>
    by_cases hmatch : ParityMatches s
    · exact ⟨_, exec_fecchk_of_match hmatch, .inl rfl⟩
    · exact ⟨_, exec_fecchk_of_mismatch hmatch, .inr rfl⟩
  | manenc len =>
    obtain hlong | hshort := Nat.lt_or_ge 32 len
    · exact ⟨_, exec_manenc_of_gt hlong s, .inr rfl⟩
    · exact ⟨_, exec_manenc_of_le hshort s, .inl rfl⟩
  | mandec len =>
    by_cases hlength : len % 2 = 1 ∨ 64 < len
    · exact ⟨_, exec_mandec_badLength hlength s, .inr (.inl rfl)⟩
    · obtain ⟨heven, hle⟩ : len % 2 = 0 ∧ len ≤ 64 := by omega
      cases hdecoded : manDecode (ibufBytes s 0 len) with
      | some out => exact ⟨_, exec_mandec_of_decoded heven hle hdecoded, .inl rfl⟩
      | none => exact ⟨_, exec_mandec_of_violation heven hle hdecoded, .inr (.inr rfl)⟩
  | fhsel region slot =>
    obtain ⟨res, freq, hdone⟩ := exec_fhsel_finishes region slot s
    exact ⟨_, hdone, rfl⟩

/-- Settles O28: the row of each command, the completion of an illegal word, and Asia's plan. -/
theorem commandsEndOnlyWithTheirCodes : Obligations.CommandsEndOnlyWithTheirCodes := by
  unfold Obligations.CommandsEndOnlyWithTheirCodes
  refine ⟨fun i s t hexec => ?row, fun s t hillegal hcomplete => ?illegal, fun slot s t hexec => ?asia⟩
  case row =>
    obtain ⟨u, hu, hcode⟩ := exec_mayEndWith i s
    obtain rfl : u = t := Host.Outcome.next.inj (hu.symm.trans hexec)
    exact hcode
  case illegal =>
    obtain rfl := Host.Outcome.next.inj ((complete_of_illegal hillegal).symm.trans hcomplete)
    rfl
  case asia =>
    obtain rfl := Host.Outcome.next.inj ((exec_fhsel_asia slot s).symm.trans hexec)
    exact ⟨rfl, rfl⟩

end Sys2Proof.Proofs
end

section
/-!
PROOFS. The statements on reset and hazards (70_reset_and_hazards.md): what reset leaves (O1, O23) and abandons (O2),
the writes dropped while BUSY = 1 (O7), and the accesses that come before the completion (O21).
-/

namespace Sys2Proof.Proofs

open Sys2Proof.Machine Sys2Proof.Claim

/-! ### The state after reset (R105) -/

/-- What lies outside the block has no part in the reset values of 10_state.md R13. -/
theorem atReset_of_outside (inputs : List Input) (responses : List Response) (draws : Nat) :
    AtReset { State.reset with inputs := inputs, responses := responses, draws := draws } where
  cmd := rfl
  busy := rfl
  done := rfl
  err := rfl
  ecode := rfl
  ovr := rfl
  arg := rfl
  res := rfl
  freq := rfl
  olen := rfl
  ibuf _ _ := rfl
  obuf _ _ := rfl

theorem atReset_hardReset (s : State) : AtReset (hardReset s) := atReset_of_outside s.inputs s.responses s.draws

theorem status_word_of_atReset {s : State} (h : AtReset s) : s.status.word = 0#32 := by
  rw [Status.word, h.busy, h.done, h.err, h.ecode, h.ovr]
  rfl

theorem le32_eq_zero {b : Nat → Byte} {i : Nat} (h : ∀ k, k < 4 → b (i + k) = 0#8) : le32 b i = 0#32 := by
  have h0 : b i = 0#8 := h 0 (by omega)
  simp [le32, h0, h 1, h 2, h 3]

/-- At reset a word of the window is 0, whatever stands at its offset. -/
theorem wordAt_of_atReset {s : State} (h : AtReset s) (off : BitVec 8) : wordAt s off = 0#32 := by
  rw [wordAt]
  cases hplace : placeOf off.toNat with
  | cmd => exact h.cmd
  | status => exact status_word_of_atReset h
  | arg => exact h.arg
  | res => exact h.res
  | freq => exact h.freq
  | olen => exact h.olen
  | ibuf i =>
    obtain ⟨hfits, _⟩ := placeOf_ibuf hplace
    exact le32_eq_zero fun k hk => h.ibuf (i + k) (by omega)
  | obuf i =>
    obtain ⟨hfits, _⟩ := placeOf_obuf hplace
    exact le32_eq_zero fun k hk => h.obuf (i + k) (by omega)
  | reserved => rfl

theorem windowByte_of_atReset {s : State} (h : AtReset s) (off : Nat) : windowByte s off = 0#8 := by
  rw [windowByte, wordAt_of_atReset h, BitVec.extractLsb'_zero]

/-- Settles O1: the values by definition, and the window's bytes out of them. -/
theorem resetStateIsAllZero : Obligations.ResetStateIsAllZero := by
  unfold Obligations.ResetStateIsAllZero
  have hreset : AtReset State.reset := atReset_of_outside [] [] 0
  exact ⟨hreset, fun off _ => windowByte_of_atReset hreset off, fun s =>
    ⟨atReset_hardReset s, fun off _ => windowByte_of_atReset (atReset_hardReset s) off⟩⟩

/-- Settles O23: it is the base case of the invariant. -/
theorem resetStateIsLegal : Obligations.ResetStateIsLegal := inv_reset

/-! ### Reset as an input (R106) -/

/-- A reset comes before a completion, even one that no access is left to delay. -/
theorem step_of_reset {s : State} {overlapping : Option Access} {rest : List Input}
    (hinputs : s.inputs = .reset overlapping :: rest) :
    step s = .next (resetInput overlapping { s with inputs := rest }) := by
  have hnotDue : completionDue s = false := by
    rw [completionDue, hinputs]
    exact Bool.and_false _
  rw [step_of_not_due hnotDue, takeInput, hinputs]

/-- Settles O2: with an overlapping access the reset differs by one answer and one free value only. -/
theorem resetAbandonsPendingCommand : Obligations.ResetAbandonsPendingCommand := by
  unfold Obligations.ResetAbandonsPendingCommand
  intro s overlapping rest hinputs
  refine ⟨_, step_of_reset hinputs, ?_⟩
  cases overlapping with
  | none => exact ⟨atReset_of_outside .., rfl, List.suffix_refl _, fun _ => rfl⟩
  | some a => exact ⟨atReset_of_outside .., rfl, List.suffix_cons .., nofun⟩

/-! ### Writes while BUSY = 1 (R108) -/

theorem writeWord_of_busy {s : State} (hbusy : s.status.busy = true) {off : BitVec 8} (v : Word)
    (hplace : placeOf off.toNat = .cmd ∨ placeOf off.toNat = .arg ∨ ∃ i, placeOf off.toNat = .ibuf i) :
    writeWord s off v = dropWrite s := by
  rw [writeWord]
  obtain hcmd | harg | ⟨i, hibuf⟩ := hplace
  · rw [hcmd]
    exact if_pos hbusy
  · rw [harg]
    exact if_pos hbusy
  · rw [hibuf]
    exact if_pos hbusy

/-- Settles O7: the offsets are those of CMD, ARG and IBUF, whose writes are dropped. -/
theorem busyWritesAreDroppedAndSetOvr : Obligations.BusyWritesAreDroppedAndSetOvr := by
  unfold Obligations.BusyWritesAreDroppedAndSetOvr
  intro s off v hbusy haligned hoff
  have hplace : placeOf off.toNat = .cmd ∨ placeOf off.toNat = .arg ∨ ∃ i, placeOf off.toNat = .ibuf i := by
    obtain hcmd | harg | hibuf := hoff
    · exact .inl (by rw [hcmd]; rfl)
    · exact .inr (.inl (by rw [harg]; rfl))
    · exact .inr (.inr ⟨_, placeOf_ibuf_range (by omega)⟩)
  rw [busAccess_write_aligned haligned, writeWord_of_busy hbusy v hplace]
  rfl

/-! ### Accesses before the completion (R112) -/

/-- The state after accesses that found a command in flight: their `answers` (newest first) are recorded and counted,
OVR is `ovr`, and `rest` is left to do. -/
def afterBusyAccesses (s : State) (ovr : Bool) (answers : List Response) (rest : List Input) : State :=
  { s with
    status := { s.status with ovr := ovr }
    wait := s.wait - answers.length
    inputs := rest
    responses := answers ++ s.responses }

theorem afterBusyAccesses_afterBusyAccesses (s : State) (ovr ovr' : Bool) (r : Response) (answers : List Response)
    (rest rest' : List Input) :
    afterBusyAccesses (afterBusyAccesses s ovr [r] rest) ovr' answers rest' =
      afterBusyAccesses s ovr' (answers ++ [r]) rest' := by
  simp [afterBusyAccesses, Nat.sub_sub, Nat.add_comm]

/-- While LATENCY leaves an access before the completion, the step performs it; of the block only OVR changes. -/
theorem step_of_busy_access {s : State} {a : Access} {rest : List Input} (hbusy : s.status.busy = true)
    (hwait : s.wait ≠ 0) (hinputs : s.inputs = .access a :: rest) :
    ∃ ovr r, step s = .next (afterBusyAccesses s ovr [r] rest) := by
  obtain ⟨ovr, r, haccess⟩ := hostAccess_of_busy a (s := { s with inputs := rest }) hbusy
  refine ⟨ovr, r, ?_⟩
  rw [step_of_notDue hinputs (.inr hwait), takeInput_access hinputs, haccess]
  rfl

theorem run_busy_accesses (accesses : List Access) {s : State} {rest : List Input} (hbusy : s.status.busy = true)
    (hwait : accesses.length ≤ s.wait) (hinputs : s.inputs = accesses.map Input.access ++ rest) :
    ∃ ovr answers, answers.length = accesses.length ∧
      Sys2Proof.core.run accesses.length s = .next (afterBusyAccesses s ovr answers rest) := by
  induction accesses generalizing s with
  | nil =>
    obtain rfl : s.inputs = rest := hinputs
    exact ⟨s.status.ovr, [], rfl, run_zero s⟩
  | cons a accesses ih =>
    rw [List.length_cons] at hwait
    rw [List.map_cons, List.cons_append] at hinputs
    obtain ⟨ovr, r, hstep⟩ := step_of_busy_access hbusy (by omega) hinputs
    have hlater : accesses.length ≤ s.wait - 1 := by omega
    obtain ⟨ovr', answers, hlength, hrun⟩ :=
      ih (s := afterBusyAccesses s ovr [r] (accesses.map Input.access ++ rest)) hbusy hlater rfl
    refine ⟨ovr', answers ++ [r], by simp [hlength], ?_⟩
    rw [List.length_cons, run_succ hstep, hrun, afterBusyAccesses_afterBusyAccesses]

/-- Settles O21, by induction on the accesses: none finds the completion due, and each changes OVR alone. -/
theorem noCompletionBeforeLatency : Obligations.NoCompletionBeforeLatency := by
  unfold Obligations.NoCompletionBeforeLatency
  intro s accesses rest hbusy hwait hinputs
  obtain ⟨ovr, answers, hlength, hrun⟩ := run_busy_accesses accesses hbusy hwait hinputs
  refine ⟨_, hrun, hbusy, rfl, rfl, rfl, rfl, ?wait, ?answered⟩
  case wait => rw [afterBusyAccesses, hlength]
  case answered => rw [afterBusyAccesses, List.length_append, hlength, Nat.add_comm]

end Sys2Proof.Proofs
end
